-- ==== Sys2Proof/Word.lean ====
section
/-! DEFINITION. The word types of the core and the binary64 value type (00_scope.md R13, R14). -/

namespace Sys2Proof

/-- A byte of the register transport (20_memory.md R87). -/
abbrev Byte := BitVec 8

/-- A 32-bit word: a command word, a `u32`, or the bits of an `i32` (R13). -/
abbrev Word := BitVec 32

/-- A 64-bit word: the bits of an `i64` or of a binary64 (R13). -/
abbrev DWord := BitVec 64

/-- A channel index as the command word holds it, 16 bits (30_encoding.md R113). -/
abbrev ChanIdx := BitVec 16

/-- An `f64`: a binary64 bit pattern by its fields (R14). `top` is bit 51, the fraction's
highest bit, and `frac` is bits 50 to 0. Every one of the 2^64 patterns is one value of this type. -/
structure F64 where
  sign : Bool
  exp  : BitVec 11
  top  : Bool
  frac : BitVec 51
deriving DecidableEq, Repr, Inhabited

/-- The four binary64 operations of the rules (R14). -/
inductive FloatOp where
  | add | sub | mul | div
deriving DecidableEq, Repr, Inhabited

/-- The binary64 value with these 64 bits. -/
def F64.ofBits (b : DWord) : F64 :=
  ⟨b.getLsbD 63, b.extractLsb' 52 11, b.getLsbD 51, b.extractLsb' 0 51⟩

/-- The 64 bits of a binary64 value. -/
def F64.toBits (x : F64) : DWord :=
  BitVec.ofBool x.sign ++ x.exp ++ BitVec.ofBool x.top ++ x.frac

end Sys2Proof
end

