-- ==== Sys2Proof/Config.lean ====
section
/-! DEFINITION. What is fixed for the lifetime of a channel group (00_scope.md R7), and the free
values: every `opaque` constant below has no body, so nothing can be proved of its value. -/

namespace Sys2Proof

/-- The group configuration but for N, which is the number of channels (10_state.md R30).
No command writes it. -/
structure GroupConfig where
  /-- `CLOCK_HZ` (00_scope.md R9). -/
  clockHz : Word
  /-- `BASE` (R10). -/
  base    : Word
  /-- `STRIDE` (R10, R11). -/
  stride  : Word
deriving DecidableEq, Repr, Inhabited

/-- `control_type`: 0 selects Position and 1 selects Velocity (10_state.md R48). -/
inductive ControlType where
  | position
  | velocity
deriving DecidableEq, Repr, Inhabited

/-- `INIT` for one channel: the reset value of every host-written item (00_scope.md R12). -/
structure ChannelInit where
  positionScale : F64
  maxvel        : F64
  maxaccel      : F64
  steplen       : Word
  stepspace     : Word
  dirsetup      : Word
  dirhold       : Word
  stepType      : Word
  positionCmd   : F64
  velocityCmd   : F64
  enable        : Bool
  controlType   : ControlType
deriving DecidableEq, Repr, Inhabited

/-- Free value: the n-th accumulator read that the list of given answers does not reach
(20_memory.md R84; log 6). -/
opaque Config.freeAcc : Nat → Word

/-- Free value: of channel i, the n-th step-rate register of a NaN or infinite phase increment
(42_encoder.md R194; log 7). -/
opaque Config.freeStepRate : Nat → Nat → Word

/-- Free value: the sign of the NaN that an operation makes of its operands (log 9). -/
opaque Config.nanSign : FloatOp → F64 → F64 → Bool

/-- Free value: the low 51 fraction bits of the NaN that an operation makes of its operands
(log 9). -/
opaque Config.nanPayload : FloatOp → F64 → F64 → BitVec 51

end Sys2Proof
end

