-- ==== Sys2Proof/Machine/Float.lean ====
section
/-! DEFINITION. Binary64 arithmetic and the conversions of 00_scope.md R13 to R15 and R19: every
operation computes the exact result on integers and rounds it once, to nearest with ties to even. -/

namespace Sys2Proof

/-! ## Classes, sign and order -/

/-- Bits 62 to 0 as a number: it grows with the magnitude of the value. -/
def F64.mag (x : F64) : Nat :=
  x.exp.toNat * 2 ^ 52 + x.top.toNat * 2 ^ 51 + x.frac.toNat

/-- The value of this sign whose bits 62 to 0 are `m` (below 2^63). -/
def F64.ofMag (sign : Bool) (m : Nat) : F64 :=
  ⟨sign, BitVec.ofNat 11 (m / 2 ^ 52), m / 2 ^ 51 % 2 == 1, BitVec.ofNat 51 (m % 2 ^ 51)⟩

/-- Bits 62 to 0 of an infinity. -/
def F64.infMag : Nat := 0x7FF * 2 ^ 52

def F64.isNaN (x : F64) : Bool :=
  x.exp == 0x7FF#11 && (x.top || x.frac != 0#51)

def F64.isInf (x : F64) : Bool :=
  x.exp == 0x7FF#11 && !(x.top || x.frac != 0#51)

def F64.isFinite (x : F64) : Bool :=
  x.exp != 0x7FF#11

def F64.inf (sign : Bool) : F64 := ⟨sign, 0x7FF#11, false, 0#51⟩

def F64.zero (sign : Bool) : F64 := ⟨sign, 0#11, false, 0#51⟩

/-- Negation flips the sign bit (log 10). -/
def F64.neg (x : F64) : F64 := { x with sign := !x.sign }

/-- `abs` clears the sign bit (R14). -/
def F64.abs (x : F64) : F64 := { x with sign := false }

/-- The place of a value that is not NaN in the order of R14, with both zeros at 0. -/
def F64.key (x : F64) : Int :=
  if x.sign then -(x.mag : Int) else (x.mag : Int)

/-- `<`, false where an operand is NaN (R14). -/
def F64.lt (x y : F64) : Bool :=
  !x.isNaN && !y.isNaN && decide (x.key < y.key)

/-- `>` (R14). -/
def F64.gt (x y : F64) : Bool := y.lt x

/-- `==`, false where an operand is NaN, and true of the two zeros (R14). -/
def F64.feq (x y : F64) : Bool :=
  !x.isNaN && !y.isNaN && decide (x.key = y.key)

/-- `!=`, true where an operand is NaN (R14). -/
def F64.fne (x y : F64) : Bool := !x.feq y

/-! ## The exact value of a finite pattern, and rounding -/

/-- The integer `m` of a finite value `m * 2^e`. -/
def F64.mant (x : F64) : Nat :=
  (if x.exp = 0#11 then 0 else 2 ^ 52) + x.top.toNat * 2 ^ 51 + x.frac.toNat

/-- The exponent `e` of a finite value `m * 2^e`. -/
def F64.expo (x : F64) : Int :=
  if x.exp = 0#11 then -1074 else (x.exp.toNat : Int) - 1075

/-- `m * 2^-sh` rounded to an integer, to nearest with ties to even. -/
def roundShift (m sh : Nat) : Nat :=
  let q := m / 2 ^ sh
  let r := m % 2 ^ sh
  if 2 ^ sh < 2 * r || (2 ^ sh == 2 * r && q % 2 == 1) then q + 1 else q

/-- The exponent of the last place of the binary64 values nearest to `m * 2^e`, m not 0. -/
def lastPlace (m : Nat) (e : Int) : Int :=
  max (e + (Nat.log2 m : Int) - 52) (-1074)

/-- Bits 62 to 0 of the binary64 value nearest to `m * 2^e`, ties to even, an infinity's where
that value is past the largest finite one (R14). -/
def roundMag (m : Nat) (e : Int) : Nat :=
  if m = 0 then 0
  else
    let q := lastPlace m e
    let n := if e ≤ q then roundShift m (q - e).toNat else m * 2 ^ (e - q).toNat
    min ((q + 1074).toNat * 2 ^ 52 + n) F64.infMag

/-- The binary64 value nearest to `± m * 2^e`. -/
def F64.round (sign : Bool) (m : Nat) (e : Int) : F64 :=
  F64.ofMag sign (roundMag m e)

/-- The binary64 value nearest to `± (n / d) * 2^e`, d not 0: the quotient is taken to at least 63
bits, and a last bit tells whether a remainder is left, so that it rounds as the exact quotient. -/
def F64.roundQuot (sign : Bool) (n d : Nat) (e : Int) : F64 :=
  let k := 64 + Nat.log2 d - Nat.log2 n
  let q := n * 2 ^ k / d
  let r := n * 2 ^ k % d
  F64.round sign (2 * q + (if r = 0 then 0 else 1)) (e - (k : Int) - 1)

/-! ## The four operations -/

/-- The NaN that an operation makes: a quiet one, its sign and payload free (log 9). -/
def F64.nanOf (op : FloatOp) (x y : F64) : F64 :=
  ⟨Config.nanSign op x y, 0x7FF#11, true, Config.nanPayload op x y⟩

/-- The exact sum of two finite values as an integer times `2^e`, e the smaller exponent. -/
def F64.sumAt (x y : F64) (e : Int) : Int :=
  let at' (z : F64) : Int :=
    let m : Int := (z.mant * 2 ^ (z.expo - e).toNat : Nat)
    if z.sign then -m else m
  at' x + at' y

/-- The sum of two finite values; a sum of 0 is -0.0 only where both operands have the sign. -/
def F64.addFinite (x y : F64) : F64 :=
  let e := min x.expo y.expo
  let m := x.sumAt y e
  if m = 0 then F64.zero (x.sign && y.sign)
  else F64.round (decide (m < 0)) m.natAbs e

/-- The sum where the operation names itself `op` in the NaN it makes. -/
def F64.addAs (op : FloatOp) (x y nx ny : F64) : F64 :=
  if x.isNaN || y.isNaN then F64.nanOf op nx ny
  else if x.isInf then (if y.isInf && x.sign != y.sign then F64.nanOf op nx ny else x)
  else if y.isInf then y
  else x.addFinite y

/-- `x + y` (R14). -/
def F64.add (x y : F64) : F64 := F64.addAs .add x y x y

/-- `x - y` (R14). -/
def F64.sub (x y : F64) : F64 := F64.addAs .sub x y.neg x y

def F64.isZero (x : F64) : Bool := x.mag == 0

/-- `x * y` (R14). -/
def F64.mul (x y : F64) : F64 :=
  let s := x.sign != y.sign
  if x.isNaN || y.isNaN then F64.nanOf .mul x y
  else if (x.isInf && y.isZero) || (x.isZero && y.isInf) then F64.nanOf .mul x y
  else if x.isInf || y.isInf then F64.inf s
  else F64.round s (x.mant * y.mant) (x.expo + y.expo)

/-- `x / y` (R14). -/
def F64.div (x y : F64) : F64 :=
  let s := x.sign != y.sign
  if x.isNaN || y.isNaN then F64.nanOf .div x y
  else if (x.isInf && y.isInf) || (x.isZero && y.isZero) then F64.nanOf .div x y
  else if x.isInf || y.isZero then F64.inf s
  else if y.isInf || x.isZero then F64.zero s
  else F64.roundQuot s x.mant y.mant (x.expo - y.expo)

/-! ## Conversions (R15) and clamp (R19) -/

/-- `f64(n)`: the binary64 value nearest to an integer, ties to even (R15). -/
def F64.ofInt (n : Int) : F64 := F64.round (decide (n < 0)) n.natAbs 0

/-- `f64(n)` of an unsigned integer (R15). -/
def F64.ofNat (n : Nat) : F64 := F64.round false n 0

/-- The integer part of the magnitude of a finite value. -/
def F64.magFloor (x : F64) : Nat :=
  if 0 ≤ x.expo then x.mant * 2 ^ x.expo.toNat else x.mant >>> (-x.expo).toNat

/-- `trunc(x)` of a finite value: the integer nearest x toward zero (R15). -/
def F64.trunc (x : F64) : Int :=
  if x.sign then -(x.magFloor : Int) else (x.magFloor : Int)

/-- `round_half_away(x)` of a finite value: `floor(x + 1/2)` taken on the exact value (R15). -/
def F64.roundHalfInt (x : F64) : Int :=
  let m : Int := if x.sign then -(x.mant : Int) else (x.mant : Int)
  if 0 ≤ x.expo then m * 2 ^ x.expo.toNat
  else
    let d : Int := 2 ^ (-x.expo).toNat
    (2 * m + d) / (2 * d)

/-- `round_half_away(x)` as a value, exact for every finite x (R15). -/
def F64.roundHalfAway (x : F64) : F64 := F64.ofInt x.roundHalfInt

/-- `clamp(v, lo, hi)` (R19). -/
def F64.clamp (v lo hi : F64) : F64 :=
  if v.gt hi then hi else if v.lt lo then lo else v

/-! ## The literals of the rules (R14) -/

def F64.zeroLit : F64 := F64.zero false      -- +0.0
def F64.one     : F64 := F64.ofNat 1         -- 1.0
def F64.two     : F64 := F64.ofNat 2         -- 2.0
def F64.half    : F64 := F64.ofBits 0x3FE0000000000000#64   -- 0.5
def F64.micro   : F64 := F64.ofBits 0x3EB0C6F7A0B5ED8D#64   -- 1e-6
def F64.giga    : F64 := F64.ofNat 1000000000               -- 1e9
def F64.stepUnits : F64 := F64.ofNat 65536                  -- 65536.0
def F64.phaseUnits : F64 := F64.ofNat 4294967296            -- 4294967296.0
def F64.timingMax : F64 := F64.ofNat 16383                  -- 16383.0

end Sys2Proof
end

