-- ==== Sys2Proof/Machine/Setup.lean ====
section
/-! DEFINITION. Which configurations make a channel group (60_exceptions.md R268), and the ONE
configuration and INIT that `State.reset` is created with (log 1). -/

namespace Sys2Proof.Machine

/-- The configuration of a group of `n` channels is accepted (60_exceptions.md R268). -/
abbrev configOk (cfg : GroupConfig) (n : Nat) : Prop :=
  1 ≤ n ∧ n ≤ 65536 ∧ cfg.clockHz ≠ 0#32 ∧ cfg.base.toNat % 4 = 0 ∧ cfg.stride.toNat % 4 = 0 ∧
    4 * n ≤ cfg.stride.toNat ∧ cfg.base.toNat + 9 * cfg.stride.toNat + 4 * (n - 1) + 3 < 2 ^ 32

/-- DESIGN CHOICE, unsafe (log 1): the configuration of 95_test_vectors.md's programs, which
`State.reset` is created with; the spec leaves it an argument of the model (00_scope.md R7). -/
def resetConfig : GroupConfig :=
  { clockHz := 50000000#32, base := 0x1000#32, stride := 0x100#32 }

/-- DESIGN CHOICE, unsafe (log 1): INIT as 95_test_vectors.md program P1 gives it, one channel. -/
def resetInit : List ChannelInit :=
  [{ positionScale := F64.ofNat 1000, maxvel := F64.zero false, maxaccel := F64.zero false,
     steplen := 100#32, stepspace := 100#32, dirsetup := 1000#32, dirhold := 1000#32,
     stepType := 0#32, positionCmd := F64.zero false, velocityCmd := F64.zero false,
     enable := true, controlType := .position }]

end Sys2Proof.Machine
end

