-- ==== Sys2Proof/Syntax.lean ====
section
/-! DEFINITION. The commands of the core and of the HOST agent, one constructor per row of the
opcode table (30_encoding.md R114). -/

namespace Sys2Proof

/-- The two agents that run commands (00_scope.md R4, 60_exceptions.md R276). -/
inductive Agent where
  | rt
  | host
deriving DecidableEq, Repr, Inhabited

/-- The five command formats (30_encoding.md R114). -/
inductive Format where
  | g    -- no channel, no payload
  | c    -- channel, no payload
  | cf   -- channel and a binary64 payload
  | cu   -- channel and a u32 payload
  | cs   -- channel and a selector
deriving DecidableEq, Repr, Inhabited

/-- The operations of the opcode table, by name (30_encoding.md R114). -/
inductive Op where
  | tramRead | decode | control | encode | tramWrite
  | syncDirsetup | syncDirhold | syncSteplen | syncStepspace | syncSteptype
  | forcedResync
  | setPositionScale | setMaxvel | setMaxaccel
  | setSteplen | setStepspace | setDirsetup | setDirhold | setStepType
  | setPositionCmd | setVelocityCmd | setEnable | setControlType
  | hostRead
deriving DecidableEq, Repr, Inhabited

/-- A command with its operands. The channel index is any 16-bit number, the selector any 8-bit
number: what a rule refuses at run time can be written down. -/
inductive Instr where
  | tramRead
  | decode (ch : ChanIdx)
  | control (ch : ChanIdx) (T : F64)
  | encode (ch : ChanIdx)
  | tramWrite
  | syncDirsetup (ch : ChanIdx)
  | syncDirhold (ch : ChanIdx)
  | syncSteplen (ch : ChanIdx)
  | syncStepspace (ch : ChanIdx)
  | syncSteptype (ch : ChanIdx)
  | forcedResync
  | setPositionScale (ch : ChanIdx) (v : F64)
  | setMaxvel (ch : ChanIdx) (v : F64)
  | setMaxaccel (ch : ChanIdx) (v : F64)
  | setSteplen (ch : ChanIdx) (v : Word)
  | setStepspace (ch : ChanIdx) (v : Word)
  | setDirsetup (ch : ChanIdx) (v : Word)
  | setDirhold (ch : ChanIdx) (v : Word)
  | setStepType (ch : ChanIdx) (v : Word)
  | setPositionCmd (ch : ChanIdx) (v : F64)
  | setVelocityCmd (ch : ChanIdx) (v : F64)
  | setEnable (ch : ChanIdx) (v : Word)
  | setControlType (ch : ChanIdx) (v : Word)
  | hostRead (ch : ChanIdx) (sel : BitVec 8)
deriving DecidableEq, Repr, Inhabited

/-- The operation of a command. -/
def Instr.op : Instr → Op
  | .tramRead => .tramRead
  | .decode _ => .decode
  | .control _ _ => .control
  | .encode _ => .encode
  | .tramWrite => .tramWrite
  | .syncDirsetup _ => .syncDirsetup
  | .syncDirhold _ => .syncDirhold
  | .syncSteplen _ => .syncSteplen
  | .syncStepspace _ => .syncStepspace
  | .syncSteptype _ => .syncSteptype
  | .forcedResync => .forcedResync
  | .setPositionScale _ _ => .setPositionScale
  | .setMaxvel _ _ => .setMaxvel
  | .setMaxaccel _ _ => .setMaxaccel
  | .setSteplen _ _ => .setSteplen
  | .setStepspace _ _ => .setStepspace
  | .setDirsetup _ _ => .setDirsetup
  | .setDirhold _ _ => .setDirhold
  | .setStepType _ _ => .setStepType
  | .setPositionCmd _ _ => .setPositionCmd
  | .setVelocityCmd _ _ => .setVelocityCmd
  | .setEnable _ _ => .setEnable
  | .setControlType _ _ => .setControlType
  | .hostRead _ _ => .hostRead

/-- The channel index of a command, none in format G. -/
def Instr.chan? : Instr → Option ChanIdx
  | .tramRead | .tramWrite | .forcedResync => none
  | .decode ch | .control ch _ | .encode ch => some ch
  | .syncDirsetup ch | .syncDirhold ch | .syncSteplen ch | .syncStepspace ch
  | .syncSteptype ch => some ch
  | .setPositionScale ch _ | .setMaxvel ch _ | .setMaxaccel ch _ => some ch
  | .setSteplen ch _ | .setStepspace ch _ | .setDirsetup ch _ | .setDirhold ch _
  | .setStepType ch _ => some ch
  | .setPositionCmd ch _ | .setVelocityCmd ch _ => some ch
  | .setEnable ch _ | .setControlType ch _ => some ch
  | .hostRead ch _ => some ch

end Sys2Proof
end

