-- ==== Sys2Proof/Machine/State.lean ====
section
/-! DEFINITION. The state of the core: the ChannelGroup value of 10_state.md, what the two agents
run, and the outcomes of a step. Plain data. -/

namespace Sys2Proof.Machine

/-! ## What the group logs -/

/-- A transport event of `G.wlog` (10_state.md R32, 20_memory.md R82). Addresses are exact (log 16). -/
inductive Event where
  | write (addr : Nat) (v : Word)
  | batchWrite (l : List (Nat × Word))
  | batchRead (l : List (Nat × Word))
deriving DecidableEq, Repr

/-- The four duration fields of the timing manager (43_timing.md R211). -/
inductive DurField where
  | dirsetup
  | dirhold
  | steplen
  | stepspace
deriving DecidableEq, Repr, Inhabited

/-- The diagnostic codes 1 to 6 (60_exceptions.md R263). -/
inductive DiagCode where
  | scaleCorrected
  | maxaccelNegative
  | maxvelNegative
  | maxvelLimited
  | timingClamped
  | stepTypeInvalid
deriving DecidableEq, Repr, Inhabited

/-- A diagnostic record `Diag(code, channel, field)` (60_exceptions.md R262). -/
structure Diag where
  code    : DiagCode
  channel : Nat
  field   : Option DurField
deriving DecidableEq, Repr

/-- Why a command is refused (60_exceptions.md R270). -/
inductive RefuseReason where
  /-- An illegal word, the other agent's command or a cut-off payload (30_encoding.md R117, R125). -/
  | illegalCommand
  /-- `ch >= N` (60_exceptions.md R271). -/
  | channelRange
  /-- SET_ENABLE or SET_CONTROL_TYPE with a payload above 1 (R272). -/
  | badPayload
  /-- CONTROL with a period that is not finite and positive (41_controller.md R150). -/
  | badPeriod
deriving DecidableEq, Repr, Inhabited

/-- What HOST_READ returns: an f64, an i32's bits or a u32 (44_host.md R253, 10_state.md R58). -/
inductive HostValue where
  | f64 (v : F64)
  | i32 (v : Word)
  | u32 (v : Word)
deriving DecidableEq, Repr

/-! ## The channel record (10_state.md R35 to R54, table R58) -/

structure Channel where
  /-- `raw_acc` (R35) -/
  rawAcc             : Word
  /-- `prev_raw` (R36) -/
  prevRaw            : Word
  /-- `subcounts`, an i64 (R37) -/
  subcounts          : DWord
  /-- `counts`, an i32 (R38) -/
  counts             : Word
  /-- `position_fb` (R39) -/
  positionFb         : F64
  /-- `velocity_fb` (R40) -/
  velocityFb         : F64
  /-- `old_position_cmd` (R41) -/
  oldPositionCmd     : F64
  /-- `position_scale` (R42) -/
  positionScale      : F64
  /-- `maxvel` (R43) -/
  maxvel             : F64
  /-- `maxaccel` (R43) -/
  maxaccel           : F64
  /-- `steplen`, ns (R44) -/
  steplen            : Word
  /-- `stepspace`, ns (R44) -/
  stepspace          : Word
  /-- `dirsetup`, ns (R44) -/
  dirsetup           : Word
  /-- `dirhold`, ns (R44) -/
  dirhold            : Word
  /-- `step_type` (R45) -/
  stepType           : Word
  /-- `position_cmd` (R46) -/
  positionCmd        : F64
  /-- `velocity_cmd` (R46) -/
  velocityCmd        : F64
  /-- `enable` (R47), the Enabled or Disabled state of R55 -/
  enable             : Bool
  /-- `control_type` (R48) -/
  controlType        : ControlType
  /-- `dbg_ff_vel` (R49) -/
  dbgFfVel           : F64
  /-- `dbg_vel_error` (R49) -/
  dbgVelError        : F64
  /-- `dbg_s_to_match` (R49) -/
  dbgSToMatch        : F64
  /-- `dbg_err_at_match` (R49) -/
  dbgErrAtMatch      : F64
  /-- `dbg_pos_minus_prev_cmd` (R49) -/
  dbgPosMinusPrevCmd : F64
  /-- `dbg_step_rate`, an i32 (R49) -/
  dbgStepRate        : Word
  /-- `written_dirsetup`, none where unwritten (R50) -/
  writtenDirsetup    : Option Word
  /-- `written_dirhold` (R50) -/
  writtenDirhold     : Option Word
  /-- `written_steplen` (R50) -/
  writtenSteplen     : Option Word
  /-- `written_stepspace` (R50) -/
  writtenStepspace   : Option Word
  /-- `written_step_type` (R50) -/
  writtenStepType    : Option Word
  /-- `step_rate_reg` (R53) -/
  stepRateReg        : Word
  /-- `mode_reg`, none where unwritten (R54) -/
  modeReg            : Option Word
  /-- `dir_setup_reg` (R54) -/
  dirSetupReg        : Option Word
  /-- `dir_hold_reg` (R54) -/
  dirHoldReg         : Option Word
  /-- `pulse_width_reg` (R54) -/
  pulseWidthReg      : Option Word
  /-- `pulse_idle_width_reg` (R54) -/
  pulseIdleWidthReg  : Option Word
  /-- the model's own: how many step-rate registers of this channel were draws (log 8) -/
  rateDraws          : Nat
deriving DecidableEq, Repr, Inhabited

/-! ## The state -/

structure State where
  /-- `G.CLOCK_HZ`, `G.BASE`, `G.STRIDE` (10_state.md R30) -/
  cfg       : GroupConfig
  /-- `ch[0..N-1]`; its length is `G.N` (R30, log 15) -/
  channels  : List Channel
  /-- the RT agent's program counter (R31) -/
  pc        : Nat
  /-- the HOST agent's program counter (R31) -/
  hpc       : Nat
  /-- the RT agent's command list (30_encoding.md R125) -/
  rtList    : List Word
  /-- the HOST agent's command list (30_encoding.md R125) -/
  hostList  : List Word
  /-- entry `pc + hpc` names the agent that moves next (70_reset_and_hazards.md R309, log 3) -/
  schedule  : List Agent
  /-- `G.wlog`, oldest event first (R32) -/
  wlog      : List Event
  /-- `G.diag`, oldest record first (R33) -/
  diag      : List Diag
  /-- `G.refused`: none is the bit 0, some is the bit 1 with the reason reported (R34, log 5) -/
  refused   : Option RefuseReason
  /-- the oracle `ACC`: its answers not yet given (20_memory.md R84, log 6) -/
  acc       : List Word
  /-- the model's own: how many accumulator answers were free values (log 8) -/
  draws     : Nat
  /-- the model's own: what HOST_READ has returned, oldest first (44_host.md R253, log 11) -/
  hostReads : List HostValue
deriving DecidableEq, Repr

/-- `G.N` (10_state.md R30). -/
def State.n (s : State) : Nat := s.channels.length

/-! ## Why a step gives no next state -/

/-- Faults: there are none. "No command traps", and a step of this model never faults
(60_exceptions.md R260). -/
inductive Fault
deriving DecidableEq, Repr

/-- Refusals of a step, and of the creation of a group. -/
inductive Refusal where
  /-- Raised by `exec`'s arm of a command that has no meaning yet; no arm does. Safe. -/
  | notModelled (mnemonic : String)
  /-- Raised by `step` in a state whose `G.refused` is 1: a refused run "has no further step"
  (70_reset_and_hazards.md R309, 60_exceptions.md R270). Safe: it is the spec's own end. -/
  | runRefused (reason : RefuseReason)
  /-- Raised by `State.create` for a configuration that breaks 60_exceptions.md R268: "no channel
  group exists". No step raises it. Safe. -/
  | badConfiguration
deriving DecidableEq, Repr

/-! ## Creation and reset (70_reset_and_hazards.md R290 to R294) -/

/-- A channel at reset: its own state zero, shadows and caches unwritten, the rest from INIT, stored
as given (R292, R293). -/
def Channel.initial (c : ChannelInit) : Channel :=
  { rawAcc := 0#32, prevRaw := 0#32, subcounts := 0#64, counts := 0#32,
    positionFb := F64.zero false, velocityFb := F64.zero false, oldPositionCmd := F64.zero false,
    positionScale := c.positionScale, maxvel := c.maxvel, maxaccel := c.maxaccel,
    steplen := c.steplen, stepspace := c.stepspace, dirsetup := c.dirsetup, dirhold := c.dirhold,
    stepType := c.stepType, positionCmd := c.positionCmd, velocityCmd := c.velocityCmd,
    enable := c.enable, controlType := c.controlType,
    dbgFfVel := F64.zero false, dbgVelError := F64.zero false, dbgSToMatch := F64.zero false,
    dbgErrAtMatch := F64.zero false, dbgPosMinusPrevCmd := F64.zero false, dbgStepRate := 0#32,
    writtenDirsetup := none, writtenDirhold := none, writtenSteplen := none,
    writtenStepspace := none, writtenStepType := none,
    stepRateReg := 0#32, modeReg := none, dirSetupReg := none, dirHoldReg := none,
    pulseWidthReg := none, pulseIdleWidthReg := none,
    rateDraws := 0 }

/-- The group right after creation, with no command list, schedule or oracle answer supplied yet
(R291, R292; logs 2, 6, 8, 11). -/
def State.fresh (cfg : GroupConfig) (init : List ChannelInit) : State :=
  { cfg := cfg, channels := init.map Channel.initial, pc := 0, hpc := 0,
    rtList := [], hostList := [], schedule := [], wlog := [], diag := [], refused := none,
    acc := [], draws := 0, hostReads := [] }

/-- Creation of a channel group, refused where the configuration is (R290, 60_exceptions.md R268). -/
def State.create (cfg : GroupConfig) (init : List ChannelInit) :
    Host.Outcome State Fault Refusal :=
  if configOk cfg init.length then .next (State.fresh cfg init) else .refused .badConfiguration

/-- The machine right after reset: a group just created (R290), of the configuration and INIT that
log 1 names. -/
def State.reset : State := State.fresh resetConfig resetInit

end Sys2Proof.Machine
end

