-- ==== Sys2Proof/Machine/Ops.lean ====
section
/-! DEFINITION. The named operations over the state: the register map, the transport primitives,
what a command on one channel leaves, the two program counters, and refusing a command. -/

namespace Sys2Proof.Machine

/-- The outcome of a step or a command of this machine. -/
abbrev Result := Host.Outcome State Fault Refusal

/-! ## The device register map (30_encoding.md R100 to R106) -/

/-- The register kinds of R103; kinds 7 and 8 are never accessed and have no name here (R105). -/
inductive Kind where
  | stepRate | accumulator | mode | dirSetup | dirHold | pulseWidth | pulseIdleWidth | masterEnable
deriving DecidableEq, Repr, Inhabited

/-- The number k of a register kind (R103). -/
def Kind.num : Kind → Nat
  | .stepRate => 0
  | .accumulator => 1
  | .mode => 2
  | .dirSetup => 3
  | .dirHold => 4
  | .pulseWidth => 5
  | .pulseIdleWidth => 6
  | .masterEnable => 9

/-- `RegAddr(k, i) = BASE + k*STRIDE + 4*i`, computed exactly (R101). -/
def regAddr (cfg : GroupConfig) (k : Kind) (i : Nat) : Nat :=
  cfg.base.toNat + k.num * cfg.stride.toNat + 4 * i

/-- One value for the register of this kind of each channel, channels ascending (R101). -/
def batchEntries (cfg : GroupConfig) (k : Kind) (vs : List Word) : List (Nat × Word) :=
  vs.zipIdx.map (fun (v, i) => (regAddr cfg k i, v))

/-- `RegAddr(9, 0)`, the master-enable register (R106). -/
def masterEnableAddr (cfg : GroupConfig) : Nat := regAddr cfg .masterEnable 0

/-- The value the core writes to the master-enable register (R111). -/
def masterEnableValue : Word := 0xFFFFFFFF#32

/-! ## What a command on one channel leaves -/

/-- What a command does on its channel: the channel's new record, the diagnostics it reports, in
order (00_scope.md R18), and the transport events it makes, in order (20_memory.md R82). -/
structure ChanOut where
  chan   : Channel
  diags  : List Diag
  events : List Event
deriving DecidableEq, Repr

/-- A result without diagnostics and events. -/
def ChanOut.of (c : Channel) : ChanOut := { chan := c, diags := [], events := [] }

/-- `report` and transport events are appended, and the channel's record is written (R16 to R18). -/
def State.commit (i : Nat) (o : ChanOut) (s : State) : State :=
  { s with channels := s.channels.set i o.chan, diag := s.diag ++ o.diags,
           wlog := s.wlog ++ o.events }

/-- One event enters the history (20_memory.md R82). -/
def State.emit (e : Event) (s : State) : State := { s with wlog := s.wlog ++ [e] }

/-- `pc <- pc + 1` or `hpc <- hpc + 1`: what ends every command that is not refused
(00_scope.md R20). -/
def State.advance (a : Agent) (s : State) : State :=
  match a with
  | .rt   => { s with pc := s.pc + 1 }
  | .host => { s with hpc := s.hpc + 1 }

/-- HOST_READ's value goes to the HOST agent (44_host.md R253, log 11). -/
def State.giveHost (v : HostValue) (s : State) : State :=
  { s with hostReads := s.hostReads ++ [v] }

/-! ## Refusing a command: what stands here in place of taking an exception

There are no traps, and so no return from one (60_exceptions.md R260, R275). -/

/-- `refuse Reason`: `G.refused <- 1` and no other change, the counters not advanced
(60_exceptions.md R270). -/
def State.refuse (r : RefuseReason) (s : State) : State := { s with refused := some r }

/-! ## The DEV agent's answers (20_memory.md R84) -/

/-- The next `n` answers of the oracle: those given in `acc`, then free values (log 6). -/
def State.answers (n : Nat) (s : State) : List Word :=
  s.acc.take n ++ (List.range (n - s.acc.length)).map (fun j => Config.freeAcc (s.draws + j))

/-- The state whose oracle has given `n` answers. -/
def State.consume (n : Nat) (s : State) : State :=
  { s with acc := s.acc.drop n, draws := s.draws + (n - s.acc.length) }

end Sys2Proof.Machine
end

