-- ==== Sys2Proof/Machine/Flags.lean ====
section
/-! DEFINITION. The core has no condition codes. What stands in their place: the self-correcting
checks, each a corrected value and its diagnostic (60_exceptions.md R261 to R266), and the dirty
predicate of a timing field (10_state.md R56). -/

namespace Sys2Proof.Machine

/-- The number of a diagnostic code (60_exceptions.md R263). -/
def DiagCode.num : DiagCode → Nat
  | .scaleCorrected => 1
  | .maxaccelNegative => 2
  | .maxvelNegative => 3
  | .maxvelLimited => 4
  | .timingClamped => 5
  | .stepTypeInvalid => 6

/-- A diagnostic without a field (60_exceptions.md R262). -/
def diagOf (code : DiagCode) (i : Nat) : Diag := { code := code, channel := i, field := none }

/-- `fix_scale`: a scale of magnitude below 1e-6 becomes -1.0 where it is below 0, else +1.0, and is
reported (40_decoder.md R131). -/
def fixScale (i : Nat) (c : Channel) : Channel × List Diag :=
  if c.positionScale.abs.lt F64.micro then
    ({ c with positionScale := if c.positionScale.lt F64.zeroLit then F64.one.neg else F64.one },
      [diagOf .scaleCorrected i])
  else (c, [])

/-- `MaxaccelCheck`: a negative maxaccel becomes its magnitude and is reported
(41_controller.md R151). -/
def maxaccelCheck (i : Nat) (c : Channel) : Channel × List Diag :=
  if c.maxaccel.lt F64.zeroLit then
    ({ c with maxaccel := c.maxaccel.abs }, [diagOf .maxaccelNegative i])
  else (c, [])

/-- A negative maxvel becomes its magnitude and is reported (41_controller.md R169). -/
def maxvelSign (i : Nat) (c : Channel) : Channel × List Diag :=
  if c.maxvel.lt F64.zeroLit then
    ({ c with maxvel := c.maxvel.abs }, [diagOf .maxvelNegative i])
  else (c, [])

/-- A maxvel above the physical limit becomes that limit and is reported (41_controller.md R169). -/
def maxvelLimit (phys : F64) (i : Nat) (c : Channel) : Channel × List Diag :=
  if c.maxvel.gt phys then ({ c with maxvel := phys }, [diagOf .maxvelLimited i]) else (c, [])

/-- A parameter is dirty where its shadow does not equal it; an unwritten shadow equals nothing
(10_state.md R56). -/
def dirtyShadow (p : Word) (shadow : Option Word) : Bool := shadow != some p

end Sys2Proof.Machine
end

