-- ==== Sys2Proof/Machine/Operands.lean ====
section
/-! DEFINITION. The operand forms of the commands and the refusals they can end in: a channel, a
period, a bit-valued payload and a selector (30_encoding.md R113 to R117, 60_exceptions.md R271 to R273). -/

namespace Sys2Proof.Machine

/-- The channel of a command, none where `ch >= N` (60_exceptions.md R271). -/
def State.chan? (ch : ChanIdx) (s : State) : Option Channel := s.channels[ch.toNat]?

/-- A command on channel `ch`: refused with `CHANNEL_RANGE` where there is no such channel, else the
state that `k` makes of the index and the record (60_exceptions.md R271). -/
def onChannel (ch : ChanIdx) (s : State) (k : Nat → Channel → State) : Result :=
  match s.chan? ch with
  | none   => .next (s.refuse .channelRange)
  | some c => .next (k ch.toNat c)

/-- A command of agent `a` that writes its channel as `f` says, then ends (00_scope.md R20). -/
def chanCommand (a : Agent) (ch : ChanIdx) (s : State) (f : Nat → Channel → ChanOut) : Result :=
  onChannel ch s (fun i c => (s.commit i (f i c)).advance a)

/-- A HOST command that writes one item of its channel (44_host.md R241 to R250). -/
def hostSet (ch : ChanIdx) (s : State) (f : Channel → Channel) : Result :=
  chanCommand .host ch s (fun _ c => ChanOut.of (f c))

/-- A HOST command whose u32 payload is a bit: refused with `BAD_PAYLOAD` above 1, the channel
checked first (44_host.md R251, R252, 60_exceptions.md R272, R273). -/
def hostSetBit (ch : ChanIdx) (v : Word) (s : State) (f : Bool → Channel → Channel) : Result :=
  onChannel ch s (fun i c =>
    if 1 < v.toNat then s.refuse .badPayload
    else (s.commit i (ChanOut.of (f (v == 1#32) c))).advance .host)

/-- `T > 0.0 and T < +inf` (41_controller.md R150). -/
def periodOk (T : F64) : Bool := T.gt F64.zeroLit && T.lt (F64.inf false)

/-- The items HOST_READ names (30_encoding.md R116). -/
inductive Item where
  | positionFb | velocityFb | counts
  | dbgFfVel | dbgVelError | dbgSToMatch | dbgErrAtMatch | dbgStepRate | dbgPosMinusPrevCmd
  | positionScale | maxvel | maxaccel | steplen | stepspace | dirsetup | dirhold | stepType
deriving DecidableEq, Repr, Inhabited

/-- The item of a selector value, none above 16 (30_encoding.md R116, R117). -/
def itemOf (sel : Byte) : Option Item :=
  match sel.toNat with
  | 0 => some .positionFb
  | 1 => some .velocityFb
  | 2 => some .counts
  | 3 => some .dbgFfVel
  | 4 => some .dbgVelError
  | 5 => some .dbgSToMatch
  | 6 => some .dbgErrAtMatch
  | 7 => some .dbgStepRate
  | 8 => some .dbgPosMinusPrevCmd
  | 9 => some .positionScale
  | 10 => some .maxvel
  | 11 => some .maxaccel
  | 12 => some .steplen
  | 13 => some .stepspace
  | 14 => some .dirsetup
  | 15 => some .dirhold
  | 16 => some .stepType
  | _ => none

/-- The value of an item of a channel, with the type 10_state.md R58 gives it. -/
def Channel.item (c : Channel) : Item → HostValue
  | .positionFb => .f64 c.positionFb
  | .velocityFb => .f64 c.velocityFb
  | .counts => .i32 c.counts
  | .dbgFfVel => .f64 c.dbgFfVel
  | .dbgVelError => .f64 c.dbgVelError
  | .dbgSToMatch => .f64 c.dbgSToMatch
  | .dbgErrAtMatch => .f64 c.dbgErrAtMatch
  | .dbgStepRate => .i32 c.dbgStepRate
  | .dbgPosMinusPrevCmd => .f64 c.dbgPosMinusPrevCmd
  | .positionScale => .f64 c.positionScale
  | .maxvel => .f64 c.maxvel
  | .maxaccel => .f64 c.maxaccel
  | .steplen => .u32 c.steplen
  | .stepspace => .u32 c.stepspace
  | .dirsetup => .u32 c.dirsetup
  | .dirhold => .u32 c.dirhold
  | .stepType => .u32 c.stepType

end Sys2Proof.Machine
end

