-- ==== Sys2Proof/Machine/AccDecoder.lean ====
section
/-! DEFINITION. The AccumulatorDecoder: TRAM_READ and DECODE (40_decoder.md). -/

namespace Sys2Proof.Machine

/-! ## TRAM_READ -/

/-- Each channel's `raw_acc` takes its answer (R130). -/
def latchRaw (cs : List Channel) (vs : List Word) : List Channel :=
  List.zipWith (fun c v => { c with rawAcc := v }) cs vs

/-- The state after one batched read of every channel's accumulator (R130). -/
def tramReadState (s : State) : State :=
  let vs := s.answers s.n
  (({ s with channels := latchRaw s.channels vs }).emit
    (.batchRead (batchEntries s.cfg .accumulator vs))).consume s.n

/-- TRAM_READ (R130). -/
def execTramRead (s : State) : Result := .next ((tramReadState s).advance .rt)

/-! ## DECODE -/

/-- The displacement: the exact difference of the two counter values, moved by 2^32 where it is
outside the i32 range (R132). -/
def displacement (raw prev : Word) : Int :=
  let d : Int := (raw.toNat : Int) - (prev.toNat : Int)
  if 2 ^ 31 - 1 < d then d - 2 ^ 32
  else if d < -(2 ^ 31) then d + 2 ^ 32
  else d

/-- `swrap_64(subcounts + d)` (R132, R135). -/
def newSubcounts (c : Channel) : DWord :=
  BitVec.ofInt 64 (c.subcounts.toInt + displacement c.rawAcc c.prevRaw)

/-- `swrap_32(subcounts >> 16)`, the shift arithmetic (R132, R135). -/
def countsOf (sub : DWord) : Word := BitVec.ofInt 32 (sub.toInt / 2 ^ 16)

/-- `(f64(subcounts) / 65536.0) / position_scale` (R132, R136). -/
def positionOf (sub : DWord) (scale : F64) : F64 :=
  ((F64.ofInt sub.toInt).div F64.stepUnits).div scale

/-- DECODE's sub-steps after the scale check (R132). -/
def decodeRaw (c : Channel) : Channel :=
  let sub := newSubcounts c
  { c with subcounts := sub, prevRaw := c.rawAcc, counts := countsOf sub,
           positionFb := positionOf sub c.positionScale }

/-- What DECODE does on its channel (R132). -/
def decodeChan (i : Nat) (c : Channel) : ChanOut :=
  let f := fixScale i c
  { chan := decodeRaw f.1, diags := f.2, events := [] }

/-- DECODE (R132). -/
def execDecode (ch : ChanIdx) (s : State) : Result := chanCommand .rt ch s decodeChan

end Sys2Proof.Machine
end

