-- ==== Sys2Proof/Machine/Controller.lean ====
section
/-! DEFINITION. The VelocityPositionController: CONTROL (41_controller.md). Every expression is
grouped as its rule writes it (00_scope.md R14). -/

namespace Sys2Proof.Machine

/-! ## Position mode (R153 to R162) -/

/-- `ff` (R155). -/
def ffVel (pcmd old T : F64) : F64 := (pcmd.sub old).div T

/-- `ma`: it opposes `ve`, with the magnitude of the acceleration limit where there is one (R157). -/
def matchAccel (ve A T : F64) : F64 :=
  if ve.gt F64.zeroLit then
    (if A.feq F64.zeroLit then (ve.abs.div T).neg else A.neg)
  else if ve.lt F64.zeroLit then
    (if A.feq F64.zeroLit then ve.abs.div T else A)
  else F64.zeroLit

/-- `s`, the seconds to velocity match (R158). -/
def secondsToMatch (ve ma : F64) : F64 :=
  if ma.feq F64.zeroLit then F64.zeroLit else ve.neg.div ma

/-- `pam`, the position at match (R159). -/
def posAtMatch (pfb ff vfb s T : F64) : F64 :=
  pfb.add (((ff.add vfb).mul F64.half).mul (s.add T))

/-- `pcam`, the commanded position at match (R159). -/
def posCmdAtMatch (pcmd ff s : F64) : F64 := pcmd.add (ff.mul s)

/-- `clamp(v, vfb - A*T, vfb + A*T)` where A > 0, else v (R161, R165). -/
def accelClamp (v vfb A T : F64) : F64 :=
  if A.gt F64.zeroLit then v.clamp (vfb.sub (A.mul T)) (vfb.add (A.mul T)) else v

/-- The single-period branch (R161). -/
def singlePeriod (ff e vfb A T : F64) : F64 :=
  accelClamp (ff.sub ((F64.half.mul e).div T)) vfb A T

/-- `dp` (R162). -/
def multiDp (ma s T : F64) : F64 := ((F64.two.neg.mul ma).mul T).mul s

/-- `ma` after the flip of the multi-period branch (R162). -/
def flipAccel (ma s e T : F64) : F64 :=
  if (e.add (F64.two.mul (multiDp ma s T))).abs.lt e.abs then ma.neg else ma

/-- The multi-period branch (R162). -/
def multiPeriod (ma s e vfb T : F64) : F64 := vfb.add ((flipAccel ma s e T).mul T)

/-- The values of one position-mode period, from its inputs (R153 to R160). -/
structure Match where
  ff : F64
  ve : F64
  ma : F64
  s  : F64
  e  : F64
deriving DecidableEq, Repr

/-- R155 to R160 in order, on the inputs taken at the start (R153). -/
def matchOf (c : Channel) (T : F64) : Match :=
  let ff := ffVel c.positionCmd c.oldPositionCmd T
  let ve := c.velocityFb.sub ff
  let ma := matchAccel ve c.maxaccel T
  let s := secondsToMatch ve ma
  let e := (posAtMatch c.positionFb ff c.velocityFb s T).sub (posCmdAtMatch c.positionCmd ff s)
  { ff := ff, ve := ve, ma := ma, s := s, e := e }

/-- `new_vel` of position mode: the branch is chosen by `s < T` (R161 to R163). -/
def positionVel (c : Channel) (T : F64) : F64 :=
  let m := matchOf c T
  if m.s.lt T then singlePeriod m.ff m.e c.velocityFb c.maxaccel T
  else multiPeriod m.ma m.s m.e c.velocityFb T

/-- What position mode writes: the telemetry, and `old_position_cmd` (R154 to R160). -/
def positionTelemetry (c : Channel) (T : F64) : Channel :=
  let m := matchOf c T
  { c with dbgPosMinusPrevCmd := c.positionFb.sub c.oldPositionCmd,
           dbgFfVel := m.ff, oldPositionCmd := c.positionCmd, dbgVelError := m.ve,
           dbgSToMatch := m.s, dbgErrAtMatch := m.e }

/-! ## Velocity mode (R165) -/

def velocityVel (c : Channel) (T : F64) : F64 :=
  accelClamp c.velocityCmd c.velocityFb c.maxaccel T

/-! ## Mode dispatch (R150) -/

/-- `new_vel` of the selected mode (R150). -/
def newVel (c : Channel) (T : F64) : F64 :=
  match c.controlType with
  | .position => positionVel c T
  | .velocity => velocityVel c T

/-- What the selected mode writes before post-processing (R150, R166). -/
def modeWrites (c : Channel) (T : F64) : Channel :=
  match c.controlType with
  | .position => positionTelemetry c T
  | .velocity => c

/-! ## Post-processing (R167 to R172) -/

/-- `phys`, from the live timings and scale (R168). -/
def physLimit (c : Channel) : F64 :=
  (F64.giga.div (F64.ofNat (c.steplen.toNat + c.stepspace.toNat))).div c.positionScale.abs

/-- `lim` (R170). -/
def effLimit (maxvel phys : F64) : F64 := if maxvel.fne F64.zeroLit then maxvel else phys

/-- The channel and the diagnostics after the two maxvel corrections (R169). -/
def maxvelChecks (phys : F64) (i : Nat) (c : Channel) : Channel × List Diag :=
  let a := maxvelSign i c
  let b := maxvelLimit phys i a.1
  (b.1, a.2 ++ b.2)

/-- `velocity_fb <- clamp(new_vel, -lim, lim)` (R170 to R172). -/
def setVelocity (phys v : F64) (c : Channel) : Channel :=
  let lim := effLimit c.maxvel phys
  { c with velocityFb := v.clamp lim.neg lim }

/-- `PostProcess` (R167 to R172). -/
def postProcess (i : Nat) (v : F64) (c : Channel) : Channel × List Diag :=
  let a := fixScale i c
  let phys := physLimit a.1
  let b := maxvelChecks phys i a.1
  (setVelocity phys v b.1, a.2 ++ b.2)

/-! ## The command -/

/-- What CONTROL does on an enabled channel (R150). -/
def controlEnabled (T : F64) (i : Nat) (c : Channel) : ChanOut :=
  let a := maxaccelCheck i c
  let p := postProcess i (newVel a.1 T) (modeWrites a.1 T)
  { chan := p.1, diags := a.2 ++ p.2, events := [] }

/-- What CONTROL does on its channel: nothing where it is disabled (R150, R152). -/
def controlChan (T : F64) (i : Nat) (c : Channel) : ChanOut :=
  if c.enable then controlEnabled T i c else ChanOut.of c

/-- CONTROL: the channel is checked first, then the period (R150, 60_exceptions.md R273). -/
def execControl (ch : ChanIdx) (T : F64) (s : State) : Result :=
  onChannel ch s (fun i c =>
    if periodOk T then (s.commit i (controlChan T i c)).advance .rt else s.refuse .badPeriod)

end Sys2Proof.Machine
end

