-- ==== Sys2Proof/Machine/HostCommands.lean ====
section
/-! DEFINITION. The HOST agent's commands: SET_* and HOST_READ (44_host.md). The host sanitizes
nothing: each value is stored as given. -/

namespace Sys2Proof.Machine

/-- SET_POSITION_SCALE (R241). -/
def execSetPositionScale (ch : ChanIdx) (v : F64) (s : State) : Result :=
  hostSet ch s (fun c => { c with positionScale := v })

/-- SET_MAXVEL (R242). -/
def execSetMaxvel (ch : ChanIdx) (v : F64) (s : State) : Result :=
  hostSet ch s (fun c => { c with maxvel := v })

/-- SET_MAXACCEL (R243). -/
def execSetMaxaccel (ch : ChanIdx) (v : F64) (s : State) : Result :=
  hostSet ch s (fun c => { c with maxaccel := v })

/-- SET_STEPLEN (R244). -/
def execSetSteplen (ch : ChanIdx) (v : Word) (s : State) : Result :=
  hostSet ch s (fun c => { c with steplen := v })

/-- SET_STEPSPACE (R245). -/
def execSetStepspace (ch : ChanIdx) (v : Word) (s : State) : Result :=
  hostSet ch s (fun c => { c with stepspace := v })

/-- SET_DIRSETUP (R246). -/
def execSetDirsetup (ch : ChanIdx) (v : Word) (s : State) : Result :=
  hostSet ch s (fun c => { c with dirsetup := v })

/-- SET_DIRHOLD (R248). -/
def execSetDirhold (ch : ChanIdx) (v : Word) (s : State) : Result :=
  hostSet ch s (fun c => { c with dirhold := v })

/-- SET_STEP_TYPE (R247). -/
def execSetStepType (ch : ChanIdx) (v : Word) (s : State) : Result :=
  hostSet ch s (fun c => { c with stepType := v })

/-- SET_POSITION_CMD (R249). -/
def execSetPositionCmd (ch : ChanIdx) (v : F64) (s : State) : Result :=
  hostSet ch s (fun c => { c with positionCmd := v })

/-- SET_VELOCITY_CMD (R250). -/
def execSetVelocityCmd (ch : ChanIdx) (v : F64) (s : State) : Result :=
  hostSet ch s (fun c => { c with velocityCmd := v })

/-- SET_ENABLE (R251). -/
def execSetEnable (ch : ChanIdx) (v : Word) (s : State) : Result :=
  hostSetBit ch v s (fun b c => { c with enable := b })

/-- SET_CONTROL_TYPE: 0 selects Position and 1 selects Velocity (R252, 10_state.md R48). -/
def execSetControlType (ch : ChanIdx) (v : Word) (s : State) : Result :=
  hostSetBit ch v s (fun b c => { c with controlType := if b then .velocity else .position })

/-- HOST_READ: a selector above 16 is refused with `ILLEGAL_COMMAND`, before the channel is checked
(R253, 60_exceptions.md R273). -/
def execHostRead (ch : ChanIdx) (sel : Byte) (s : State) : Result :=
  match itemOf sel with
  | none => .next (s.refuse .illegalCommand)
  | some it => onChannel ch s (fun _ c => (s.giveHost (c.item it)).advance .host)

end Sys2Proof.Machine
end

