-- ==== Sys2Proof/Machine/RateEncoder.lean ====
section
/-! DEFINITION. The RateEncoder: ENCODE and TRAM_WRITE (42_encoder.md). -/

namespace Sys2Proof.Machine

/-! ## ENCODE -/

/-- `ph = (velocity_fb * position_scale) * (4294967296.0 / f64(CLOCK_HZ))` (R192, R193). -/
def phaseIncrement (cfg : GroupConfig) (c : Channel) : F64 :=
  (c.velocityFb.mul c.positionScale).mul (F64.phaseUnits.div (F64.ofNat cfg.clockHz.toNat))

/-- `ToReg32(ph)`: `wrap_32(trunc(ph))` where `ph` is finite, else the value drawn (R194). -/
def toReg32 (ph : F64) (drawn : Word) : Word :=
  if ph.isFinite then BitVec.ofInt 32 ph.trunc else drawn

/-- The channel with the register and its telemetry written (R190). -/
def writeRate (reg : Word) (c : Channel) : Channel :=
  { c with stepRateReg := reg, dbgStepRate := reg }

/-- The channel's count of draws after an increment: one more where it is not finite (R194, log 8). -/
def rateDrawsAfter (ph : F64) (c : Channel) : Nat :=
  if ph.isFinite then c.rateDraws else c.rateDraws + 1

/-- ENCODE on an enabled channel: a phase increment that is not finite takes the channel's next draw
for its register (R190 to R194). -/
def encodeEnabled (cfg : GroupConfig) (i : Nat) (c : Channel) : ChanOut :=
  let f := fixScale i c
  let ph := phaseIncrement cfg f.1
  { chan := { writeRate (toReg32 ph (Config.freeStepRate i c.rateDraws)) f.1 with
      rateDraws := rateDrawsAfter ph c },
    diags := f.2, events := [] }

/-- What ENCODE does on its channel: a disabled channel's register is forced to 0 (R190, R191). -/
def encodeChan (cfg : GroupConfig) (i : Nat) (c : Channel) : ChanOut :=
  if c.enable then encodeEnabled cfg i c else ChanOut.of { c with stepRateReg := 0#32 }

/-- ENCODE (R190). -/
def execEncode (ch : ChanIdx) (s : State) : Result := chanCommand .rt ch s (encodeChan s.cfg)

/-! ## TRAM_WRITE -/

/-- TRAM_WRITE: one batched write of every channel's step-rate register (R196). -/
def execTramWrite (s : State) : Result :=
  .next ((s.emit (.batchWrite
    (batchEntries s.cfg .stepRate (s.channels.map Channel.stepRateReg)))).advance .rt)

end Sys2Proof.Machine
end

