-- ==== Sys2Proof/Machine/Timing.lean ====
section
/-! DEFINITION. The TimingRegisterManager: the SYNC commands and FORCED_RESYNC (43_timing.md). -/

namespace Sys2Proof.Machine

/-! ## The fields (R211, 30_encoding.md R104) -/

/-- A timing field: a duration or the step type (R211). -/
inductive TimingField where
  | dur (f : DurField)
  | stepType
deriving DecidableEq, Repr, Inhabited

/-- The fields in the source's order (R211). -/
def TimingField.all : List TimingField :=
  [.dur .dirsetup, .dur .dirhold, .dur .steplen, .dur .stepspace, .stepType]

/-- The register kind of a field (R211). -/
def TimingField.kind : TimingField → Kind
  | .dur .dirsetup => .dirSetup
  | .dur .dirhold => .dirHold
  | .dur .steplen => .pulseWidth
  | .dur .stepspace => .pulseIdleWidth
  | .stepType => .mode

/-- The live parameter of a field. -/
def Channel.param (c : Channel) : TimingField → Word
  | .dur .dirsetup => c.dirsetup
  | .dur .dirhold => c.dirhold
  | .dur .steplen => c.steplen
  | .dur .stepspace => c.stepspace
  | .stepType => c.stepType

/-- The shadow of a field (10_state.md R50). -/
def Channel.shadow (c : Channel) : TimingField → Option Word
  | .dur .dirsetup => c.writtenDirsetup
  | .dur .dirhold => c.writtenDirhold
  | .dur .steplen => c.writtenSteplen
  | .dur .stepspace => c.writtenStepspace
  | .stepType => c.writtenStepType

/-- The cache register of a field (10_state.md R54). -/
def Channel.cache (c : Channel) : TimingField → Option Word
  | .dur .dirsetup => c.dirSetupReg
  | .dur .dirhold => c.dirHoldReg
  | .dur .steplen => c.pulseWidthReg
  | .dur .stepspace => c.pulseIdleWidthReg
  | .stepType => c.modeReg

/-- The channel with a field's parameter and shadow at `p` and its cache register at `reg`
(R215 to R217). -/
def Channel.commitField (c : Channel) (F : TimingField) (p reg : Word) : Channel :=
  match F with
  | .dur .dirsetup =>
    { c with dirsetup := p, writtenDirsetup := some p, dirSetupReg := some reg }
  | .dur .dirhold =>
    { c with dirhold := p, writtenDirhold := some p, dirHoldReg := some reg }
  | .dur .steplen =>
    { c with steplen := p, writtenSteplen := some p, pulseWidthReg := some reg }
  | .dur .stepspace =>
    { c with stepspace := p, writtenStepspace := some p, pulseIdleWidthReg := some reg }
  | .stepType =>
    { c with stepType := p, writtenStepType := some p, modeReg := some reg }

/-! ## The register value and the corrected parameter (R214 to R216) -/

/-- What a parameter becomes: its corrected value, the register value, and the diagnostic. -/
structure Transformed where
  param : Word
  reg   : Word
  diag  : Option Diag
deriving DecidableEq, Repr

/-- `x = round_half_away((f64(p) * f64(CLOCK_HZ)) / 1e9)` (R214). -/
def durationUnits (cfg : GroupConfig) (p : Word) : F64 :=
  (((F64.ofNat p.toNat).mul (F64.ofNat cfg.clockHz.toNat)).div F64.giga).roundHalfAway

/-- The parameter back-computed for a clamped register (R215). -/
def backComputed (cfg : GroupConfig) : Word :=
  BitVec.ofInt 32 ((F64.timingMax.mul F64.giga).div (F64.ofNat cfg.clockHz.toNat)).trunc

/-- The duration transform with its clamp (R214, R215). -/
def transformDuration (cfg : GroupConfig) (f : DurField) (i : Nat) (p : Word) : Transformed :=
  let x := durationUnits cfg p
  if x.gt F64.timingMax then
    { param := backComputed cfg, reg := BitVec.ofInt 32 F64.timingMax.trunc,
      diag := some { code := .timingClamped, channel := i, field := some f } }
  else { param := p, reg := BitVec.ofInt 32 x.trunc, diag := none }

/-- The step-type validation (R216). -/
def validateStepType (i : Nat) (p : Word) : Transformed :=
  if 2 < p.toNat then { param := 0#32, reg := 0#32, diag := some (diagOf .stepTypeInvalid i) }
  else { param := p, reg := p, diag := none }

/-- R214 to R216 for a field. -/
def transform (cfg : GroupConfig) (F : TimingField) (i : Nat) (p : Word) : Transformed :=
  match F with
  | .dur f => transformDuration cfg f i p
  | .stepType => validateStepType i p

/-! ## SyncField (R213 to R217) -/

/-- A field is dirty (10_state.md R56). -/
def Channel.dirty (c : Channel) (F : TimingField) : Bool := dirtyShadow (c.param F) (c.shadow F)

/-- The write that `SyncField` makes, its result `Some((address, value))`, or `None` (R217). -/
def syncResult (cfg : GroupConfig) (F : TimingField) (force : Bool) (i : Nat) (c : Channel) :
    Option (Nat × Word) :=
  if force || c.dirty F then
    some (regAddr cfg F.kind i, (transform cfg F i (c.param F)).reg)
  else none

/-- `SyncField(F, i, force)` (R213 to R217). -/
def syncField (cfg : GroupConfig) (F : TimingField) (force : Bool) (i : Nat) (c : Channel) :
    ChanOut :=
  if force || c.dirty F then
    let t := transform cfg F i (c.param F)
    { chan := c.commitField F t.param t.reg, diags := t.diag.toList,
      events := [.write (regAddr cfg F.kind i) t.reg] }
  else ChanOut.of c

/-- A SYNC command of a field (R218 to R222). -/
def syncCommand (F : TimingField) (ch : ChanIdx) (s : State) : Result :=
  chanCommand .rt ch s (syncField s.cfg F false)

/-- SYNC_DIRSETUP (R218). -/
def execSyncDirsetup (ch : ChanIdx) (s : State) : Result := syncCommand (.dur .dirsetup) ch s

/-- SYNC_DIRHOLD (R219). -/
def execSyncDirhold (ch : ChanIdx) (s : State) : Result := syncCommand (.dur .dirhold) ch s

/-- SYNC_STEPLEN (R220). -/
def execSyncSteplen (ch : ChanIdx) (s : State) : Result := syncCommand (.dur .steplen) ch s

/-- SYNC_STEPSPACE (R221). -/
def execSyncStepspace (ch : ChanIdx) (s : State) : Result := syncCommand (.dur .stepspace) ch s

/-- SYNC_STEPTYPE (R222). -/
def execSyncSteptype (ch : ChanIdx) (s : State) : Result := syncCommand .stepType ch s

/-! ## FORCED_RESYNC (R224, R225) -/

/-- One output after another on the same channel: the first one's logs come first. -/
def ChanOut.andThen (o : ChanOut) (f : Channel → ChanOut) : ChanOut :=
  let p := f o.chan
  { chan := p.chan, diags := o.diags ++ p.diags, events := o.events ++ p.events }

/-- The unconditional sync of these fields of one channel, in order (R212, R224). -/
def resyncFields (cfg : GroupConfig) (i : Nat) : List TimingField → Channel → ChanOut
  | [], c => ChanOut.of c
  | F :: Fs, c => (syncField cfg F true i c).andThen (resyncFields cfg i Fs)

/-- The unconditional sync of one channel (R224). -/
def resyncChan (cfg : GroupConfig) (i : Nat) (c : Channel) : ChanOut :=
  resyncFields cfg i TimingField.all c

/-- The unconditional sync of every channel from index `i` on, channels ascending (R212, R224). -/
def resyncFrom (cfg : GroupConfig) : Nat → List Channel → List ChanOut
  | _, [] => []
  | i, c :: cs => resyncChan cfg i c :: resyncFrom cfg (i + 1) cs

/-- `MasterEnableWrite()` (R225). -/
def State.masterEnable (s : State) : State :=
  s.emit (.write (masterEnableAddr s.cfg) masterEnableValue)

/-- The state after every channel's unconditional sync (R224). -/
def resyncState (s : State) : State :=
  let outs := resyncFrom s.cfg 0 s.channels
  { s with channels := outs.map ChanOut.chan, diag := s.diag ++ outs.flatMap ChanOut.diags,
           wlog := s.wlog ++ outs.flatMap ChanOut.events }

/-- FORCED_RESYNC (R224). -/
def execForcedResync (s : State) : Result := .next ((resyncState s).masterEnable.advance .rt)

end Sys2Proof.Machine
end

