-- ==== Sys2Proof/Machine/Dispatch.lean ====
section
/-! DEFINITION. One arm per command (30_encoding.md R114). -/

namespace Sys2Proof.Machine

def exec (i : Instr) (s : State) : Host.Outcome State Fault Refusal :=
  match i with
  -- the RT agent's commands
  | .tramRead => Sys2Proof.Machine.execTramRead s
  | .decode ch => Sys2Proof.Machine.execDecode ch s
  | .control ch T => Sys2Proof.Machine.execControl ch T s
  | .encode ch => Sys2Proof.Machine.execEncode ch s
  | .tramWrite => Sys2Proof.Machine.execTramWrite s
  | .syncDirsetup ch => Sys2Proof.Machine.execSyncDirsetup ch s
  | .syncDirhold ch => Sys2Proof.Machine.execSyncDirhold ch s
  | .syncSteplen ch => Sys2Proof.Machine.execSyncSteplen ch s
  | .syncStepspace ch => Sys2Proof.Machine.execSyncStepspace ch s
  | .syncSteptype ch => Sys2Proof.Machine.execSyncSteptype ch s
  | .forcedResync => Sys2Proof.Machine.execForcedResync s
  -- the HOST agent's commands
  | .setPositionScale ch v => Sys2Proof.Machine.execSetPositionScale ch v s
  | .setMaxvel ch v => Sys2Proof.Machine.execSetMaxvel ch v s
  | .setMaxaccel ch v => Sys2Proof.Machine.execSetMaxaccel ch v s
  | .setSteplen ch v => Sys2Proof.Machine.execSetSteplen ch v s
  | .setStepspace ch v => Sys2Proof.Machine.execSetStepspace ch v s
  | .setDirsetup ch v => Sys2Proof.Machine.execSetDirsetup ch v s
  | .setDirhold ch v => Sys2Proof.Machine.execSetDirhold ch v s
  | .setStepType ch v => Sys2Proof.Machine.execSetStepType ch v s
  | .setPositionCmd ch v => Sys2Proof.Machine.execSetPositionCmd ch v s
  | .setVelocityCmd ch v => Sys2Proof.Machine.execSetVelocityCmd ch v s
  | .setEnable ch v => Sys2Proof.Machine.execSetEnable ch v s
  | .setControlType ch v => Sys2Proof.Machine.execSetControlType ch v s
  | .hostRead ch sel => Sys2Proof.Machine.execHostRead ch sel s

end Sys2Proof.Machine
end

