-- ==== Sys2Proof/WellFormed.lean ====
section
/-! DEFINITION. The well-formed commands: those that some legal word encodes. Their operands are
typed, so the selector range is the one check left (30_encoding.md R116, R117). -/

namespace Sys2Proof

/-- HOST_READ's selector is one of 0 to 16; every other operand is admitted by its type. -/
def Instr.wellFormed : Instr → Bool
  | .hostRead _ sel => decide (sel.toNat ≤ 16)
  | .tramRead | .tramWrite | .forcedResync => true
  | .decode _ | .control _ _ | .encode _ => true
  | .syncDirsetup _ | .syncDirhold _ | .syncSteplen _ | .syncStepspace _ | .syncSteptype _ => true
  | .setPositionScale _ _ | .setMaxvel _ _ | .setMaxaccel _ _ => true
  | .setSteplen _ _ | .setStepspace _ _ | .setDirsetup _ _ | .setDirhold _ _ => true
  | .setStepType _ _ | .setPositionCmd _ _ | .setVelocityCmd _ _ => true
  | .setEnable _ _ | .setControlType _ _ => true

end Sys2Proof
end

