-- ==== Sys2Proof/Decode.lean ====
section
/-! DEFINITION. The command words of 30_encoding.md Part B: the decoder, total on every list of
words, rejecting by name, and the encoder written from the same table. -/

namespace Sys2Proof

/-! ## The opcode table (R114, R115) -/

/-- The operation code of an operation (R114). -/
def Op.code : Op → Byte
  | .tramRead         => 0x01#8
  | .decode           => 0x02#8
  | .control          => 0x03#8
  | .encode           => 0x04#8
  | .tramWrite        => 0x05#8
  | .syncDirsetup     => 0x10#8
  | .syncDirhold      => 0x11#8
  | .syncSteplen      => 0x12#8
  | .syncStepspace    => 0x13#8
  | .syncSteptype     => 0x14#8
  | .forcedResync     => 0x19#8
  | .setPositionScale => 0x20#8
  | .setMaxvel        => 0x21#8
  | .setMaxaccel      => 0x22#8
  | .setSteplen       => 0x23#8
  | .setStepspace     => 0x24#8
  | .setDirsetup      => 0x25#8
  | .setDirhold       => 0x26#8
  | .setStepType      => 0x27#8
  | .setPositionCmd   => 0x28#8
  | .setVelocityCmd   => 0x29#8
  | .setEnable        => 0x2A#8
  | .setControlType   => 0x2B#8
  | .hostRead         => 0x30#8

/-- Every operation of the table, in its order. -/
def Op.all : List Op :=
  [.tramRead, .decode, .control, .encode, .tramWrite,
   .syncDirsetup, .syncDirhold, .syncSteplen, .syncStepspace, .syncSteptype, .forcedResync,
   .setPositionScale, .setMaxvel, .setMaxaccel, .setSteplen, .setStepspace, .setDirsetup,
   .setDirhold, .setStepType, .setPositionCmd, .setVelocityCmd, .setEnable, .setControlType,
   .hostRead]

/-- The operation with this code, none for the unassigned codes (R117). -/
def Op.ofCode (b : Byte) : Option Op := Op.all.find? (fun o => o.code == b)

/-- The format of an operation (R114). -/
def Op.format : Op → Format
  | .tramRead | .tramWrite | .forcedResync => .g
  | .decode | .encode => .c
  | .syncDirsetup | .syncDirhold | .syncSteplen | .syncStepspace | .syncSteptype => .c
  | .control => .cf
  | .setPositionScale | .setMaxvel | .setMaxaccel | .setPositionCmd | .setVelocityCmd => .cf
  | .setSteplen | .setStepspace | .setDirsetup | .setDirhold | .setStepType => .cu
  | .setEnable | .setControlType => .cu
  | .hostRead => .cs

/-- The agent in whose list an operation may stand (R114, R125). -/
def Op.agent : Op → Agent
  | .tramRead | .decode | .control | .encode | .tramWrite => .rt
  | .syncDirsetup | .syncDirhold | .syncSteplen | .syncStepspace | .syncSteptype => .rt
  | .forcedResync => .rt
  | .setPositionScale | .setMaxvel | .setMaxaccel => .host
  | .setSteplen | .setStepspace | .setDirsetup | .setDirhold | .setStepType => .host
  | .setPositionCmd | .setVelocityCmd | .setEnable | .setControlType | .hostRead => .host

/-- The length of a command in words (R115). -/
def Format.words : Format → Nat
  | .g | .c | .cs => 1
  | .cu => 2
  | .cf => 3

/-! ## The fields of a command word (R113) -/

def opField (w : Word) : Byte := w.extractLsb' 24 8
def chField (w : Word) : ChanIdx := w.extractLsb' 8 16
def selField (w : Word) : Byte := w.extractLsb' 0 8

/-- The command word with these fields (R113). -/
def commandWord (op : Byte) (ch : ChanIdx) (sel : Byte) : Word := op ++ ch ++ sel

/-- The binary64 whose payload words are these, the low 32 bits first (R115). -/
def F64.ofWords (lo hi : Word) : F64 := F64.ofBits (hi ++ lo)

def F64.loWord (x : F64) : Word := x.toBits.extractLsb' 0 32
def F64.hiWord (x : F64) : Word := x.toBits.extractLsb' 32 32

/-! ## The decoder -/

/-- Why a list of words begins with no legal command (R117, R125). -/
inductive DecodeError where
  /-- There is no word at all: the list has ended. -/
  | noWord
  /-- `op` is not in the table. -/
  | unassignedOp
  /-- `ch` is not 0 in format G. -/
  | channelInFormatG
  /-- `sel` is not 0 outside format CS. -/
  | selectorOutsideCS
  /-- `sel` is above 16 in format CS. -/
  | selectorRange
  /-- The payload runs past the end of the list. -/
  | payloadCutOff
deriving DecidableEq, Repr, Inhabited

/-- The command of an operation whose operands are these: `f` is the binary64 payload, `u` the
u32 payload; a format that has none of an operand does not read it. -/
def Op.build (o : Op) (ch : ChanIdx) (sel : Byte) (f : F64) (u : Word) : Instr :=
  match o with
  | .tramRead         => .tramRead
  | .decode           => .decode ch
  | .control          => .control ch f
  | .encode           => .encode ch
  | .tramWrite        => .tramWrite
  | .syncDirsetup     => .syncDirsetup ch
  | .syncDirhold      => .syncDirhold ch
  | .syncSteplen      => .syncSteplen ch
  | .syncStepspace    => .syncStepspace ch
  | .syncSteptype     => .syncSteptype ch
  | .forcedResync     => .forcedResync
  | .setPositionScale => .setPositionScale ch f
  | .setMaxvel        => .setMaxvel ch f
  | .setMaxaccel      => .setMaxaccel ch f
  | .setSteplen       => .setSteplen ch u
  | .setStepspace     => .setStepspace ch u
  | .setDirsetup      => .setDirsetup ch u
  | .setDirhold       => .setDirhold ch u
  | .setStepType      => .setStepType ch u
  | .setPositionCmd   => .setPositionCmd ch f
  | .setVelocityCmd   => .setVelocityCmd ch f
  | .setEnable        => .setEnable ch u
  | .setControlType   => .setControlType ch u
  | .hostRead         => .hostRead ch sel

/-- What the fields of a legal command word of a format must be (R117). -/
def checkWord (fmt : Format) (w : Word) : Option DecodeError :=
  match fmt with
  | .g =>
    if chField w ≠ 0 then some .channelInFormatG
    else if selField w ≠ 0 then some .selectorOutsideCS else none
  | .cs => if 16 < (selField w).toNat then some .selectorRange else none
  | .c | .cf | .cu => if selField w ≠ 0 then some .selectorOutsideCS else none

/-- The payload of a format at the head of a list: its binary64, its u32 and the words after it,
none where the list ends first (R115, R125). A format reads 0 for an operand it has none of. -/
def takePayload (fmt : Format) (ws : List Word) : Option (F64 × Word × List Word) :=
  match fmt, ws with
  | .g, ws | .c, ws | .cs, ws => some (F64.ofBits 0#64, 0#32, ws)
  | .cu, u :: ws => some (F64.ofBits 0#64, u, ws)
  | .cf, lo :: hi :: ws => some (F64.ofWords lo hi, 0#32, ws)
  | .cu, [] | .cf, [] | .cf, [_] => none

/-- The command at the head of a list of words and the words after it, or why there is none. -/
def decode : List Word → Except DecodeError (Instr × List Word)
  | [] => .error .noWord
  | w :: rest =>
    match Op.ofCode (opField w) with
    | none => .error .unassignedOp
    | some o =>
      match checkWord o.format w with
      | some e => .error e
      | none =>
        match takePayload o.format rest with
        | none => .error .payloadCutOff
        | some (f, u, ws) => .ok (o.build (chField w) (selField w) f u, ws)

/-! ## The encoder -/

/-- The words of a command, from the same table (R113 to R116). -/
def encode : Instr → List Word
  | .tramRead               => [commandWord 0x01#8 0 0]
  | .decode ch              => [commandWord 0x02#8 ch 0]
  | .control ch T           => [commandWord 0x03#8 ch 0, T.loWord, T.hiWord]
  | .encode ch              => [commandWord 0x04#8 ch 0]
  | .tramWrite              => [commandWord 0x05#8 0 0]
  | .syncDirsetup ch        => [commandWord 0x10#8 ch 0]
  | .syncDirhold ch         => [commandWord 0x11#8 ch 0]
  | .syncSteplen ch         => [commandWord 0x12#8 ch 0]
  | .syncStepspace ch       => [commandWord 0x13#8 ch 0]
  | .syncSteptype ch        => [commandWord 0x14#8 ch 0]
  | .forcedResync           => [commandWord 0x19#8 0 0]
  | .setPositionScale ch v  => [commandWord 0x20#8 ch 0, v.loWord, v.hiWord]
  | .setMaxvel ch v         => [commandWord 0x21#8 ch 0, v.loWord, v.hiWord]
  | .setMaxaccel ch v       => [commandWord 0x22#8 ch 0, v.loWord, v.hiWord]
  | .setSteplen ch v        => [commandWord 0x23#8 ch 0, v]
  | .setStepspace ch v      => [commandWord 0x24#8 ch 0, v]
  | .setDirsetup ch v       => [commandWord 0x25#8 ch 0, v]
  | .setDirhold ch v        => [commandWord 0x26#8 ch 0, v]
  | .setStepType ch v       => [commandWord 0x27#8 ch 0, v]
  | .setPositionCmd ch v    => [commandWord 0x28#8 ch 0, v.loWord, v.hiWord]
  | .setVelocityCmd ch v    => [commandWord 0x29#8 ch 0, v.loWord, v.hiWord]
  | .setEnable ch v         => [commandWord 0x2A#8 ch 0, v]
  | .setControlType ch v    => [commandWord 0x2B#8 ch 0, v]
  | .hostRead ch sel        => [commandWord 0x30#8 ch sel]

/-! ## The host's numbering of an instruction's bits -/

/-- The three words of an instruction whose bits are `w`, bit 0 the lowest bit of the first word,
all bits from `nbits` on 0. -/
def tableWords (nbits w : Nat) : List Word :=
  let b : BitVec 96 := BitVec.ofNat 96 (w % 2 ^ nbits)
  [b.extractLsb' 0 32, b.extractLsb' 32 32, b.extractLsb' 64 32]

/-- The command the decoder reads from those words. -/
def decodeTableWord (nbits w : Nat) : Option Instr :=
  match decode (tableWords nbits w) with
  | .ok (i, _) => some i
  | .error _ => none

end Sys2Proof
end

