-- ==== Sys2Proof/Machine/Fetch.lean ====
section
/-! DEFINITION. Which agent moves next and what its next command is (30_encoding.md R125,
70_reset_and_hazards.md R309). -/

namespace Sys2Proof.Machine

/-! ## A command list and its counter -/

/-- The length in words that a command beginning with this word has (R115); an unassigned `op` is
given 1, which no run reads, because the run stops there (log 13). -/
def wordsAt (w : Word) : Nat :=
  match Op.ofCode (opField w) with
  | some o => o.format.words
  | none => 1

/-- What is left of a list after `n` commands: `pc` counts commands, not words (R125). -/
def afterCommands : Nat → List Word → List Word
  | 0, ws => ws
  | _ + 1, [] => []
  | n + 1, w :: ws => afterCommands n (ws.drop (wordsAt w - 1))

/-- How many commands a list holds, a last one that is cut off counted too. -/
def commandCount (ws : List Word) : Nat := go ws.length ws
where
  /-- On fuel: a list has at most as many commands as words. -/
  go : Nat → List Word → Nat
  | 0, _ => 0
  | _ + 1, [] => 0
  | n + 1, w :: ws => go n (ws.drop (wordsAt w - 1)) + 1

/-- An agent's command list. -/
def State.list (a : Agent) (s : State) : List Word :=
  match a with
  | .rt => s.rtList
  | .host => s.hostList

/-- An agent's program counter (60_exceptions.md R276). -/
def State.counter (a : Agent) (s : State) : Nat :=
  match a with
  | .rt => s.pc
  | .host => s.hpc

/-- The words of an agent's list from its next command on. -/
def State.ahead (a : Agent) (s : State) : List Word := afterCommands (s.counter a) (s.list a)

/-! ## The schedule -/

/-- The agent that is not this one. -/
def otherAgent : Agent → Agent
  | .rt => .host
  | .host => .rt

/-- The agent the schedule names for this step; past its end the RT agent (log 3). -/
def State.scheduled (s : State) : Agent := s.schedule.getD (s.pc + s.hpc) .rt

/-- The agent that moves: the scheduled one if it has a command left, else the other if it has one,
else none (R309, log 3). -/
def State.mover (s : State) : Option Agent :=
  let a := s.scheduled
  if s.ahead a ≠ [] then some a
  else if s.ahead (otherAgent a) ≠ [] then some (otherAgent a)
  else none

/-! ## Fetch -/

/-- What a step finds to do. -/
inductive Fetched where
  /-- Both lists have ended. -/
  | idle
  /-- The next command is illegal (R117, R125). -/
  | illegal
  /-- The next command. -/
  | run (i : Instr)
deriving DecidableEq, Repr

/-- The command at the head of an agent's words; the other agent's command is illegal (R125). -/
def fetchFrom (a : Agent) (ws : List Word) : Fetched :=
  match decode ws with
  | .error _ => .illegal
  | .ok (i, _) => if i.op.agent = a then .run i else .illegal

/-- What the next step does in a run that is not refused. -/
def fetch (s : State) : Fetched :=
  match s.mover with
  | none => .idle
  | some a => fetchFrom a (s.ahead a)

/-! ## Placing an instruction where the next step fetches it (log 2) -/

/-- The first `n` commands of a list, made up to `n` with TRAM_READ words where it has fewer. -/
def firstCommands : Nat → List Word → List Word
  | 0, _ => []
  | n + 1, [] => 0x01000000#32 :: firstCommands n []
  | n + 1, w :: ws =>
    w :: ((ws ++ [0#32, 0#32]).take (wordsAt w - 1) ++ firstCommands n (ws.drop (wordsAt w - 1)))

/-- The words of the instruction and of nothing after it. -/
def instructionWords (ws : List Word) : List Word :=
  match ws with
  | [] => []
  | w :: _ => ws.take (wordsAt w)

/-- The agent in whose list a word may stand; RT for a word that is no command. -/
def agentOfWords (ws : List Word) : Agent :=
  match decode ws with
  | .ok (i, _) => i.op.agent
  | .error _ => .rt

/-- The list with these words in place of command `n`. -/
def placeAt (n : Nat) (list ws : List Word) : List Word :=
  firstCommands n list ++ ws ++ afterCommands (n + 1) list

/-- The schedule with agent `a` at entry `n`. -/
def scheduleAt (n : Nat) (sched : List Agent) (a : Agent) : List Agent :=
  sched.take n ++ List.replicate (n - sched.length) .rt ++ a :: sched.drop (n + 1)

/-- The state in which the next step fetches the instruction with these words: they stand in its
agent's list at that agent's counter, the schedule names that agent, and the run is not refused. -/
def State.placeInstr (ws : List Word) (s : State) : State :=
  let a := agentOfWords ws
  let s' := { s with schedule := scheduleAt (s.pc + s.hpc) s.schedule a, refused := none }
  match a with
  | .rt => { s' with rtList := placeAt s.pc s.rtList (instructionWords ws) }
  | .host => { s' with hostList := placeAt s.hpc s.hostList (instructionWords ws) }

end Sys2Proof.Machine
end

