-- ==== Sys2Proof/Machine/Step.lean ====
section
/-! DEFINITION. One step of the machine: one command of one agent, indivisible (20_memory.md R93). -/

namespace Sys2Proof.Machine

/-- A refused run has no further step (60_exceptions.md R270). Where both lists have ended the state
is kept unchanged (60_exceptions.md R281, log 4). An illegal command is refused (30_encoding.md
R117, R125). Any other command runs. -/
def step (s : State) : Host.Outcome State Fault Refusal :=
  match s.refused with
  | some r => .refused (.runRefused r)
  | none =>
    match fetch s with
    | .idle => .next s
    | .illegal => .next (s.refuse .illegalCommand)
    | .run i => exec i s

/-- The instruction with these bits, placed where the next step fetches it (log 2). -/
def State.withFetchWord (s : State) (nbits w : Nat) : State := s.placeInstr (tableWords nbits w)

end Sys2Proof.Machine
end

