-- ==== Sys2Proof/Machine/Pseudo.lean ====
section
/-! DEFINITION. The pseudo-instructions: each is only its expansion (30_encoding.md R120 to R123). -/

namespace Sys2Proof.Machine

/-- Channels 0 to n-1 as the command word names them. -/
def allChannels (n : Nat) : List ChanIdx := (List.range n).map (BitVec.ofNat 16)

/-- PERIOD_READ of a group of `n` channels (R120). -/
def periodRead (n : Nat) : List Instr := .tramRead :: (allChannels n).map Instr.decode

/-- PERIOD_WRITE T of a group of `n` channels (R121). -/
def periodWrite (n : Nat) (T : F64) : List Instr :=
  (allChannels n).flatMap (fun ch => [.control ch T, .encode ch]) ++ [.tramWrite]

/-- The five SYNC commands of a channel, in the order of 43_timing.md R211. -/
def syncChannel (ch : ChanIdx) : List Instr :=
  [.syncDirsetup ch, .syncDirhold ch, .syncSteplen ch, .syncStepspace ch, .syncSteptype ch]

/-- SYNC_ALL of a group of `n` channels (R122). -/
def syncAll (n : Nat) : List Instr := (allChannels n).flatMap syncChannel

/-- The RT half of the period a caller is expected to run, without the host's writes between its
halves (R124). -/
def expectedPeriod (n : Nat) (T : F64) : List Instr := periodRead n ++ periodWrite n T ++ syncAll n

/-- The command list of these commands (R125). -/
def listOf (is : List Instr) : List Word := is.flatMap encode

end Sys2Proof.Machine
end

