-- ==== Sys2Proof/Machine/Assembler.lean ====
section
/-! DEFINITION. The assembler syntax (30_encoding.md R119): a line of text to the commands it stands
for. Blanks may stand around every part of a line (log 19). -/

namespace Sys2Proof.Machine

/-! ## Numbers -/

/-- The value of a digit in bases up to 16. -/
def digitOf (base : Nat) (c : Char) : Option Nat :=
  let v :=
    if '0' ≤ c ∧ c ≤ '9' then c.toNat - '0'.toNat
    else if 'a' ≤ c ∧ c ≤ 'f' then c.toNat - 'a'.toNat + 10
    else if 'A' ≤ c ∧ c ≤ 'F' then c.toNat - 'A'.toNat + 10
    else 16
  if v < base then some v else none

/-- A run of digits, which may be empty, continuing the number `acc`. -/
def digitsFrom (base : Nat) (acc : Nat) : List Char → Option Nat
  | [] => some acc
  | c :: cs =>
    match digitOf base c with
    | some d => digitsFrom base (acc * base + d) cs
    | none => none

/-- A natural number, with at least one digit. -/
def natural (base : Nat) (cs : List Char) : Option Nat :=
  if cs = [] then none else digitsFrom base 0 cs

/-- What follows a `0x` or `0X`, none where a text does not begin so. R119 writes `0x`, and C99 both;
taking `0X` for a u32 too is a DESIGN CHOICE (log 19). -/
def hexBody : List Char → Option (List Char)
  | '0' :: 'x' :: cs | '0' :: 'X' :: cs => some cs
  | _ => none

/-- A u32: a decimal or `0x` literal below 2^32 (R119), or a `0X` one (log 19). -/
def parseU32 (cs : List Char) : Option Word :=
  let n := match hexBody cs with
    | some h => natural 16 h
    | none => natural 10 cs
  n.bind (fun v => if v < 2 ^ 32 then some (BitVec.ofNat 32 v) else none)

/-- A sign, true for a minus, and the rest of the text: that an f64 literal may have one is a DESIGN
CHOICE (log 19). -/
def takeSign : List Char → Bool × List Char
  | '-' :: cs => (true, cs)
  | '+' :: cs => (false, cs)
  | cs => (false, cs)

/-- A signed decimal integer. -/
def parseInt (cs : List Char) : Option Int :=
  let (neg, ds) := takeSign cs
  (natural 10 ds).map (fun v => if neg then -(v : Int) else (v : Int))

/-- The text before the first of these characters and, where there is one, the text after it. -/
def cut (stops : List Char) : List Char → List Char × Option (List Char)
  | [] => ([], none)
  | c :: cs =>
    if c ∈ stops then ([], some cs)
    else
      let r := cut stops cs
      (c :: r.1, r.2)

/-- A mantissa with an optional point: its digits as a number, and how many stand after the point. -/
def parseMantissa (base : Nat) (cs : List Char) : Option (Nat × Nat) :=
  let r := cut ['.'] cs
  let frac := r.2.getD []
  if r.1 = [] ∧ frac = [] then none
  else (digitsFrom base 0 (r.1 ++ frac)).map (fun m => (m, frac.length))

/-- A decimal literal, read as the nearest binary64 (R119). -/
def parseDecimal (neg : Bool) (cs : List Char) : Option F64 :=
  let r := cut ['e', 'E'] cs
  let ex : Option Int := match r.2 with
    | some es => parseInt es
    | none => some 0
  (parseMantissa 10 r.1).bind (fun (m, k) => ex.map (fun e =>
    let p : Int := e - (k : Int)
    if m = 0 then F64.zero neg
    else if 0 ≤ p then F64.round neg (m * 10 ^ p.toNat) 0
    else F64.roundQuot neg m (10 ^ (-p).toNat) 0))

/-- A C99 hexadecimal float literal after its `0x`, read exactly: one that no binary64 holds is no
literal (R119). -/
def parseHexFloat (neg : Bool) (cs : List Char) : Option F64 :=
  let r := cut ['p', 'P'] cs
  (parseMantissa 16 r.1).bind (fun (m, k) => (r.2.bind parseInt).bind (fun e =>
    let p : Int := e - 4 * (k : Int)
    let x := F64.round neg m p
    let low : Int := min p x.expo
    if x.isFinite ∧ x.mant * 2 ^ (x.expo - low).toNat = m * 2 ^ (p - low).toNat then some x
    else none))

/-- An f64 value (R119). R119 names decimal and C99 hexadecimal literals only; that the texts `inf` and
`NaN`, which 95_test_vectors.md V-C24 and V-C25 use, are no literals is a DESIGN CHOICE (log 19). -/
def parseF64 (cs : List Char) : Option F64 :=
  let (neg, body) := takeSign cs
  match hexBody body with
  | some h => parseHexFloat neg h
  | none => parseDecimal neg body

/-! ## Lines -/

/-- The name of an operation in the opcode table (R114). -/
def Op.mnemonic : Op → List Char
  | .tramRead => "TRAM_READ".toList
  | .decode => "DECODE".toList
  | .control => "CONTROL".toList
  | .encode => "ENCODE".toList
  | .tramWrite => "TRAM_WRITE".toList
  | .syncDirsetup => "SYNC_DIRSETUP".toList
  | .syncDirhold => "SYNC_DIRHOLD".toList
  | .syncSteplen => "SYNC_STEPLEN".toList
  | .syncStepspace => "SYNC_STEPSPACE".toList
  | .syncSteptype => "SYNC_STEPTYPE".toList
  | .forcedResync => "FORCED_RESYNC".toList
  | .setPositionScale => "SET_POSITION_SCALE".toList
  | .setMaxvel => "SET_MAXVEL".toList
  | .setMaxaccel => "SET_MAXACCEL".toList
  | .setSteplen => "SET_STEPLEN".toList
  | .setStepspace => "SET_STEPSPACE".toList
  | .setDirsetup => "SET_DIRSETUP".toList
  | .setDirhold => "SET_DIRHOLD".toList
  | .setStepType => "SET_STEP_TYPE".toList
  | .setPositionCmd => "SET_POSITION_CMD".toList
  | .setVelocityCmd => "SET_VELOCITY_CMD".toList
  | .setEnable => "SET_ENABLE".toList
  | .setControlType => "SET_CONTROL_TYPE".toList
  | .hostRead => "HOST_READ".toList

/-- The selector names, in the order of their values (R116). -/
def itemNames : List (List Char) :=
  ["position_fb".toList, "velocity_fb".toList, "counts".toList, "dbg_ff_vel".toList,
   "dbg_vel_error".toList, "dbg_s_to_match".toList, "dbg_err_at_match".toList,
   "dbg_step_rate".toList, "dbg_pos_minus_prev_cmd".toList, "position_scale".toList,
   "maxvel".toList, "maxaccel".toList, "steplen".toList, "stepspace".toList, "dirsetup".toList,
   "dirhold".toList, "step_type".toList]

def isBlank (c : Char) : Bool := c == ' ' || c == '\t' || c == '\r' || c == '\n'

/-- A text without the blanks around it. -/
def trim (cs : List Char) : List Char :=
  ((cs.dropWhile isBlank).reverse.dropWhile isBlank).reverse

/-- A channel index: a number the `ch` field holds (R113). R119 does not say how `i` is written: a
decimal or `0x` literal as for a u32, below 65536, is a DESIGN CHOICE (log 19). -/
def parseChan (cs : List Char) : Option ChanIdx :=
  (parseU32 cs).bind (fun v => if v.toNat < 65536 then some (BitVec.ofNat 16 v.toNat) else none)

/-- The operands of a line: what stands after the mnemonic, cut at its commas. -/
def operands (cs : List Char) : List (List Char) :=
  match cut [','] cs with
  | (a, none) => if trim a = [] then [] else [trim a]
  | (a, some b) => [trim a, trim b]

/-- A command of this operation with these operands (R119). -/
def assembleOp (o : Op) (args : List (List Char)) : Option Instr :=
  let noF := F64.ofBits 0#64
  match o.format, args with
  | .g, [] => some (o.build 0#16 0#8 noF 0#32)
  | .c, [c] => (parseChan c).map (fun ch => o.build ch 0#8 noF 0#32)
  | .cf, [c, v] =>
    (parseChan c).bind (fun ch => (parseF64 v).map (fun x => o.build ch 0#8 x 0#32))
  | .cu, [c, v] =>
    (parseChan c).bind (fun ch => (parseU32 v).map (fun u => o.build ch 0#8 noF u))
  | .cs, [c, v] =>
    (parseChan c).bind (fun ch => (itemNames.idxOf? v).map (fun k =>
      o.build ch (BitVec.ofNat 8 k) noF 0#32))
  | _, _ => none

/-- The commands a line stands for, in a group of `n` channels: none of them for a blank line, the
expansion for a pseudo-instruction, no answer for a text that is no line (R119 to R123). -/
def assembleLine (n : Nat) (line : List Char) : Option (List Instr) :=
  let code := trim (cut [';'] line).1
  let word := code.takeWhile (fun c => !isBlank c)
  let args := operands (code.dropWhile (fun c => !isBlank c))
  if code = [] then some []
  else if word = "PERIOD_READ".toList then (if args = [] then some (periodRead n) else none)
  else if word = "SYNC_ALL".toList then (if args = [] then some (syncAll n) else none)
  else if word = "PERIOD_WRITE".toList then
    match args with
    | [v] => (parseF64 v).map (periodWrite n)
    | _ => none
  else
    match Op.all.find? (fun o => Op.mnemonic o == word) with
    | some o => (assembleOp o args).map (fun i => [i])
    | none => none

/-- The words of a line (R119, R125). -/
def assembleWords (n : Nat) (line : List Char) : Option (List Word) :=
  (assembleLine n line).map listOf

end Sys2Proof.Machine
end

