-- ==== Sys2Proof/Machine/Exact.lean ====
section
/-! DEFINITION. The exact value of a finite binary64 and what a correctly rounded result is
(00_scope.md R14). No command uses these: claims about the arithmetic are stated in them. -/

namespace Sys2Proof

/-- The exact value of a finite binary64. -/
def F64.val (x : F64) : ℚ :=
  (if x.sign then -1 else 1) * (x.mant : ℚ) * (2 : ℚ) ^ x.expo

/-- `r` is the finite binary64 value nearest to `v`, with an even last place where another finite
value is as near: round to nearest, ties to even (R14). -/
def F64.nearest (v : ℚ) (r : F64) : Prop :=
  r.isFinite = true ∧ ∀ y : F64, y.isFinite = true →
    |v - r.val| ≤ |v - y.val| ∧ (|v - r.val| = |v - y.val| → y.val = r.val ∨ r.mant % 2 = 0)

/-- The result of rounding `v` once: the nearest finite value, or an infinity of its sign where the
magnitude of `v` is half a last place or more past the largest finite value (R14). -/
def F64.rounded (v : ℚ) (r : F64) : Prop :=
  if |v| < ((2 : ℚ) ^ 54 - 1) * (2 : ℚ) ^ 970 then F64.nearest v r
  else r = F64.inf (decide (v < 0))

end Sys2Proof
end

