-- ==== Sys2Proof/Machine/Views.lean ====
section
/-! DEFINITION. Functions of the state that the spec names without holding them: the device register
image, the ended run, what the HOST can see (10_state.md section 8, 70_reset_and_hazards.md R309). -/

namespace Sys2Proof.Machine

/-! ## The device register image (10_state.md R57) -/

/-- The register writes of an event, in order. -/
def Event.writes : Event → List (Nat × Word)
  | .write a v => [(a, v)]
  | .batchWrite l => l
  | .batchRead _ => []

/-- Every register write of a history, in order. -/
def writesOf (log : List Event) : List (Nat × Word) := log.flatMap Event.writes

/-- The value of the last of these writes to address `a`, else `old`. -/
def lastWrite (a : Nat) (old : Option Word) (ws : List (Nat × Word)) : Option Word :=
  ws.foldl (fun v w => if w.1 = a then some w.2 else v) old

/-- `DevReg(a)`, none where it is unknown (R57). -/
def devReg (log : List Event) (a : Nat) : Option Word := lastWrite a none (writesOf log)

/-- The bytes a register value crosses the transport as: little-endian (20_memory.md R87). -/
def wordBytes (v : Word) : List Byte :=
  [v.extractLsb' 0 8, v.extractLsb' 8 8, v.extractLsb' 16 8, v.extractLsb' 24 8]

/-- One byte of the device register space, none where the core has not written its register. -/
def devByte (log : List Event) (a : Nat) : Option Byte :=
  (devReg log (a / 4 * 4)).bind (fun v => (wordBytes v)[a % 4]?)

/-- Every address an event accesses. -/
def Event.addrs : Event → List Nat
  | .write a _ => [a]
  | .batchWrite l => l.map Prod.fst
  | .batchRead l => l.map Prod.fst

/-! ## A field's shadow and register (10_state.md R51) -/

/-- The register holds the transform of the shadow: what R51 says of one field of one channel. -/
abbrev shadowHolds (cfg : GroupConfig) (F : TimingField) (i : Nat) (c : Channel) : Prop :=
  ∀ p ∈ c.shadow F, c.cache F = some (transform cfg F i p).reg

/-! ## The end of a run (70_reset_and_hazards.md R309) -/

/-- `pc` is the length of the RT list, `hpc` that of the HOST list, and `G.refused` is 0. -/
abbrev State.ended (s : State) : Prop :=
  s.pc = commandCount s.rtList ∧ s.hpc = commandCount s.hostList ∧ s.refused = none

end Sys2Proof.Machine
end

