-- ==== Sys2Proof/Safety.lean ====
section
/-! DEFINITION. What counts as a safe run: the named premises of 70_reset_and_hazards.md R312, and
the invariants of the machine that claims use. -/

namespace Sys2Proof.Machine

/-! ## Named premises (R312) -/

/-- `CONFIG_OK`: the configuration is one that creation accepts (60_exceptions.md R268). -/
abbrev State.configOk (s : State) : Prop := Sys2Proof.Machine.configOk s.cfg s.n

/-- `RESET_STATE`: the group is as creation leaves it (R291, R292); the lists, the schedule and the
oracle's answers are whatever the outside world supplies. -/
abbrev State.resetState (s : State) : Prop :=
  ∃ init : List ChannelInit, Sys2Proof.Machine.configOk s.cfg init.length ∧
    s = { State.fresh s.cfg init with
          rtList := s.rtList, hostList := s.hostList, schedule := s.schedule, acc := s.acc }

/-- `NOT_REFUSED` at one state (R309). -/
abbrev State.notRefused (s : State) : Prop := s.refused = none

/-- `WRAP_OK` of two consecutive accumulator reads of a channel, with the true displacement `d`
between them (R300). -/
abbrev wrapOk (first second : Word) (d : Int) : Prop :=
  -(2 ^ 31) < d ∧ d < 2 ^ 31 ∧ second = BitVec.ofInt 32 ((first.toNat : Int) + d)

/-- `HOST_QUIET` over the next `k` steps: the HOST agent makes none of them (R308). -/
def hostQuiet : Nat → State → Prop
  | 0, _ => True
  | k + 1, s => s.mover ≠ some .host ∧ ∀ t, step s = .next t → hostQuiet k t

/-- What `RESYNCED` says of the model: a FORCED_RESYNC has written the master enable (R305). That the
device has lost no register since is about the world outside it. -/
abbrev State.resynced (s : State) : Prop :=
  Event.write (masterEnableAddr s.cfg) masterEnableValue ∈ s.wlog

/-! ## A safe run -/

/-- The next `k` steps all lead on, and no command among them is refused. -/
def safeRun : Nat → State → Prop
  | 0, s => s.notRefused
  | k + 1, s => s.notRefused ∧ ∃ t, step s = .next t ∧ safeRun k t

/-! ## What claims compute from a command -/

/-- Why a command is refused in a group of `n` channels, none where it is not: the first reason that
applies, in the order of 60_exceptions.md R273. -/
def refusalOf (n : Nat) : Instr → Option RefuseReason
  | .tramRead | .tramWrite | .forcedResync => none
  | .hostRead ch sel =>
    if 16 < sel.toNat then some .illegalCommand
    else if n ≤ ch.toNat then some .channelRange else none
  | .setEnable ch v | .setControlType ch v =>
    if n ≤ ch.toNat then some .channelRange
    else if 1 < v.toNat then some .badPayload else none
  | .control ch T =>
    if n ≤ ch.toNat then some .channelRange
    else if T.isFinite && !T.sign && !T.isZero then none else some .badPeriod
  | .decode ch | .encode ch => if n ≤ ch.toNat then some .channelRange else none
  | .syncDirsetup ch | .syncDirhold ch | .syncSteplen ch | .syncStepspace ch | .syncSteptype ch =>
    if n ≤ ch.toNat then some .channelRange else none
  | .setPositionScale ch _ | .setMaxvel ch _ | .setMaxaccel ch _ =>
    if n ≤ ch.toNat then some .channelRange else none
  | .setSteplen ch _ | .setStepspace ch _ | .setDirsetup ch _ | .setDirhold ch _
  | .setStepType ch _ => if n ≤ ch.toNat then some .channelRange else none
  | .setPositionCmd ch _ | .setVelocityCmd ch _ =>
    if n ≤ ch.toNat then some .channelRange else none

/-- The SYNC command of a field (43_timing.md R218 to R222). -/
def syncInstr : TimingField → ChanIdx → Instr
  | .dur .dirsetup => .syncDirsetup
  | .dur .dirhold => .syncDirhold
  | .dur .steplen => .syncSteplen
  | .dur .stepspace => .syncStepspace
  | .stepType => .syncSteptype

/-- The parameter and the register value that a sync leaves, in exact integers: a duration of `p` ns
is the nearest number of clock periods, half of one rounding up, and the parameter of a clamped one
is the truncated quotient (43_timing.md R214 to R216, R226). -/
def exactTiming (clock : Nat) (F : TimingField) (p : Nat) : Nat × Nat :=
  match F with
  | .dur _ =>
    let x := (2 * (p * clock) + 10 ^ 9) / (2 * 10 ^ 9)
    if x ≤ 16383 then (p, x) else (16383 * 10 ^ 9 / clock, 16383)
  | .stepType => if p ≤ 2 then (p, p) else (0, 0)

/-- What a sync of a field with parameter `p` reports (43_timing.md R215, R216). -/
def exactReport (clock : Nat) (F : TimingField) (i p : Nat) : List Diag :=
  match F with
  | .dur f =>
    if 16383 < (2 * (p * clock) + 10 ^ 9) / (2 * 10 ^ 9) then [⟨.timingClamped, i, some f⟩] else []
  | .stepType => if 2 < p then [⟨.stepTypeInvalid, i, none⟩] else []

/-- The addresses of the registers that a command may write in this state
(30_encoding.md R103, R106). -/
def storedAt (i : Instr) (s : State) : List Nat :=
  match i with
  | .tramWrite => (List.range s.n).map (regAddr s.cfg .stepRate)
  | .forcedResync =>
    masterEnableAddr s.cfg ::
      (List.range s.n).flatMap (fun j => TimingField.all.map (fun F => regAddr s.cfg F.kind j))
  | .syncDirsetup ch => [regAddr s.cfg .dirSetup ch.toNat]
  | .syncDirhold ch => [regAddr s.cfg .dirHold ch.toNat]
  | .syncSteplen ch => [regAddr s.cfg .pulseWidth ch.toNat]
  | .syncStepspace ch => [regAddr s.cfg .pulseIdleWidth ch.toNat]
  | .syncSteptype ch => [regAddr s.cfg .mode ch.toNat]
  | .tramRead | .decode _ | .control _ _ | .encode _ => []
  | .setPositionScale _ _ | .setMaxvel _ _ | .setMaxaccel _ _ => []
  | .setSteplen _ _ | .setStepspace _ _ | .setDirsetup _ _ | .setDirhold _ _ => []
  | .setStepType _ _ | .setPositionCmd _ _ | .setVelocityCmd _ _ => []
  | .setEnable _ _ | .setControlType _ _ | .hostRead _ _ => []

/-! ## Invariants -/

/-- A channel's shadows and cache registers: both written or neither, the cache at most 0x3FFF
(10_state.md R54), the mode register a step type (30_encoding.md R110). -/
abbrev Channel.cacheInv (c : Channel) : Prop :=
  ∀ F : TimingField,
    ((c.shadow F).isSome = (c.cache F).isSome) ∧
    (∀ r ∈ c.cache F, r.toNat ≤ 0x3FFF) ∧
    (F = .stepType → ∀ r ∈ c.cache F, r.toNat ≤ 2)

/-- Every channel's caches are in order. -/
abbrev State.cacheInv (s : State) : Prop := ∀ c ∈ s.channels, c.cacheInv

/-- An event of the core, in a group of `n` channels: an access of R103's table with a value its
format allows (30_encoding.md R103, R109 to R111, 20_memory.md R83, R90). -/
abbrev eventOk (cfg : GroupConfig) (n : Nat) (e : Event) : Prop :=
  match e with
  | .batchRead l => l.map Prod.fst = (List.range n).map (regAddr cfg .accumulator)
  | .batchWrite l => l.map Prod.fst = (List.range n).map (regAddr cfg .stepRate)
  | .write a v =>
    (a = masterEnableAddr cfg ∧ v = masterEnableValue) ∨
    (∃ F : TimingField, ∃ i, i < n ∧ a = regAddr cfg F.kind i ∧ v.toNat ≤ 0x3FFF ∧
      (F = .stepType → v.toNat ≤ 2))

/-- Every event of the history is one of the core's (20_memory.md R90). -/
abbrev State.logInv (s : State) : Prop := ∀ e ∈ s.wlog, eventOk s.cfg s.n e

/-- Every diagnostic names a channel, and a field exactly where it is TIMING_CLAMPED
(60_exceptions.md R262). -/
abbrev State.diagInv (s : State) : Prop :=
  ∀ d ∈ s.diag, d.channel < s.n ∧ (d.field.isSome = true ↔ d.code = .timingClamped)

/-- Every cache register holds the value last sent to its device register (10_state.md R54). -/
abbrev State.deviceInv (s : State) : Prop :=
  ∀ (i : Nat) (c : Channel) (F : TimingField), s.channels[i]? = some c →
    devReg s.wlog (regAddr s.cfg F.kind i) = c.cache F

/-- Every field's register equals the transform of its shadow (10_state.md R51). -/
abbrev State.shadowInv (s : State) : Prop :=
  ∀ (i : Nat) (c : Channel) (F : TimingField), s.channels[i]? = some c → shadowHolds s.cfg F i c

end Sys2Proof.Machine
end

