-- ==== Sys2Proof/Certificates/Slice0/Obligations.lean ====
section
/-! DEFINITION. The statements for the provers, each a proposition about the machine that a numbered
rule of spec/ makes. -/

open Sys2Proof Sys2Proof.Machine

/-! ## Encoding -/

/-- Every well-formed command is what its words decode to, whatever words follow
(30_encoding.md R113 to R116). -/
def Obligations.DecodeOfEncode : Prop :=
  ∀ (i : Instr) (rest : List Word), i.wellFormed = true →
    Sys2Proof.decode (Sys2Proof.encode i ++ rest) = .ok (i, rest)

/-- What the decoder accepts is the words of a well-formed command and no others (R113 to R117). -/
def Obligations.EncodeOfDecode : Prop :=
  ∀ (ws rest : List Word) (i : Instr), Sys2Proof.decode ws = .ok (i, rest) →
    i.wellFormed = true ∧ ws = Sys2Proof.encode i ++ rest

/-- The legal words are those of R117, and a payload must fit in the list (R125); the unassigned
opcodes are those R117 lists. -/
def Obligations.LegalWordsAreThoseOfTheTable : Prop :=
  ∀ (w : Word) (rest : List Word),
    ((∃ (i : Instr) (r : List Word), Sys2Proof.decode (w :: rest) = .ok (i, r)) ↔
      ∃ o : Op, w.toNat / 2 ^ 24 = o.code.toNat ∧
        (o.format = .g → w.toNat / 2 ^ 8 % 2 ^ 16 = 0) ∧
        (o.format ≠ .cs → w.toNat % 2 ^ 8 = 0) ∧
        (o.format = .cs → w.toNat % 2 ^ 8 ≤ 16) ∧
        o.format.words ≤ rest.length + 1) ∧
    (Sys2Proof.decode (w :: rest) = .error .unassignedOp ↔
      (let op := w.toNat / 2 ^ 24
       op = 0 ∨ (6 ≤ op ∧ op ≤ 0x0F) ∨ (0x15 ≤ op ∧ op ≤ 0x18) ∨ (0x1A ≤ op ∧ op ≤ 0x1F) ∨
         (0x2C ≤ op ∧ op ≤ 0x2F) ∨ 0x31 ≤ op))

/-- A few words decode to their commands, and a few lines assemble to their words (R114, R119). -/
def Obligations.SampleWordsAndLines : Prop :=
  Sys2Proof.decode [0x01000000#32] = .ok (.tramRead, []) ∧
  Sys2Proof.decode [0x02000300#32] = .ok (.decode 3#16, []) ∧
  Sys2Proof.decode [0x03000000#32, 0xD2F1A9FC#32, 0x3F50624D#32] =
    .ok (.control 0#16 (F64.ofBits 0x3F50624DD2F1A9FC#64), []) ∧
  Sys2Proof.decode [0x14FFFF00#32] = .ok (.syncSteptype 65535#16, []) ∧
  Sys2Proof.decode [0x23000100#32, 0x3E8#32] = .ok (.setSteplen 1#16 1000#32, []) ∧
  Sys2Proof.decode [0x30000210#32] = .ok (.hostRead 2#16 16#8, []) ∧
  assembleWords 1 "CONTROL 0, 1e-3".toList =
    some [0x03000000#32, 0xD2F1A9FC#32, 0x3F50624D#32] ∧
  assembleWords 1 "TRAM_WRITE ; ship the batch".toList = some [0x05000000#32] ∧
  assembleWords 1 "SET_STEPLEN 2, 0x3E8".toList = some [0x23000200#32, 1000#32] ∧
  assembleWords 1 "SET_MAXVEL 0, -0x1.4p+2".toList = some [0x21000000#32, 0#32, 0xC0140000#32] ∧
  assembleWords 1 "HOST_READ 0, steplen".toList = some [0x3000000C#32]

/-- The pseudo-instructions expand as R120, R121 and R122 say, in a group of any size. -/
def Obligations.PseudoInstructionsExpand : Prop :=
  ∀ n : Nat,
    assembleLine n "PERIOD_READ".toList =
      some (.tramRead :: (List.range n).map (fun k => .decode (BitVec.ofNat 16 k))) ∧
    assembleLine n "SYNC_ALL".toList =
      some ((List.range n).flatMap (fun k =>
        [.syncDirsetup (BitVec.ofNat 16 k), .syncDirhold (BitVec.ofNat 16 k),
         .syncSteplen (BitVec.ofNat 16 k), .syncStepspace (BitVec.ofNat 16 k),
         .syncSteptype (BitVec.ofNat 16 k)])) ∧
    ∀ (v : List Char) (T : F64), v ≠ [] → (∀ ch ∈ v, isBlank ch = false ∧ ch ≠ ',' ∧ ch ≠ ';') →
      parseF64 v = some T →
      assembleLine n ("PERIOD_WRITE ".toList ++ v) =
        some ((List.range n).flatMap (fun k =>
          [.control (BitVec.ofNat 16 k) T, .encode (BitVec.ofNat 16 k)]) ++ [.tramWrite])

/-! ## Runs -/

/-- A step runs the command that stands next in the list of the agent that moves (R125, R309): it
is `exec` of it at the same state, with nothing around it. -/
def Obligations.StepRunsNextCommand : Prop :=
  ∀ (s : State) (a : Agent) (i : Instr) (rest : List Word),
    s.refused = none → s.mover = some a → Sys2Proof.decode (s.ahead a) = .ok (i, rest) →
    i.op.agent = a → step s = exec i s

/-- An illegal word, a cut-off payload and the other agent's command are refused with
`ILLEGAL_COMMAND`, and nothing else changes (R117, R125, R270). -/
def Obligations.IllegalCommandIsRefused : Prop :=
  ∀ (s : State) (a : Agent), s.refused = none → s.mover = some a →
    ((∃ e, Sys2Proof.decode (s.ahead a) = .error e) ∨
      ∃ (i : Instr) (rest : List Word),
        Sys2Proof.decode (s.ahead a) = .ok (i, rest) ∧ i.op.agent ≠ a) →
    step s = .next { s with refused := some .illegalCommand }

/-- A list of well-formed commands reads back command by command: counters count commands, not
words (R125). -/
def Obligations.CommandListReadsBack : Prop :=
  ∀ is : List Instr, (∀ i ∈ is, i.wellFormed = true) →
    commandCount (listOf is) = is.length ∧
    ∀ (n : Nat) (i : Instr), is[n]? = some i →
      Sys2Proof.decode (afterCommands n (listOf is)) = .ok (i, listOf (is.drop (n + 1)))

/-- The agent that moves is the one the schedule names, if it has a command left, else the other;
none moves exactly when both lists have ended (R309; the rule for an ended agent is the model's,
log 3). -/
def Obligations.ScheduleChoosesTheMover : Prop :=
  ∀ s : State,
    (s.mover = none ↔ commandCount s.rtList ≤ s.pc ∧ commandCount s.hostList ≤ s.hpc) ∧
    ∀ a : Agent, s.schedule[s.pc + s.hpc]? = some a →
      (s.counter a < commandCount (s.list a) → s.mover = some a) ∧
      (commandCount (s.list a) ≤ s.counter a →
        s.counter (otherAgent a) < commandCount (s.list (otherAgent a)) →
        s.mover = some (otherAgent a))

/-- A refused run has no further step (R270, R309), and a run that has ended keeps its state (R281;
that a step then answers the same state is the model's, log 4). -/
def Obligations.RefusedRunStopsAndEndedRunKeepsItsState : Prop :=
  (∀ (s : State) (r : RefuseReason), s.refused = some r → step s = .refused (.runRefused r)) ∧
  ∀ s : State, s.ended → step s = .next s

/-- No command can hang: under every schedule an unrefused run of finite lists comes, within as many
steps as there are commands left, to its end or to a refused command (R309). -/
def Obligations.EveryRunComesToItsEnd : Prop :=
  ∀ s : State, s.refused = none → s.pc ≤ commandCount s.rtList →
    s.hpc ≤ commandCount s.hostList →
    ∃ (k : Nat) (t : State),
      k ≤ (commandCount s.rtList - s.pc) + (commandCount s.hostList - s.hpc) ∧
      Sys2Proof.core.run k s = .next t ∧ (t.ended ∨ t.refused ≠ none)

/-! ## Creation and reset -/

/-- Creation is refused exactly for the configurations of R268. -/
def Obligations.CreationIsRefusedExactly : Prop :=
  ∀ (cfg : GroupConfig) (init : List ChannelInit),
    let bad := init.length = 0 ∨ 65536 < init.length ∨ cfg.clockHz = 0#32 ∨
      cfg.base.toNat % 4 ≠ 0 ∨ cfg.stride.toNat % 4 ≠ 0 ∨ cfg.stride.toNat < 4 * init.length ∨
      2 ^ 32 ≤ cfg.base.toNat + 9 * cfg.stride.toNat + 4 * (init.length - 1) + 3
    (bad → State.create cfg init = .refused .badConfiguration) ∧
    (¬ bad → ∃ t, State.create cfg init = .next t)

/-- The state after reset: the group as R291 says and every channel as R292 says. -/
def Obligations.CreatedGroupIsInItsResetState : Prop :=
  ∀ (cfg : GroupConfig) (init : List ChannelInit) (t : State), State.create cfg init = .next t →
    t.pc = 0 ∧ t.hpc = 0 ∧ t.wlog = [] ∧ t.diag = [] ∧ t.refused = none ∧ t.cfg = cfg ∧
    t.n = init.length ∧
    ∀ (i : Nat) (c0 : ChannelInit), init[i]? = some c0 → ∃ c : Channel,
      t.channels[i]? = some c ∧
      (c.rawAcc = 0#32 ∧ c.prevRaw = 0#32 ∧ c.subcounts = 0#64 ∧ c.counts = 0#32 ∧
        c.positionFb = F64.zero false ∧ c.velocityFb = F64.zero false ∧
        c.oldPositionCmd = F64.zero false ∧ c.stepRateReg = 0#32 ∧
        c.dbgFfVel = F64.zero false ∧ c.dbgVelError = F64.zero false ∧
        c.dbgSToMatch = F64.zero false ∧ c.dbgErrAtMatch = F64.zero false ∧
        c.dbgPosMinusPrevCmd = F64.zero false ∧ c.dbgStepRate = 0#32) ∧
      (∀ F : TimingField, c.shadow F = none ∧ c.cache F = none) ∧
      (c.positionScale = c0.positionScale ∧ c.maxvel = c0.maxvel ∧ c.maxaccel = c0.maxaccel ∧
        c.steplen = c0.steplen ∧ c.stepspace = c0.stepspace ∧ c.dirsetup = c0.dirsetup ∧
        c.dirhold = c0.dirhold ∧ c.stepType = c0.stepType ∧ c.positionCmd = c0.positionCmd ∧
        c.velocityCmd = c0.velocityCmd ∧ c.enable = c0.enable ∧ c.controlType = c0.controlType)

/-- Every created group meets the invariants below, and knows no device register (R295). -/
def Obligations.CreatedGroupMeetsTheInvariants : Prop :=
  ∀ (cfg : GroupConfig) (init : List ChannelInit) (t : State), State.create cfg init = .next t →
    t.configOk ∧ t.cacheInv ∧ t.logInv ∧ t.diagInv ∧ t.deviceInv ∧ t.shadowInv ∧
    ∀ a : Nat, devReg t.wlog a = none

/-! ## Invariants that every step keeps -/

/-- Cache registers stay at most 0x3FFF, the mode register a step type, and each is written exactly
where its shadow is (10_state.md R50, R54). -/
def Obligations.CacheRegistersStayInRange : Prop :=
  ∀ s t : State, s.cacheInv → step s = .next t → t.cacheInv

/-- Every event stays an access of the register map with a value its format allows
(20_memory.md R83, R90, 30_encoding.md R103, R109 to R111). -/
def Obligations.HistoryStaysInTheRegisterMap : Prop :=
  ∀ s t : State, s.logInv → step s = .next t → t.logInv

/-- Every diagnostic names a channel of the group, and a field exactly where it is TIMING_CLAMPED
(60_exceptions.md R262). -/
def Obligations.DiagnosticsStayWellFormed : Prop :=
  ∀ s t : State, s.diagInv → step s = .next t → t.diagInv

/-- Every cache register stays the value last sent to its device register (10_state.md R54, R57),
in a configuration that creation accepts. -/
def Obligations.CacheStaysTheDeviceImage : Prop :=
  ∀ s t : State, s.configOk → s.deviceInv → step s = .next t → t.deviceInv

/-- The register of every field stays the transform of its shadow, at a clock below 5e8
(10_state.md R51, 43_timing.md R215). -/
def Obligations.RegistersStayTheTransformOfTheirShadow : Prop :=
  ∀ s t : State, s.cfg.clockHz.toNat < 500000000 → s.shadowInv → step s = .next t → t.shadowInv

/-- At a clock of 2e9 a clamp breaks that invariant: the shadow is 8191, the register 0x3FFF, and
the shadow's transform 16382 (10_state.md R51, 43_timing.md R215). -/
def Obligations.ShadowInvariantFailsAtAHighClock : Prop :=
  ∀ (s : State) (ch : ChanIdx) (c : Channel) (f : DurField),
    s.cfg.clockHz = 2000000000#32 → s.channels[ch.toNat]? = some c →
    c.shadow (.dur f) ≠ some (c.param (.dur f)) → 8192 ≤ (c.param (.dur f)).toNat →
    ∃ (t : State) (c' : Channel), exec (syncInstr (.dur f) ch) s = .next t ∧
      t.channels[ch.toNat]? = some c' ∧ c'.shadow (.dur f) = some 8191#32 ∧
      c'.cache (.dur f) = some 0x3FFF#32 ∧
      (transform t.cfg (.dur f) ch.toNat 8191#32).reg = 16382#32 ∧
      ¬ shadowHolds t.cfg (.dur f) ch.toNat c'

/-- No step writes the group configuration, the number of channels, the command lists or the
schedule, and the event history and the diagnostics are only appended to
(10_state.md R30, R32, R33; 20_memory.md R97). -/
def Obligations.ConfigurationIsFixedAndLogsOnlyGrow : Prop :=
  ∀ s t : State, step s = .next t →
    t.cfg = s.cfg ∧ t.n = s.n ∧ t.rtList = s.rtList ∧ t.hostList = s.hostList ∧
    t.schedule = s.schedule ∧ s.wlog <+: t.wlog ∧ s.diag <+: t.diag

/-! ## Completion and refusal -/

/-- No command traps. Each one either ends by advancing its own agent's counter by 1, the other
counter and `G.refused` unchanged, or is refused with no other change
(10_state.md R31, 30_encoding.md R118, 60_exceptions.md R260, R270). -/
def Obligations.EveryCommandCompletesOrIsRefused : Prop :=
  ∀ (i : Instr) (s : State), ∃ t : State, exec i s = .next t ∧
    ((∃ r, t = { s with refused := some r }) ∨
      (t.refused = s.refused ∧
        (i.op.agent = .rt → t.pc = s.pc + 1 ∧ t.hpc = s.hpc) ∧
        (i.op.agent = .host → t.pc = s.pc ∧ t.hpc = s.hpc + 1)))

/-- A command is refused exactly where R271, R272, R150 and R253 say, with the first reason of R273's
order, and then nothing but `G.refused` changes (60_exceptions.md R270). -/
def Obligations.CommandsAreRefusedExactlyWhen : Prop :=
  ∀ (i : Instr) (s : State),
    (∀ r, refusalOf s.n i = some r → exec i s = .next { s with refused := some r }) ∧
    (refusalOf s.n i = none → ∃ t, exec i s = .next t ∧ t.refused = s.refused)

/-! ## Channels and agents -/

/-- A command on one channel leaves every other channel's record unchanged (60_exceptions.md R279,
00_scope.md R16). -/
def Obligations.OtherChannelsAreUnchanged : Prop :=
  ∀ (i : Instr) (ch : ChanIdx) (s t : State) (j : Nat),
    i.chan? = some ch → exec i s = .next t → j ≠ ch.toNat → t.channels[j]? = s.channels[j]?

/-- A command on a channel reads only that channel and the configuration: two groups that agree on
those leave the same record, the same events, the same diagnostics and the same values for the HOST agent
(60_exceptions.md R279). -/
def Obligations.CommandsReadOnlyTheirChannel : Prop :=
  ∀ (i : Instr) (ch : ChanIdx) (s u s' u' : State),
    i.chan? = some ch → s.cfg = u.cfg → s.n = u.n →
    s.channels[ch.toNat]? = u.channels[ch.toNat]? →
    exec i s = .next s' → exec i u = .next u' →
    s'.channels[ch.toNat]? = u'.channels[ch.toNat]? ∧
    s'.wlog.drop s.wlog.length = u'.wlog.drop u.wlog.length ∧
    s'.diag.drop s.diag.length = u'.diag.drop u.diag.length ∧
    s'.hostReads.drop s.hostReads.length = u'.hostReads.drop u.hostReads.length

/-- Unrefused commands on different channels commute, but for the order of their log entries
(60_exceptions.md R279), which orders what HOST_READ returns too (log 11). -/
def Obligations.CommandsOnDifferentChannelsCommute : Prop :=
  ∀ (i j : Instr) (a b : ChanIdx) (s s1 t1 s2 t2 : State),
    i.chan? = some a → j.chan? = some b → a ≠ b →
    s.refused = none → exec i s = .next s1 → exec j s1 = .next t1 → t1.refused = none →
    exec j s = .next s2 → exec i s2 = .next t2 →
    t1.channels = t2.channels ∧ t1.cfg = t2.cfg ∧ t1.pc = t2.pc ∧ t1.hpc = t2.hpc ∧
    t2.refused = none ∧ t1.acc = t2.acc ∧ t1.draws = t2.draws ∧
    t1.wlog.Perm t2.wlog ∧ t1.diag.Perm t2.diag ∧ t1.hostReads.Perm t2.hostReads

/-- An unrefused host command changes nothing but the items of R241 to R252 of its channel, its own
counter, and, for HOST_READ alone, the list of what it has returned (44_host.md R240; log 11); a
refused one changes nothing but `G.refused` (60_exceptions.md R270). -/
def Obligations.HostWritesOnlyItsItems : Prop :=
  ∀ (i : Instr) (s t : State), i.op.agent = .host → exec i s = .next t →
    (∃ r, t = { s with refused := some r }) ∨
    ∃ (ch : ChanIdx) (c c' : Channel) (vs : List HostValue),
      i.chan? = some ch ∧ s.channels[ch.toNat]? = some c ∧
      c' = { c with
        positionScale := c'.positionScale, maxvel := c'.maxvel, maxaccel := c'.maxaccel,
        steplen := c'.steplen, stepspace := c'.stepspace, dirsetup := c'.dirsetup,
        dirhold := c'.dirhold, stepType := c'.stepType, positionCmd := c'.positionCmd,
        velocityCmd := c'.velocityCmd, enable := c'.enable, controlType := c'.controlType } ∧
      (i.op = .hostRead → c' = c ∧ vs.length = 1) ∧ (i.op ≠ .hostRead → vs = []) ∧
      t = { s with
        channels := s.channels.set ch.toNat c', hpc := s.hpc + 1, hostReads := s.hostReads ++ vs }

/-- The channel fields that each RT command may write are those of R58's table; every other field of
every channel is unchanged. ENCODE's count of its draws is the model's own field (log 8). -/
def Obligations.FieldsHaveTheWritersOfTheTable : Prop :=
  ∀ (i : Instr) (s t : State) (k : Nat) (c c' : Channel), exec i s = .next t →
    s.channels[k]? = some c → t.channels[k]? = some c' →
    (i = .tramRead → c' = { c with rawAcc := c'.rawAcc }) ∧
    (i.op = .decode → c' = { c with
      positionScale := c'.positionScale, subcounts := c'.subcounts, prevRaw := c'.prevRaw,
      counts := c'.counts, positionFb := c'.positionFb }) ∧
    (i.op = .control → c' = { c with
      positionScale := c'.positionScale, maxvel := c'.maxvel, maxaccel := c'.maxaccel,
      velocityFb := c'.velocityFb, oldPositionCmd := c'.oldPositionCmd, dbgFfVel := c'.dbgFfVel,
      dbgVelError := c'.dbgVelError, dbgSToMatch := c'.dbgSToMatch,
      dbgErrAtMatch := c'.dbgErrAtMatch, dbgPosMinusPrevCmd := c'.dbgPosMinusPrevCmd }) ∧
    (i.op = .encode → c' = { c with
      positionScale := c'.positionScale, stepRateReg := c'.stepRateReg,
      dbgStepRate := c'.dbgStepRate, rateDraws := c'.rateDraws }) ∧
    (i = .tramWrite → c' = c) ∧
    (∀ (F : TimingField) (ch : ChanIdx), i = syncInstr F ch →
      c' = c ∨ ∃ p r, c' = c.commitField F p r) ∧
    (i = .forcedResync → c' = { c with
      dirsetup := c'.dirsetup, dirhold := c'.dirhold, steplen := c'.steplen,
      stepspace := c'.stepspace, stepType := c'.stepType, writtenDirsetup := c'.writtenDirsetup,
      writtenDirhold := c'.writtenDirhold, writtenSteplen := c'.writtenSteplen,
      writtenStepspace := c'.writtenStepspace, writtenStepType := c'.writtenStepType,
      modeReg := c'.modeReg, dirSetupReg := c'.dirSetupReg, dirHoldReg := c'.dirHoldReg,
      pulseWidthReg := c'.pulseWidthReg, pulseIdleWidthReg := c'.pulseIdleWidthReg })

/-! ## The device registers -/

/-- "No register is written unless its backing parameter differs from its shadow, except during an
explicit forced resync that rewrites everything unconditionally"; the step-rate register is the
exception, which TRAM_WRITE writes every time (10_state.md R52). Each write is to the register of
the field that differs. -/
def Obligations.WritesComeOnlyFromDirtyFields : Prop :=
  ∀ (i : Instr) (s t : State), exec i s = .next t →
    (∀ e ∈ t.wlog.drop s.wlog.length,
      match e with
      | .batchRead l =>
        i = .tramRead ∧ l.map Prod.fst = (List.range s.n).map (regAddr s.cfg .accumulator)
      | .batchWrite l =>
        i = .tramWrite ∧ l.map Prod.fst = (List.range s.n).map (regAddr s.cfg .stepRate)
      | .write a _ =>
        (i = .forcedResync ∧ (a = masterEnableAddr s.cfg ∨
          ∃ (F : TimingField) (j : Nat), j < s.n ∧ a = regAddr s.cfg F.kind j)) ∨
        ∃ (F : TimingField) (ch : ChanIdx) (c : Channel),
          i = syncInstr F ch ∧ a = regAddr s.cfg F.kind ch.toNat ∧
          s.channels[ch.toNat]? = some c ∧ c.shadow F ≠ some (c.param F)) ∧
    (i = .forcedResync → ∀ (F : TimingField) (j : Nat), j < s.n →
      ∃ v, Event.write (regAddr s.cfg F.kind j) v ∈ t.wlog.drop s.wlog.length) ∧
    (i = .tramWrite → ∃ l, Event.batchWrite l ∈ t.wlog.drop s.wlog.length)

/-- Every byte of the device's register space outside the registers a command may write keeps its
value, for every command (20_memory.md R88, R90; 30_encoding.md R103). -/
def Obligations.OtherDeviceBytesAreUnchanged : Prop :=
  ∀ (i : Instr) (s t : State),
    s.cfg.base.toNat % 4 = 0 → s.cfg.stride.toNat % 4 = 0 → exec i s = .next t →
    ∀ a : Nat, (∀ r ∈ storedAt i s, a < r ∨ r + 4 ≤ a) → devByte t.wlog a = devByte s.wlog a

/-- Every register address is a multiple of 4 below 2^32 - 3, and no two registers share one
(00_scope.md R10, R11; 20_memory.md R88; 30_encoding.md R101). -/
def Obligations.RegisterAddressesAreAlignedAndDistinct : Prop :=
  ∀ (cfg : GroupConfig) (n : Nat), configOk cfg n →
    (∀ (k : Kind) (i : Nat), i < n →
      regAddr cfg k i % 4 = 0 ∧ regAddr cfg k i + 3 < 2 ^ 32) ∧
    ∀ (k l : Kind) (i j : Nat), i < n → j < n → regAddr cfg k i = regAddr cfg l j →
      k = l ∧ i = j

/-- The bit view of the address offset where STRIDE is a power of two (30_encoding.md R102). -/
def Obligations.AddressOffsetBits : Prop :=
  ∀ (cfg : GroupConfig) (n S : Nat) (k : Kind) (i : Nat),
    1 ≤ n → cfg.stride.toNat = 2 ^ S → 2 + Nat.clog 2 n ≤ S → i < n →
    let off := regAddr cfg k i - cfg.base.toNat
    off % 2 ^ S / 2 ^ 2 = i ∧ off / 2 ^ S % 2 ^ 4 = k.num ∧ off % 2 ^ 2 = 0 ∧ off < 2 ^ (S + 4)

/-! ## TRAM_READ and DECODE -/

/-- TRAM_READ: one batch read of every channel's accumulator, each answer latched, the answers given
first and free values after them (40_decoder.md R130, 20_memory.md R84; log 6). -/
def Obligations.TramReadLatchesEveryAccumulator : Prop :=
  ∀ s : State, ∃ vs : List Word, vs.length = s.n ∧
    vs.take s.acc.length = s.acc.take s.n ∧
    exec .tramRead s = .next { s with
      channels := List.zipWith (fun c v => { c with rawAcc := v }) s.channels vs,
      wlog := s.wlog ++ [.batchRead ((List.range s.n).map (fun j =>
        (s.cfg.base.toNat + s.cfg.stride.toNat + 4 * j, vs.getD j 0#32)))],
      acc := s.acc.drop s.n, draws := s.draws + (s.n - s.acc.length), pc := s.pc + 1 }

/-- DECODE: the scale check, then the 32-bit difference read as two's complement is added to
`subcounts`, `counts` is its arithmetic shift, and `position_fb` the scaled quotient
(40_decoder.md R131, R132, R133, R135). -/
def Obligations.DecodeUpdatesPosition : Prop :=
  ∀ (s : State) (ch : ChanIdx) (c : Channel), s.channels[ch.toNat]? = some c →
    let near := c.positionScale.abs.lt F64.micro
    let scale :=
      if near then (if c.positionScale.lt F64.zeroLit then F64.one.neg else F64.one)
      else c.positionScale
    let sub := c.subcounts + (c.rawAcc - c.prevRaw).signExtend 64
    exec (.decode ch) s = .next { s with
      channels := s.channels.set ch.toNat { c with
        positionScale := scale, subcounts := sub, prevRaw := c.rawAcc,
        counts := (sub.sshiftRight 16).setWidth 32,
        positionFb := ((F64.ofInt sub.toInt).div F64.stepUnits).div scale },
      diag := s.diag ++ (if near then [⟨.scaleCorrected, ch.toNat, none⟩] else []),
      pc := s.pc + 1 }

/-- The displacement is in the i32 range and is the 32-bit difference read as two's complement; the
two adjustments exclude each other, and the corner values are those of R133. -/
def Obligations.DisplacementIsTheWrappedDifference : Prop :=
  ∀ raw prev : Word,
    let d : Int := (raw.toNat : Int) - (prev.toNat : Int)
    displacement raw prev = (raw - prev).toInt ∧
    displacement raw prev ≤ 2 ^ 31 - 1 ∧ -(2 ^ 31) ≤ displacement raw prev ∧
    ¬ (2 ^ 31 - 1 < d ∧ d < -(2 ^ 31)) ∧
    (d = 2 ^ 31 - 1 → displacement raw prev = 2 ^ 31 - 1) ∧
    (d = 2 ^ 31 → displacement raw prev = -(2 ^ 31)) ∧
    (d = -(2 ^ 31) → displacement raw prev = -(2 ^ 31))

/-- DECODE recovers every true displacement of magnitude below 2^31, wherever the counter wrapped
(40_decoder.md R134). -/
def Obligations.DecodeRecoversTheTrueDisplacement : Prop :=
  ∀ (s : State) (ch : ChanIdx) (c : Channel) (d : Int), s.channels[ch.toNat]? = some c →
    wrapOk c.prevRaw c.rawAcc d →
    ∃ (t : State) (c' : Channel), exec (.decode ch) s = .next t ∧
      t.channels[ch.toNat]? = some c' ∧
      c'.subcounts = BitVec.ofInt 64 (c.subcounts.toInt + d) ∧ c'.prevRaw = c.rawAcc

/-- A second DECODE with no TRAM_READ between adds nothing (40_decoder.md R138). -/
def Obligations.SecondDecodeAddsNothing : Prop :=
  ∀ (s t u : State) (ch : ChanIdx) (c c' c'' : Channel), exec (.decode ch) s = .next t →
    exec (.decode ch) t = .next u → s.channels[ch.toNat]? = some c →
    t.channels[ch.toNat]? = some c' → u.channels[ch.toNat]? = some c'' →
    c'.prevRaw = c.rawAcc ∧ displacement c'.rawAcc c'.prevRaw = 0 ∧
    c''.subcounts = c'.subcounts ∧ c''.counts = c'.counts ∧ c''.prevRaw = c'.prevRaw

/-- After a command that checks the scale, no scale of magnitude below 1e-6 is left
(10_state.md R42, 40_decoder.md R131). -/
def Obligations.NoNearZeroScaleIsLeft : Prop :=
  ∀ (i : Instr) (ch : ChanIdx) (s t : State) (c c' : Channel), i.chan? = some ch →
    (i.op = .decode ∨ (c.enable = true ∧ (i.op = .control ∨ i.op = .encode))) →
    exec i s = .next t → t.refused = none → s.channels[ch.toNat]? = some c →
    t.channels[ch.toNat]? = some c' → c'.positionScale.abs.lt F64.micro = false

/-! ## CONTROL -/

/-- On a disabled channel CONTROL writes nothing but `pc` (41_controller.md R152), and ENCODE forces
the register to 0 and writes nothing else (42_encoder.md R191). -/
def Obligations.DisabledChannelIsSkipped : Prop :=
  ∀ (s : State) (ch : ChanIdx) (c : Channel) (T : F64), s.channels[ch.toNat]? = some c →
    c.enable = false → F64.zeroLit.lt T = true → T.lt (F64.inf false) = true →
    exec (.control ch T) s = .next { s with pc := s.pc + 1 } ∧
    exec (.encode ch) s = .next { s with
      channels := s.channels.set ch.toNat { c with stepRateReg := 0#32 }, pc := s.pc + 1 }

/-- CONTROL in velocity mode: R151, R165, then the post-processing of R167 to R172, with the
diagnostics in R150's order. -/
def Obligations.ControlInVelocityMode : Prop :=
  ∀ (s : State) (ch : ChanIdx) (c : Channel) (T : F64), s.channels[ch.toNat]? = some c →
    c.enable = true → c.controlType = .velocity →
    F64.zeroLit.lt T = true → T.lt (F64.inf false) = true →
    let A := if c.maxaccel.lt F64.zeroLit then c.maxaccel.abs else c.maxaccel
    let v := if A.gt F64.zeroLit
      then c.velocityCmd.clamp (c.velocityFb.sub (A.mul T)) (c.velocityFb.add (A.mul T))
      else c.velocityCmd
    let near := c.positionScale.abs.lt F64.micro
    let scale :=
      if near then (if c.positionScale.lt F64.zeroLit then F64.one.neg else F64.one)
      else c.positionScale
    let phys := (F64.giga.div (F64.ofNat (c.steplen.toNat + c.stepspace.toNat))).div scale.abs
    let m := if c.maxvel.lt F64.zeroLit then c.maxvel.abs else c.maxvel
    let mv := if m.gt phys then phys else m
    let lim := if mv.fne F64.zeroLit then mv else phys
    exec (.control ch T) s = .next { s with
      channels := s.channels.set ch.toNat { c with
        maxaccel := A, positionScale := scale, maxvel := mv, velocityFb := v.clamp lim.neg lim },
      diag := s.diag ++
        (if c.maxaccel.lt F64.zeroLit then [⟨.maxaccelNegative, ch.toNat, none⟩] else []) ++
        (if near then [⟨.scaleCorrected, ch.toNat, none⟩] else []) ++
        (if c.maxvel.lt F64.zeroLit then [⟨.maxvelNegative, ch.toNat, none⟩] else []) ++
        (if m.gt phys then [⟨.maxvelLimited, ch.toNat, none⟩] else []),
      pc := s.pc + 1 }

/-- CONTROL in position mode: R151, the telemetry and the two branches of R153 to R163, then the
post-processing of R167 to R172, with the diagnostics in R150's order. -/
def Obligations.ControlInPositionMode : Prop :=
  ∀ (s : State) (ch : ChanIdx) (c : Channel) (T : F64), s.channels[ch.toNat]? = some c →
    c.enable = true → c.controlType = .position →
    F64.zeroLit.lt T = true → T.lt (F64.inf false) = true →
    let A := if c.maxaccel.lt F64.zeroLit then c.maxaccel.abs else c.maxaccel
    let vfb := c.velocityFb
    let pfb := c.positionFb
    let pcmd := c.positionCmd
    let old := c.oldPositionCmd
    let ff := (pcmd.sub old).div T
    let ve := vfb.sub ff
    let ma :=
      if ve.gt F64.zeroLit then (if A.feq F64.zeroLit then (ve.abs.div T).neg else A.neg)
      else if ve.lt F64.zeroLit then (if A.feq F64.zeroLit then ve.abs.div T else A)
      else F64.zeroLit
    let sm := if ma.feq F64.zeroLit then F64.zeroLit else ve.neg.div ma
    let pam := pfb.add (((ff.add vfb).mul F64.half).mul (sm.add T))
    let pcam := pcmd.add (ff.mul sm)
    let e := pam.sub pcam
    let single := ff.sub ((F64.half.mul e).div T)
    let dp := ((F64.two.neg.mul ma).mul T).mul sm
    let flip := (e.add (F64.two.mul dp)).abs.lt e.abs
    let v :=
      if sm.lt T then
        (if A.gt F64.zeroLit then single.clamp (vfb.sub (A.mul T)) (vfb.add (A.mul T)) else single)
      else vfb.add ((if flip then ma.neg else ma).mul T)
    let near := c.positionScale.abs.lt F64.micro
    let scale :=
      if near then (if c.positionScale.lt F64.zeroLit then F64.one.neg else F64.one)
      else c.positionScale
    let phys := (F64.giga.div (F64.ofNat (c.steplen.toNat + c.stepspace.toNat))).div scale.abs
    let m := if c.maxvel.lt F64.zeroLit then c.maxvel.abs else c.maxvel
    let mv := if m.gt phys then phys else m
    let lim := if mv.fne F64.zeroLit then mv else phys
    exec (.control ch T) s = .next { s with
      channels := s.channels.set ch.toNat { c with
        maxaccel := A, positionScale := scale, maxvel := mv, velocityFb := v.clamp lim.neg lim,
        oldPositionCmd := pcmd, dbgPosMinusPrevCmd := pfb.sub old, dbgFfVel := ff,
        dbgVelError := ve, dbgSToMatch := sm, dbgErrAtMatch := e },
      diag := s.diag ++
        (if c.maxaccel.lt F64.zeroLit then [⟨.maxaccelNegative, ch.toNat, none⟩] else []) ++
        (if near then [⟨.scaleCorrected, ch.toNat, none⟩] else []) ++
        (if c.maxvel.lt F64.zeroLit then [⟨.maxvelNegative, ch.toNat, none⟩] else []) ++
        (if m.gt phys then [⟨.maxvelLimited, ch.toNat, none⟩] else []),
      pc := s.pc + 1 }

/-- Without an acceleration limit the match acceleration of a velocity error that is not NaN and not
0 is `-ve / T` exactly (41_controller.md R157). -/
def Obligations.UnlimitedMatchAcceleration : Prop :=
  ∀ ve A T : F64, A.feq F64.zeroLit = true → ve.isNaN = false → ve.feq F64.zeroLit = false →
    F64.zeroLit.lt T = true → T.lt (F64.inf false) = true →
    matchAccel ve A T = ve.neg.div T

/-- The velocity bound: after an enabled CONTROL whose `new_vel` is not NaN, with a maxvel above 0 as
the command leaves it, `|velocity_fb| <= maxvel` (41_controller.md R173). -/
def Obligations.VelocityIsBoundedByMaxvel : Prop :=
  ∀ (s t : State) (ch : ChanIdx) (c c' : Channel) (T : F64), s.channels[ch.toNat]? = some c →
    c.enable = true → exec (.control ch T) s = .next t → t.refused = none →
    t.channels[ch.toNat]? = some c' →
    (newVel (maxaccelCheck ch.toNat c).1 T).isNaN = false → F64.zeroLit.lt c'.maxvel = true →
    c'.velocityFb.isNaN = false ∧ c'.maxvel.lt c'.velocityFb.abs = false

/-- After an enabled CONTROL neither maxvel nor maxaccel is below 0 (10_state.md R43), and the
effective limit is not above the physical limit that the timings and the scale then give
(41_controller.md R174). -/
def Obligations.LimitsAreCorrectedByControl : Prop :=
  ∀ (s t : State) (ch : ChanIdx) (c c' : Channel) (T : F64), s.channels[ch.toNat]? = some c →
    c.enable = true → exec (.control ch T) s = .next t → t.refused = none →
    t.channels[ch.toNat]? = some c' →
    let phys :=
      (F64.giga.div (F64.ofNat (c'.steplen.toNat + c'.stepspace.toNat))).div c'.positionScale.abs
    let lim := if c'.maxvel.fne F64.zeroLit then c'.maxvel else phys
    c'.maxvel.lt F64.zeroLit = false ∧ c'.maxaccel.lt F64.zeroLit = false ∧
    phys.lt lim = false

/-! ## ENCODE and TRAM_WRITE -/

/-- ENCODE on an enabled channel: the phase increment of R192 and R193, its low 32 bits truncated
toward zero where it is finite, some value where it is not, which the channel's count of draws
records (42_encoder.md R190, R194; logs 7, 8). -/
def Obligations.EncodeWritesThePhaseIncrement : Prop :=
  ∀ (s : State) (ch : ChanIdx) (c : Channel), s.channels[ch.toNat]? = some c →
    c.enable = true →
    let near := c.positionScale.abs.lt F64.micro
    let scale :=
      if near then (if c.positionScale.lt F64.zeroLit then F64.one.neg else F64.one)
      else c.positionScale
    let ph := (c.velocityFb.mul scale).mul
      (F64.phaseUnits.div (F64.ofNat s.cfg.clockHz.toNat))
    ∃ r : Word, (ph.isFinite = true → r = BitVec.ofInt 32 ph.trunc) ∧
      exec (.encode ch) s = .next { s with
        channels := s.channels.set ch.toNat { c with
          positionScale := scale, stepRateReg := r, dbgStepRate := r,
          rateDraws := if ph.isFinite then c.rateDraws else c.rateDraws + 1 },
        diag := s.diag ++ (if near then [⟨.scaleCorrected, ch.toNat, none⟩] else []),
        pc := s.pc + 1 }

/-- Negating `position_scale` negates the register that ENCODE writes, and its telemetry, on an
enabled channel whose phase increment is finite and whose scale is not corrected (42_encoder.md R195;
that minus flips the sign bit is the model's, log 10). -/
def Obligations.NegatedScaleReversesTheRegister : Prop :=
  ∀ (s : State) (ch : ChanIdx) (c : Channel), s.channels[ch.toNat]? = some c →
    c.enable = true → c.positionScale.abs.lt F64.micro = false →
    (phaseIncrement s.cfg c).isFinite = true →
    let negated := { c with positionScale := c.positionScale.neg }
    ∃ r : Word,
      exec (.encode ch) s = .next { s with
        channels := s.channels.set ch.toNat { c with stepRateReg := r, dbgStepRate := r },
        pc := s.pc + 1 } ∧
      exec (.encode ch) { s with channels := s.channels.set ch.toNat negated } = .next { s with
        channels := s.channels.set ch.toNat { negated with stepRateReg := -r, dbgStepRate := -r },
        pc := s.pc + 1 }

/-- TRAM_WRITE: one batch write of every channel's register, whether or not it changed, and the
device's step-rate registers then hold them (42_encoder.md R196, 10_state.md R57). -/
def Obligations.TramWriteShipsEveryRegister : Prop :=
  ∀ s : State, ∃ vs : List Word, vs.length = s.n ∧
    (∀ (j : Nat) (c : Channel), s.channels[j]? = some c → vs[j]? = some c.stepRateReg) ∧
    (∀ t : State, exec .tramWrite s = .next t → ∀ j : Nat, j < s.n →
      devReg t.wlog (s.cfg.base.toNat + 4 * j) = vs[j]?) ∧
    exec .tramWrite s = .next { s with
      wlog := s.wlog ++ [.batchWrite ((List.range s.n).map (fun j =>
        (s.cfg.base.toNat + 4 * j, vs.getD j 0#32)))],
      pc := s.pc + 1 }

/-! ## SYNC and FORCED_RESYNC -/

/-- Change detection and commit: a SYNC of a field whose shadow equals its parameter does nothing but
advance `pc`; an unwritten shadow equals nothing, and a forced sync goes on in either case
(43_timing.md R213). What goes on puts the final parameter in the shadow and the register value in
the cache register and on the transport, as the result says; stopped early, the result is `None`
(R217). -/
def Obligations.SyncCommitsExactlyADirtyField : Prop :=
  ∀ (s : State) (ch : ChanIdx) (c : Channel) (F : TimingField),
    s.channels[ch.toNat]? = some c →
    (c.shadow F = some (c.param F) →
      exec (syncInstr F ch) s = .next { s with pc := s.pc + 1 } ∧
      syncResult s.cfg F false ch.toNat c = none) ∧
    (c.shadow F ≠ some (c.param F) → ∃ (t : State) (c' : Channel) (p reg : Word),
      exec (syncInstr F ch) s = .next t ∧ t.channels[ch.toNat]? = some c' ∧
      c'.param F = p ∧ c'.shadow F = some p ∧ c'.cache F = some reg ∧
      t.wlog = s.wlog ++ [.write (regAddr s.cfg F.kind ch.toNat) reg] ∧ t.pc = s.pc + 1 ∧
      syncResult s.cfg F false ch.toNat c = some (regAddr s.cfg F.kind ch.toNat, reg)) ∧
    ∃ (p reg : Word),
      (syncField s.cfg F true ch.toNat c).chan.shadow F = some p ∧
      (syncField s.cfg F true ch.toNat c).chan.param F = p ∧
      (syncField s.cfg F true ch.toNat c).chan.cache F = some reg ∧
      (syncField s.cfg F true ch.toNat c).events =
        [.write (regAddr s.cfg F.kind ch.toNat) reg] ∧
      syncResult s.cfg F true ch.toNat c = some (regAddr s.cfg F.kind ch.toNat, reg)

/-- Step-type validation: a step type above 2 becomes 0 with one report, any other stays, and the
mode register receives it (43_timing.md R216). -/
def Obligations.StepTypeIsValidated : Prop :=
  ∀ (s : State) (ch : ChanIdx) (c : Channel),
    s.channels[ch.toNat]? = some c → c.writtenStepType ≠ some c.stepType →
    let p := if 2 < c.stepType.toNat then 0#32 else c.stepType
    exec (.syncSteptype ch) s = .next { s with
      channels := s.channels.set ch.toNat
        { c with stepType := p, writtenStepType := some p, modeReg := some p },
      wlog := s.wlog ++ [.write
        (s.cfg.base.toNat + 2 * s.cfg.stride.toNat + 4 * ch.toNat) p],
      diag := s.diag ++
        (if 2 < c.stepType.toNat then [⟨.stepTypeInvalid, ch.toNat, none⟩] else []),
      pc := s.pc + 1 }

/-- A SYNC of a dirty field (each of the five SYNC commands), in exact integers: the parameter and
the register are those of `exactTiming`, for every parameter and every clock, and parameter, shadow,
cache register and device register are written (43_timing.md R214 to R222, R226). -/
def Obligations.SyncOfADirtyFieldIsExact : Prop :=
  ∀ (s : State) (ch : ChanIdx) (c : Channel) (F : TimingField),
    s.channels[ch.toNat]? = some c → c.shadow F ≠ some (c.param F) →
    let p := (c.param F).toNat
    let e := exactTiming s.cfg.clockHz.toNat F p
    exec (syncInstr F ch) s = .next { s with
      channels := s.channels.set ch.toNat
        (c.commitField F (BitVec.ofNat 32 e.1) (BitVec.ofNat 32 e.2)),
      wlog := s.wlog ++ [.write
        (s.cfg.base.toNat + F.kind.num * s.cfg.stride.toNat + 4 * ch.toNat)
        (BitVec.ofNat 32 e.2)],
      diag := s.diag ++ exactReport s.cfg.clockHz.toNat F ch.toNat p,
      pc := s.pc + 1 }

/-- Idempotence: the first SYNC writes the field's register once where the shadow differs and not at
all where it does not, and a second SYNC of the same field emits no write and changes nothing but
`pc` (43_timing.md R223). -/
def Obligations.SyncTwiceWritesOnce : Prop :=
  ∀ (s t : State) (ch : ChanIdx) (c : Channel) (F : TimingField),
    s.channels[ch.toNat]? = some c → exec (syncInstr F ch) s = .next t →
    (c.shadow F ≠ some (c.param F) → t.wlog = s.wlog ++ [.write (regAddr s.cfg F.kind ch.toNat)
      (BitVec.ofNat 32 (exactTiming s.cfg.clockHz.toNat F (c.param F).toNat).2)]) ∧
    (c.shadow F = some (c.param F) → t.wlog = s.wlog) ∧
    exec (syncInstr F ch) t = .next { t with pc := t.pc + 1 }

/-- No RT command makes a clean field dirty or a written shadow unwritten: only a parameter that the
HOST changes does (20_memory.md R98, 10_state.md R56). -/
def Obligations.RtCommandsKeepCleanFieldsClean : Prop :=
  ∀ (i : Instr) (s t : State) (k : Nat) (c c' : Channel) (F : TimingField), i.op.agent = .rt →
    exec i s = .next t → s.channels[k]? = some c → t.channels[k]? = some c' →
    c.shadow F = some (c.param F) → c'.shadow F = some (c'.param F)

/-- FORCED_RESYNC: every field of every channel is recomputed, reported and written, channels
ascending and fields in R211's order, then the master enable once, `5*N + 1` writes in all; every
field is clean, and nothing else changes but `pc` (43_timing.md R212, R224, R225; 60_exceptions.md
R265). -/
def Obligations.ForcedResyncRewritesEverything : Prop :=
  ∀ s : State,
    let clock := s.cfg.clockHz.toNat
    let p : TimingField → Channel → Word := fun F c =>
      BitVec.ofNat 32 (exactTiming clock F (c.param F).toNat).1
    let r : TimingField → Channel → Word := fun F c =>
      BitVec.ofNat 32 (exactTiming clock F (c.param F).toNat).2
    let writes : List Event := s.channels.zipIdx.flatMap (fun (c, j) =>
      TimingField.all.map (fun F =>
        .write (s.cfg.base.toNat + F.kind.num * s.cfg.stride.toNat + 4 * j) (r F c)))
    let reports : List Diag := s.channels.zipIdx.flatMap (fun (c, j) =>
      TimingField.all.flatMap (fun F => exactReport clock F j (c.param F).toNat))
    let after : Channel → Channel := fun c => { c with
      dirsetup := p (.dur .dirsetup) c, writtenDirsetup := some (p (.dur .dirsetup) c),
      dirSetupReg := some (r (.dur .dirsetup) c),
      dirhold := p (.dur .dirhold) c, writtenDirhold := some (p (.dur .dirhold) c),
      dirHoldReg := some (r (.dur .dirhold) c),
      steplen := p (.dur .steplen) c, writtenSteplen := some (p (.dur .steplen) c),
      pulseWidthReg := some (r (.dur .steplen) c),
      stepspace := p (.dur .stepspace) c, writtenStepspace := some (p (.dur .stepspace) c),
      pulseIdleWidthReg := some (r (.dur .stepspace) c),
      stepType := p .stepType c, writtenStepType := some (p .stepType c),
      modeReg := some (r .stepType c) }
    exec .forcedResync s = .next { s with
      channels := s.channels.map after, diag := s.diag ++ reports, pc := s.pc + 1,
      wlog := s.wlog ++ (writes ++
        [.write (s.cfg.base.toNat + 9 * s.cfg.stride.toNat) 0xFFFFFFFF#32]) } ∧
    writes.length = 5 * s.n ∧
    ∀ (c : Channel) (F : TimingField), (after c).shadow F = some ((after c).param F)

/-- After FORCED_RESYNC the device holds every cache register, and all ones in the master enable,
whatever it held before (43_timing.md R224, R225; 70_reset_and_hazards.md R305). -/
def Obligations.ForcedResyncReachesTheDevice : Prop :=
  ∀ s t : State, s.configOk → exec .forcedResync s = .next t →
    t.deviceInv ∧ t.resynced ∧
    devReg t.wlog (s.cfg.base.toNat + 9 * s.cfg.stride.toNat) = some 0xFFFFFFFF#32

/-! ## The HOST agent's commands -/

/-- The SET commands store their operand, whatever it is, or the bit it gives, and nothing else
changes but `hpc` (44_host.md R241 to R252, 10_state.md R48). -/
def Obligations.HostSetsStoreTheirValue : Prop :=
  ∀ (s : State) (ch : ChanIdx) (c : Channel), s.channels[ch.toNat]? = some c →
    let put : Channel → State := fun c' =>
      { s with channels := s.channels.set ch.toNat c', hpc := s.hpc + 1 }
    (∀ v : F64,
      exec (.setPositionScale ch v) s = .next (put { c with positionScale := v }) ∧
      exec (.setMaxvel ch v) s = .next (put { c with maxvel := v }) ∧
      exec (.setMaxaccel ch v) s = .next (put { c with maxaccel := v }) ∧
      exec (.setPositionCmd ch v) s = .next (put { c with positionCmd := v }) ∧
      exec (.setVelocityCmd ch v) s = .next (put { c with velocityCmd := v })) ∧
    (∀ v : Word,
      exec (.setSteplen ch v) s = .next (put { c with steplen := v }) ∧
      exec (.setStepspace ch v) s = .next (put { c with stepspace := v }) ∧
      exec (.setDirsetup ch v) s = .next (put { c with dirsetup := v }) ∧
      exec (.setDirhold ch v) s = .next (put { c with dirhold := v }) ∧
      exec (.setStepType ch v) s = .next (put { c with stepType := v })) ∧
    exec (.setEnable ch 0#32) s = .next (put { c with enable := false }) ∧
    exec (.setEnable ch 1#32) s = .next (put { c with enable := true }) ∧
    exec (.setControlType ch 0#32) s = .next (put { c with controlType := .position }) ∧
    exec (.setControlType ch 1#32) s = .next (put { c with controlType := .velocity })

/-- HOST_READ returns the item its selector names and writes nothing but `hpc`
(30_encoding.md R116, 44_host.md R253; where the value goes is the model's, log 11). -/
def Obligations.HostReadReturnsTheItem : Prop :=
  ∀ (s : State) (ch : ChanIdx) (c : Channel) (sel : BitVec 8) (v : HostValue),
    s.channels[ch.toNat]? = some c →
    [HostValue.f64 c.positionFb, .f64 c.velocityFb, .i32 c.counts, .f64 c.dbgFfVel,
      .f64 c.dbgVelError, .f64 c.dbgSToMatch, .f64 c.dbgErrAtMatch, .i32 c.dbgStepRate,
      .f64 c.dbgPosMinusPrevCmd, .f64 c.positionScale, .f64 c.maxvel, .f64 c.maxaccel,
      .u32 c.steplen, .u32 c.stepspace, .u32 c.dirsetup, .u32 c.dirhold,
      .u32 c.stepType][sel.toNat]? = some v →
    exec (.hostRead ch sel) s =
      .next { s with hostReads := s.hostReads ++ [v], hpc := s.hpc + 1 }

/-! ## Arithmetic -/

/-- Every operation on finite operands is the exact result rounded once, to nearest with ties to
even; a sum or difference of exactly 0 is -0.0 only where both terms are, and a product or quotient
has the sign of its operands' signs. A NaN operand gives a NaN; infinities and a divisor of 0 give
what binary64 gives them (00_scope.md R14, 41_controller.md R168). -/
def Obligations.OperationsAreCorrectlyRounded : Prop :=
  (∀ x y : F64, x.isFinite = true → y.isFinite = true →
    (F64.rounded (x.val + y.val) (x.add y) ∧
      (x.val + y.val = 0 → x.add y = F64.zero (x.sign && y.sign))) ∧
    (F64.rounded (x.val - y.val) (x.sub y) ∧
      (x.val - y.val = 0 → x.sub y = F64.zero (x.sign && !y.sign))) ∧
    (F64.rounded (x.val * y.val) (x.mul y) ∧ (x.mul y).sign = (x.sign != y.sign)) ∧
    (y.val ≠ 0 → F64.rounded (x.val / y.val) (x.div y) ∧ (x.div y).sign = (x.sign != y.sign)) ∧
    (y.val = 0 → x.val ≠ 0 → x.div y = F64.inf (x.sign != y.sign)) ∧
    (y.val = 0 → x.val = 0 → (x.div y).isNaN = true)) ∧
  (∀ x y : F64, (x.isNaN = true ∨ y.isNaN = true) →
    (x.add y).isNaN = true ∧ (x.sub y).isNaN = true ∧
    (x.mul y).isNaN = true ∧ (x.div y).isNaN = true) ∧
  (∀ (x : F64) (a : Bool), x.isFinite = true →
    (F64.inf a).add x = F64.inf a ∧ x.add (F64.inf a) = F64.inf a ∧
    (F64.inf a).sub x = F64.inf a ∧ x.sub (F64.inf a) = F64.inf (!a) ∧
    (F64.inf a).div x = F64.inf (a != x.sign) ∧ x.div (F64.inf a) = F64.zero (x.sign != a) ∧
    (x.val ≠ 0 →
      (F64.inf a).mul x = F64.inf (a != x.sign) ∧ x.mul (F64.inf a) = F64.inf (x.sign != a)) ∧
    (x.val = 0 → ((F64.inf a).mul x).isNaN = true ∧ (x.mul (F64.inf a)).isNaN = true)) ∧
  ∀ a b : Bool,
    (F64.inf a).mul (F64.inf b) = F64.inf (a != b) ∧ ((F64.inf a).div (F64.inf b)).isNaN = true ∧
    (F64.inf a).add (F64.inf a) = F64.inf a ∧ ((F64.inf a).add (F64.inf (!a))).isNaN = true ∧
    (F64.inf a).sub (F64.inf (!a)) = F64.inf a ∧ ((F64.inf a).sub (F64.inf a)).isNaN = true

/-- The comparisons are those of the exact values; with a NaN all are false but `!=`; the infinities
lie outside every finite value (00_scope.md R14). -/
def Obligations.ComparisonsAreThoseOfTheValues : Prop :=
  (∀ x y : F64, x.isFinite = true → y.isFinite = true →
    (x.lt y = true ↔ x.val < y.val) ∧ (x.gt y = true ↔ y.val < x.val) ∧
    (x.feq y = true ↔ x.val = y.val) ∧ (x.fne y = true ↔ x.val ≠ y.val)) ∧
  (∀ x y : F64, (x.isNaN = true ∨ y.isNaN = true) →
    x.lt y = false ∧ x.gt y = false ∧ x.feq y = false ∧ x.fne y = true) ∧
  (∀ x : F64, x.isFinite = true →
    (F64.inf true).lt x = true ∧ x.lt (F64.inf false) = true)

/-- The conversions: `f64(n)` is the nearest value, exact up to 2^53; `trunc` is toward zero;
`round_half_away` is `floor(x + 1/2)`, exactly (00_scope.md R15). -/
def Obligations.ConversionsAreThoseOfTheRule : Prop :=
  (∀ n : Int, F64.rounded (n : ℚ) (F64.ofInt n)) ∧
  (∀ n : Int, |n| ≤ 2 ^ 53 → (F64.ofInt n).isFinite = true ∧ (F64.ofInt n).val = n) ∧
  (∀ n : Nat, F64.ofNat n = F64.ofInt (n : Int)) ∧
  (∀ x : F64, x.isFinite = true →
    x.trunc = (if 0 ≤ x.val then ⌊x.val⌋ else ⌈x.val⌉) ∧
    x.roundHalfAway.isFinite = true ∧
    x.roundHalfAway.val = ((⌊x.val⌋ + (if 1 / 2 ≤ x.val - ⌊x.val⌋ then 1 else 0) : Int) : ℚ))

/-- `clamp` gives its upper bound above it, else its lower bound below it, else the value itself:
every value that is not NaN is put between bounds that are ordered, and a NaN passes through
(00_scope.md R19). -/
def Obligations.ClampStaysBetweenItsBounds : Prop :=
  ∀ v lo hi : F64,
    (hi.lt v = true → v.clamp lo hi = hi) ∧
    (hi.lt v = false → v.lt lo = true → v.clamp lo hi = lo) ∧
    (hi.lt v = false → v.lt lo = false → v.clamp lo hi = v) ∧
    (v.isNaN = true → v.clamp lo hi = v) ∧
    (lo.isNaN = true → hi.isNaN = true → v.clamp lo hi = v) ∧
    (v.isNaN = false → lo.isNaN = false → hi.isNaN = false → hi.lt lo = false →
      (v.clamp lo hi).isNaN = false ∧ (v.clamp lo hi).lt lo = false ∧
      hi.lt (v.clamp lo hi) = false)
end

