-- ==== Sys2Proof/Laws/Decode.lean ====
section
/-! SUPPORT. The fields of a command word, the words of a binary64, and the operation codes: taking
apart undoes putting together. -/

namespace Sys2Proof

/-! ## The fields of a command word (30_encoding.md R113) -/

theorem opField_commandWord (op : Byte) (ch : ChanIdx) (sel : Byte) :
    opField (commandWord op ch sel) = op := by
  apply BitVec.eq_of_getLsbD_eq
  intro i hi
  simp only [opField, commandWord, BitVec.getLsbD_extractLsb', BitVec.getLsbD_append, hi]
  rw [if_neg (by omega), if_neg (by omega)]
  simp [show 24 + i - 8 - 16 = i by omega]

theorem chField_commandWord (op : Byte) (ch : ChanIdx) (sel : Byte) :
    chField (commandWord op ch sel) = ch := by
  apply BitVec.eq_of_getLsbD_eq
  intro i hi
  simp only [chField, commandWord, BitVec.getLsbD_extractLsb', BitVec.getLsbD_append, hi]
  rw [if_neg (by omega), if_pos (by omega)]
  simp [show 8 + i - 8 = i by omega]

theorem selField_commandWord (op : Byte) (ch : ChanIdx) (sel : Byte) :
    selField (commandWord op ch sel) = sel := by
  apply BitVec.eq_of_getLsbD_eq
  intro i hi
  simp only [selField, commandWord, BitVec.getLsbD_extractLsb', BitVec.getLsbD_append, hi]
  rw [if_pos (by omega)]
  simp

theorem commandWord_fields (w : Word) : commandWord (opField w) (chField w) (selField w) = w := by
  apply BitVec.eq_of_getLsbD_eq
  intro i hi
  simp only [opField, chField, selField, commandWord, BitVec.getLsbD_extractLsb',
    BitVec.getLsbD_append]
  split
  · simp [*]
  · split
    · simp [show 8 + (i - 8) = i by omega]; omega
    · simp [show 24 + (i - 8 - 16) = i by omega]; omega

/-! ## The words of a binary64 (R115) -/

theorem F64.words_append (x : F64) : x.hiWord ++ x.loWord = x.toBits := by
  apply BitVec.eq_of_getLsbD_eq
  intro i hi
  simp only [F64.hiWord, F64.loWord, BitVec.getLsbD_extractLsb', BitVec.getLsbD_append]
  split
  · simp [*]
  · simp [show 32 + (i - 32) = i by omega]; omega

theorem F64.ofBits_toBits (x : F64) : F64.ofBits x.toBits = x := by
  rcases x with ⟨s, e, t, f⟩
  unfold F64.ofBits F64.toBits
  simp only [F64.mk.injEq]
  refine ⟨?_, ?_, ?_, ?_⟩
  · simp only [BitVec.getLsbD_append]
    rw [if_neg (by omega), if_neg (by omega), if_neg (by omega)]
    cases s <;> rfl
  · apply BitVec.eq_of_getLsbD_eq
    intro i hi
    simp only [BitVec.getLsbD_extractLsb', BitVec.getLsbD_append, hi]
    rw [if_neg (by omega), if_neg (by omega), if_pos (by omega)]
    simp [show 52 + i - 51 - 1 = i by omega]
  · simp only [BitVec.getLsbD_append]
    rw [if_neg (by omega), if_pos (by omega)]
    cases t <;> rfl
  · apply BitVec.eq_of_getLsbD_eq
    intro i hi
    simp only [BitVec.getLsbD_extractLsb', BitVec.getLsbD_append, hi]
    rw [if_pos (by omega)]
    simp

theorem F64.toBits_ofBits (b : DWord) : (F64.ofBits b).toBits = b := by
  apply BitVec.eq_of_getLsbD_eq
  intro i hi
  unfold F64.ofBits F64.toBits
  simp only [BitVec.getLsbD_append, BitVec.getLsbD_extractLsb', BitVec.getLsbD_ofBool]
  split
  · simp [*]
  · split
    · have : i = 51 := by omega
      subst this; simp
    · split
      · simp [show 52 + (i - 51 - 1) = i by omega]; omega
      · have : i = 63 := by omega
        subst this; simp

theorem F64.ofWords_words (x : F64) : F64.ofWords x.loWord x.hiWord = x := by
  rw [F64.ofWords, F64.words_append, F64.ofBits_toBits]

theorem F64.loWord_ofWords (lo hi : Word) : (F64.ofWords lo hi).loWord = lo := by
  rw [F64.loWord, F64.ofWords, F64.toBits_ofBits]
  apply BitVec.eq_of_getLsbD_eq
  intro i hi
  simp only [BitVec.getLsbD_extractLsb', BitVec.getLsbD_append, hi]
  rw [if_pos (by omega)]
  simp

theorem F64.hiWord_ofWords (lo hi : Word) : (F64.ofWords lo hi).hiWord = hi := by
  rw [F64.hiWord, F64.ofWords, F64.toBits_ofBits]
  apply BitVec.eq_of_getLsbD_eq
  intro i hi'
  simp only [BitVec.getLsbD_extractLsb', BitVec.getLsbD_append, hi']
  rw [if_neg (by omega)]
  simp [show 32 + i - 32 = i by omega]

/-! ## The operation codes (R114) -/

theorem Op.code_inj (o p : Op) (h : o.code = p.code) : o = p := by
  cases o <;> cases p <;> first | rfl | (exact absurd h (by decide))

theorem Op.ofCode_code (o : Op) : Op.ofCode o.code = some o := by cases o <;> rfl

theorem Op.code_of_ofCode {b : Byte} {o : Op} (h : Op.ofCode b = some o) : o.code = b := by
  have := List.find?_some h
  exact beq_iff_eq.mp this

theorem Op.ofCode_eq_none (b : Byte) : Op.ofCode b = none ↔ ∀ o : Op, o.code ≠ b := by
  constructor
  · intro h o ho
    rw [← ho, Op.ofCode_code] at h
    cases h
  · intro h
    cases hb : Op.ofCode b with
    | none => rfl
    | some o => exact absurd (Op.code_of_ofCode hb) (h o)

end Sys2Proof
end

