-- ==== Sys2Proof/Laws/Float.lean ====
section
/-! SUPPORT. The arithmetic of Machine/Float.lean against exact values: what rounding gives, and
that the order of the patterns is the order of the values. -/

namespace Sys2Proof

/-! ## Patterns -/

theorem F64.mag_lt (x : F64) : x.mag < 2 ^ 63 := by
  have h1 := x.exp.isLt
  have h2 := x.frac.isLt
  have h3 : x.top.toNat ≤ 1 := Bool.toNat_le x.top
  unfold F64.mag
  omega

theorem F64.ofMag_sign (s : Bool) (m : Nat) : (F64.ofMag s m).sign = s := rfl

theorem F64.ofMag_exp (s : Bool) {m : Nat} (h : m < 2 ^ 63) :
    (F64.ofMag s m).exp.toNat = m / 2 ^ 52 := by
  simp only [F64.ofMag, BitVec.toNat_ofNat]
  omega

theorem F64.ofMag_low (s : Bool) (m : Nat) :
    (F64.ofMag s m).top.toNat * 2 ^ 51 + (F64.ofMag s m).frac.toNat = m % 2 ^ 52 := by
  have h : (F64.ofMag s m).top.toNat = m / 2 ^ 51 % 2 := by
    simp only [F64.ofMag]
    rcases Nat.mod_two_eq_zero_or_one (m / 2 ^ 51) with h | h <;> rw [h] <;> rfl
  rw [h]
  simp only [F64.ofMag, BitVec.toNat_ofNat]
  omega

theorem F64.ofMag_mag (s : Bool) {m : Nat} (h : m < 2 ^ 63) : (F64.ofMag s m).mag = m := by
  have h1 := F64.ofMag_low s m
  have h2 := F64.ofMag_exp s h
  rw [F64.mag, h2, Nat.add_assoc, h1]
  exact Nat.div_add_mod' m (2 ^ 52)

theorem F64.isFinite_iff (x : F64) : x.isFinite = true ↔ x.mag < F64.infMag := by
  have h1 := x.exp.isLt
  have h2 := x.frac.isLt
  have h3 : x.top.toNat ≤ 1 := Bool.toNat_le x.top
  have h4 : x.isFinite = true ↔ x.exp.toNat ≠ 0x7FF := by
    simp [F64.isFinite, BitVec.toNat_eq]
  rw [h4]
  unfold F64.mag F64.infMag
  omega

theorem F64.exp_eq_zero_iff (x : F64) : x.exp = 0#11 ↔ x.exp.toNat = 0 := by
  simp [BitVec.toNat_eq]

theorem F64.expo_ge (x : F64) : -1074 ≤ x.expo := by
  have h0 := x.exp_eq_zero_iff
  unfold F64.expo
  split
  · exact le_refl _
  · rename_i h
    have : x.exp.toNat ≠ 0 := fun h' => h (h0.mpr h')
    omega

theorem F64.mant_lt (x : F64) : x.mant < 2 ^ 53 := by
  have h2 := x.frac.isLt
  have h3 : x.top.toNat ≤ 1 := Bool.toNat_le x.top
  unfold F64.mant
  split <;> omega

theorem F64.mant_ge (x : F64) (h : x.expo ≠ -1074) : 2 ^ 52 ≤ x.mant := by
  unfold F64.expo at h
  unfold F64.mant
  split
  · simp_all
  · omega

/-- Bits 62 to 0 are the exponent and the integer of the value, side by side. -/
theorem F64.mag_eq (x : F64) : x.mag = (x.expo + 1074).toNat * 2 ^ 52 + x.mant := by
  have h0 := x.exp_eq_zero_iff
  unfold F64.mag F64.expo F64.mant
  split
  · rename_i h
    have := h0.mp h
    omega
  · rename_i h
    have : x.exp.toNat ≠ 0 := fun h' => h (h0.mpr h')
    omega

/-- The exponent and the integer of the value that rounding makes. -/
theorem F64.ofMag_parts (s : Bool) {q : Int} {n : Nat} (hq : -1074 ≤ q) (hn : n ≤ 2 ^ 53)
    (hn' : q ≠ -1074 → 2 ^ 52 ≤ n) (hm : (q + 1074).toNat * 2 ^ 52 + n < F64.infMag) :
    let x := F64.ofMag s ((q + 1074).toNat * 2 ^ 52 + n)
    (x.mant = n ∧ x.expo = q) ∨ (n = 2 ^ 53 ∧ x.mant = 2 ^ 52 ∧ x.expo = q + 1) := by
  intro x
  have hlt : (q + 1074).toNat * 2 ^ 52 + n < 2 ^ 63 := lt_trans hm (by decide)
  have h1 : x.mag = (q + 1074).toNat * 2 ^ 52 + n := F64.ofMag_mag s hlt
  have h2 := x.mag_eq
  have h3 := x.mant_lt
  have h4 := x.mant_ge
  have h5 := x.expo_ge
  omega

theorem F64.val_ofMag (s : Bool) {q : Int} {n : Nat} (hq : -1074 ≤ q) (hn : n ≤ 2 ^ 53)
    (hn' : q ≠ -1074 → 2 ^ 52 ≤ n) (hm : (q + 1074).toNat * 2 ^ 52 + n < F64.infMag) :
    (F64.ofMag s ((q + 1074).toNat * 2 ^ 52 + n)).val =
      (if s then -1 else 1) * (n : ℚ) * (2 : ℚ) ^ q := by
  have h := F64.ofMag_parts s hq hn hn' hm
  unfold F64.val
  rw [F64.ofMag_sign]
  rcases h with ⟨h1, h2⟩ | ⟨h0, h1, h2⟩
  · rw [h1, h2]
  · rw [h1, h2, h0, zpow_add₀ (by norm_num)]
    push_cast
    ring

/-! ## Rounding an integer multiple of a power of two -/

/-- The rounded integer is as near to the quotient as any integer, and even where another is as near. -/
theorem roundShift_nearest_int (m sh : Nat) (k : Int) :
    |(m : Int) - (roundShift m sh : Int) * 2 ^ sh| ≤ |(m : Int) - k * 2 ^ sh| ∧
    (|(m : Int) - (roundShift m sh : Int) * 2 ^ sh| = |(m : Int) - k * 2 ^ sh| →
      k = (roundShift m sh : Int) ∨ roundShift m sh % 2 = 0) := by
  have e : ((2 : Int) ^ sh) = ((2 ^ sh : Nat) : Int) := by push_cast; rfl
  have hd0 : 0 < 2 ^ sh := by positivity
  have hm : 2 ^ sh * (m / 2 ^ sh) + m % 2 ^ sh = m := Nat.div_add_mod m (2 ^ sh)
  have hr : m % 2 ^ sh < 2 ^ sh := Nat.mod_lt m hd0
  have hs : roundShift m sh =
      if 2 ^ sh < 2 * (m % 2 ^ sh) || (2 ^ sh == 2 * (m % 2 ^ sh) && m / 2 ^ sh % 2 == 1)
      then m / 2 ^ sh + 1 else m / 2 ^ sh := rfl
  rw [e]
  generalize 2 ^ sh = d at *
  generalize m / d = q at *
  generalize m % d = r at *
  have hmz : (m : Int) = d * q + r := by exact_mod_cast hm.symm
  have hk : (m : Int) - k * d = (q - k) * d + r := by rw [hmz]; ring
  rw [hk]
  have hmul : k ≤ q - 1 ∨ k = q ∨ k = q + 1 ∨ q + 2 ≤ k := by omega
  have hcase : ∀ x : Int, (x = q ∨ x = q + 1) → (m : Int) - x * d = (q - x) * d + r := by
    intro x _; rw [hmz]; ring
  have h1 : k ≤ q - 1 → (d : Int) ≤ (q - k) * d := fun h => by nlinarith
  have h2 : q + 2 ≤ k → (q - k) * (d : Int) ≤ -(2 * d) := fun h => by nlinarith
  have h3 : k = q → (q - k) * (d : Int) = 0 := fun h => by rw [h]; ring
  have h4 : k = q + 1 → (q - k) * (d : Int) = -d := fun h => by rw [h]; ring
  generalize (q - k) * (d : Int) = t at *
  have hv : (m : Int) - (roundShift m sh : Int) * d =
      if roundShift m sh = q then (r : Int) else (r : Int) - d := by
    rw [hs]
    split
    · rw [if_neg (by omega), hmz]; push_cast; ring
    · rw [if_pos rfl, hmz]; ring
  rw [hv]
  simp only [Bool.or_eq_true, decide_eq_true_eq, Bool.and_eq_true, beq_iff_eq] at hs
  generalize roundShift m sh = w at *
  split at hs <;> rename_i hc <;> subst hs
  · rw [if_neg (by omega)]
    rw [abs_of_nonpos (by omega)]
    rcases abs_cases (t + (r : Int)) with ⟨ha, _⟩ | ⟨ha, _⟩ <;> rw [ha] <;> omega
  · rw [if_pos rfl]
    rw [abs_of_nonneg (by omega)]
    rcases abs_cases (t + (r : Int)) with ⟨ha, _⟩ | ⟨ha, _⟩ <;> rw [ha] <;> omega

theorem zpow_split {a b : Int} (h : a ≤ b) :
    (2 : ℚ) ^ b = (2 : ℚ) ^ a * ((2 ^ (b - a).toNat : Nat) : ℚ) := by
  obtain ⟨n, rfl⟩ : ∃ n : Nat, b = a + n := ⟨(b - a).toNat, by omega⟩
  rw [zpow_add₀ (by norm_num), zpow_natCast, add_sub_cancel_left, Int.toNat_natCast]
  push_cast
  rfl

/-- The integer of the rounded magnitude at the last place `q`. -/
def lastInt (m : Nat) (e q : Int) : Nat :=
  if e ≤ q then roundShift m (q - e).toNat else m * 2 ^ (e - q).toNat

theorem lastInt_nearest (m : Nat) (e q : Int) (k : Int) :
    |(m : ℚ) * 2 ^ e - (lastInt m e q : ℚ) * 2 ^ q| ≤ |(m : ℚ) * 2 ^ e - k * 2 ^ q| ∧
    (|(m : ℚ) * 2 ^ e - (lastInt m e q : ℚ) * 2 ^ q| = |(m : ℚ) * 2 ^ e - k * 2 ^ q| →
      k = (lastInt m e q : Int) ∨ lastInt m e q % 2 = 0) := by
  unfold lastInt
  split
  · rename_i h
    have h1 := roundShift_nearest_int m (q - e).toNat k
    generalize roundShift m (q - e).toNat = w at *
    have hp : (0 : ℚ) < 2 ^ e := by positivity
    have key : ∀ z : Int, |(m : ℚ) * 2 ^ e - z * 2 ^ q| =
        2 ^ e * ((|(m : Int) - z * 2 ^ (q - e).toNat| : Int) : ℚ) := by
      intro z
      rw [zpow_split h, show (m : ℚ) * 2 ^ e - z * (2 ^ e * ((2 ^ (q - e).toNat : Nat) : ℚ)) =
        2 ^ e * (m - z * ((2 ^ (q - e).toNat : Nat) : ℚ)) by ring, abs_mul, abs_of_pos hp]
      push_cast
      rfl
    have hw : (w : ℚ) = ((w : Int) : ℚ) := by push_cast; rfl
    rw [hw, key, key, mul_le_mul_iff_right₀ hp, mul_right_inj' (ne_of_gt hp)]
    exact_mod_cast h1
  · rename_i h
    have h2 : (m : ℚ) * 2 ^ e - ((m * 2 ^ (e - q).toNat : Nat) : ℚ) * 2 ^ q = 0 := by
      rw [zpow_split (show q ≤ e by omega)]
      push_cast
      ring
    rw [h2, abs_zero]
    refine ⟨abs_nonneg _, fun h3 => Or.inl ?_⟩
    have h4 : (m : ℚ) * 2 ^ e - k * 2 ^ q = 0 := abs_eq_zero.mp h3.symm
    have h5 : ((m * 2 ^ (e - q).toNat : Nat) : ℚ) * 2 ^ q = k * 2 ^ q := by linarith
    have h6 := mul_right_cancel₀ (by positivity) h5
    exact_mod_cast h6.symm

theorem roundMag_eq {m : Nat} (hm : m ≠ 0) (e : Int) :
    roundMag m e = min ((lastPlace m e + 1074).toNat * 2 ^ 52 + lastInt m e (lastPlace m e))
      F64.infMag := by
  unfold roundMag lastInt
  rw [if_neg hm]

theorem pow_log2 {m : Nat} (hm : m ≠ 0) : 2 ^ Nat.log2 m ≤ m ∧ m < 2 ^ (Nat.log2 m + 1) :=
  ⟨Nat.log2_self_le hm, Nat.lt_log2_self⟩

/-- The value at its last place: between 2^52 and 2^53 of them but in the subnormal range. -/
theorem value_range {m : Nat} (hm : m ≠ 0) (e : Int) :
    (m : ℚ) * 2 ^ e < 2 ^ 53 * 2 ^ lastPlace m e ∧
    (lastPlace m e ≠ -1074 → (2 : ℚ) ^ 52 * 2 ^ lastPlace m e ≤ (m : ℚ) * 2 ^ e) := by
  obtain ⟨h1, h2⟩ := pow_log2 hm
  have h1' : (2 : ℚ) ^ (Nat.log2 m) ≤ m := by exact_mod_cast h1
  have h2' : (m : ℚ) < (2 : ℚ) ^ (Nat.log2 m + 1) := by exact_mod_cast h2
  have hp : (0 : ℚ) < 2 ^ e := by positivity
  constructor
  · calc (m : ℚ) * 2 ^ e < (2 : ℚ) ^ (Nat.log2 m + 1) * 2 ^ e := by gcongr
      _ = (2 : ℚ) ^ ((Nat.log2 m : Int) + 1 + e) := by
        rw [zpow_add₀ (by norm_num)]; norm_cast
      _ ≤ (2 : ℚ) ^ (53 + lastPlace m e) := by
        apply zpow_le_zpow_right₀ (by norm_num); unfold lastPlace; omega
      _ = 2 ^ 53 * 2 ^ lastPlace m e := by rw [zpow_add₀ (by norm_num)]; norm_cast
  · intro h
    calc (2 : ℚ) ^ 52 * 2 ^ lastPlace m e = (2 : ℚ) ^ (52 + lastPlace m e) := by
          rw [zpow_add₀ (by norm_num)]; norm_cast
      _ = (2 : ℚ) ^ ((Nat.log2 m : Int) + e) := by congr 1; unfold lastPlace at *; omega
      _ = (2 : ℚ) ^ (Nat.log2 m) * 2 ^ e := by rw [zpow_add₀ (by norm_num)]; norm_cast
      _ ≤ (m : ℚ) * 2 ^ e := by gcongr

/-- `n` places of exponent `q` are the nearest to `v`, an even number where two are as near, and `q` is
the exponent of the last place of the binary64 values around `v`. -/
structure AtPlace (v : ℚ) (q : Int) (n : Nat) : Prop where
  ge    : -1074 ≤ q
  upper : v < 2 ^ 53 * 2 ^ q
  lower : q ≠ -1074 → (2 : ℚ) ^ 52 * 2 ^ q ≤ v
  near  : ∀ k : Int, |v - n * 2 ^ q| ≤ |v - k * 2 ^ q| ∧
    (|v - n * 2 ^ q| = |v - k * 2 ^ q| → k = (n : Int) ∨ n % 2 = 0)

theorem atPlace_lastInt {m : Nat} (hm : m ≠ 0) (e : Int) :
    AtPlace ((m : ℚ) * 2 ^ e) (lastPlace m e) (lastInt m e (lastPlace m e)) :=
  { ge := by unfold lastPlace; omega
    upper := (value_range hm e).1
    lower := (value_range hm e).2
    near := lastInt_nearest m e (lastPlace m e) }

theorem AtPlace.range {v : ℚ} {q : Int} {n : Nat} (h : AtPlace v q n) :
    n ≤ 2 ^ 53 ∧ (q ≠ -1074 → 2 ^ 52 ≤ n) := by
  have h1 := h.upper
  have hp : (0 : ℚ) < 2 ^ q := by positivity
  constructor
  · by_contra hc
    have h3 := (h.near (2 ^ 53)).1
    rw [show (((2 ^ 53 : Int)) : ℚ) = 2 ^ 53 by norm_num] at h3
    have h4 : ((2 : ℚ) ^ 53 + 1) ≤ n := by
      have : 2 ^ 53 + 1 ≤ n := by omega
      exact_mod_cast this
    have h5 : ((2 : ℚ) ^ 53 + 1) * 2 ^ q ≤ n * 2 ^ q := by gcongr
    rw [abs_of_nonpos (by linarith), abs_of_nonpos (by linarith)] at h3
    linarith
  · intro hq
    by_contra hc
    have h6 := h.lower hq
    have h3 := (h.near (2 ^ 52)).1
    rw [show (((2 ^ 52 : Int)) : ℚ) = 2 ^ 52 by norm_num] at h3
    have h4 : (n : ℚ) ≤ (2 : ℚ) ^ 52 - 1 := by
      have h' : ((n + 1 : Nat) : ℚ) ≤ ((2 ^ 52 : Nat) : ℚ) := by exact_mod_cast Nat.not_le.mp hc
      push_cast at h'
      linarith
    have h5 : (n : ℚ) * 2 ^ q ≤ ((2 : ℚ) ^ 52 - 1) * 2 ^ q := by gcongr
    rw [abs_of_nonneg (by linarith), abs_of_nonneg (by linarith)] at h3
    linarith

/-- A finite value is a whole number of the places `q`, or lies below 2^52 of them. -/
theorem F64.val_at (y : F64) (q : Int) :
    (∃ k : Int, y.val = k * (2 : ℚ) ^ q) ∨ (|y.val| < 2 ^ 52 * (2 : ℚ) ^ q ∧ q ≠ -1074) := by
  by_cases h : q ≤ y.expo
  · left
    refine ⟨(if y.sign then -1 else 1) * y.mant * 2 ^ (y.expo - q).toNat, ?_⟩
    unfold F64.val
    rw [zpow_split h]
    push_cast
    split <;> ring
  · right
    have h1 := y.mant_lt
    have h2 := y.expo_ge
    refine ⟨?_, by omega⟩
    have h3 : |y.val| = (y.mant : ℚ) * 2 ^ y.expo := by
      unfold F64.val
      have : (0 : ℚ) ≤ (y.mant : ℚ) * 2 ^ y.expo := by positivity
      split
      · rw [show (-1 : ℚ) * y.mant * 2 ^ y.expo = -((y.mant : ℚ) * 2 ^ y.expo) by ring, abs_neg,
          abs_of_nonneg this]
      · rw [one_mul, abs_of_nonneg this]
    rw [h3]
    have h1' : (y.mant : ℚ) < (2 : ℚ) ^ 53 := by exact_mod_cast h1
    calc (y.mant : ℚ) * 2 ^ y.expo < (2 : ℚ) ^ 53 * 2 ^ y.expo := by gcongr
      _ ≤ (2 : ℚ) ^ 53 * 2 ^ (q - 1) := by
        gcongr
        · norm_num
        · omega
      _ = 2 ^ 52 * (2 : ℚ) ^ q := by rw [zpow_sub₀ (by norm_num)]; ring

/-- A magnitude with a sign. -/
def signed (s : Bool) (v : ℚ) : ℚ := (if s then -1 else 1) * v

theorem signed_sub_abs (s : Bool) (v w : ℚ) : |signed s v - signed s w| = |v - w| := by
  cases s
  · simp [signed]
  · simp only [signed, if_true]
    rw [show -1 * v - -1 * w = -(v - w) by ring, abs_neg]

/-- The binary64 value at a place: its magnitude bits, up to an infinity's. -/
def F64.atPlace (s : Bool) (q : Int) (n : Nat) : F64 :=
  F64.ofMag s (min ((q + 1074).toNat * 2 ^ 52 + n) F64.infMag)

theorem F64.atPlace_mag (s : Bool) (q : Int) (n : Nat) :
    (F64.atPlace s q n).mag = min ((q + 1074).toNat * 2 ^ 52 + n) F64.infMag :=
  F64.ofMag_mag s (lt_of_le_of_lt (min_le_right _ _) (by decide))

theorem F64.round_eq_atPlace (s : Bool) {m : Nat} (hm : m ≠ 0) (e : Int) :
    F64.round s m e = F64.atPlace s (lastPlace m e) (lastInt m e (lastPlace m e)) := by
  rw [F64.round, roundMag_eq hm, F64.atPlace]

theorem AtPlace.parts {v : ℚ} {q : Int} {n : Nat} (h : AtPlace v q n) (s : Bool)
    (hf : (F64.atPlace s q n).isFinite = true) :
    (F64.atPlace s q n).val = signed s (n * 2 ^ q) ∧
    (n % 2 = 0 → (F64.atPlace s q n).mant % 2 = 0) := by
  obtain ⟨hn, hn'⟩ := h.range
  have hfin := (F64.isFinite_iff _).mp hf
  rw [F64.atPlace_mag] at hfin
  have hin : (q + 1074).toNat * 2 ^ 52 + n < F64.infMag := by
    rcases min_lt_iff.mp hfin with h | h
    · exact h
    · exact absurd h (lt_irrefl _)
  have he : F64.atPlace s q n = F64.ofMag s ((q + 1074).toNat * 2 ^ 52 + n) := by
    rw [F64.atPlace, min_eq_left (le_of_lt hin)]
  rw [he]
  refine ⟨?_, ?_⟩
  · rw [F64.val_ofMag s h.ge hn hn' hin]; unfold signed; ring
  · intro hev
    rcases F64.ofMag_parts s h.ge hn hn' hin with ⟨h1, _⟩ | ⟨_, h1, _⟩
    · rw [h1]; exact hev
    · rw [h1]; decide

/-- The nearest number of last places is the nearest of all finite values. -/
theorem AtPlace.nearest {v : ℚ} {q : Int} {n : Nat} (h : AtPlace v q n) (s : Bool)
    (hf : (F64.atPlace s q n).isFinite = true) :
    F64.nearest (signed s v) (F64.atPlace s q n) := by
  refine ⟨hf, fun y hy => ?_⟩
  obtain ⟨hv, hev⟩ := h.parts s hf
  have hlo := h.upper
  have hhi := h.lower
  rw [hv, signed_sub_abs]
  obtain ⟨z, hz1, hz2⟩ : ∃ z : ℚ, signed s z = y.val ∧ |z| = |y.val| := by
    refine ⟨signed s y.val, ?_, ?_⟩
    · unfold signed; cases s <;> simp
    · unfold signed; cases s <;> simp
  rw [← hz1, signed_sub_abs]
  have near := h.near
  have hp : (0 : ℚ) < 2 ^ q := by positivity
  rcases y.val_at q with ⟨k, hk⟩ | ⟨hlt, hne⟩
  · obtain ⟨k', hk'⟩ : ∃ k' : Int, z = k' * (2 : ℚ) ^ q := by
      cases s
      · exact ⟨k, by rw [← hk, ← hz1]; simp [signed]⟩
      · refine ⟨-k, ?_⟩
        push_cast
        rw [neg_mul, ← hk, ← hz1]
        simp [signed]
    rw [hk']
    obtain ⟨h1, h2⟩ := near k'
    refine ⟨h1, fun h => ?_⟩
    rcases h2 h with h3 | h3
    · left; rw [h3]; push_cast; rfl
    · right; exact hev h3
  · have h52 := hhi hne
    have hz : |z| < 2 ^ 52 * (2 : ℚ) ^ q := by rw [hz2]; exact hlt
    have h1 := (near (2 ^ 52)).1
    rw [show (((2 ^ 52 : Int)) : ℚ) = 2 ^ 52 by norm_num] at h1
    rw [abs_of_nonneg (a := v - 2 ^ 52 * 2 ^ q) (by linarith)] at h1
    have hz' := (abs_lt.mp hz).2
    rw [abs_of_nonneg (a := v - z) (by linarith)]
    exact ⟨by linarith, fun h => by linarith⟩

/-- It is finite exactly below half a last place past the largest finite value. -/
theorem AtPlace.finite_iff {v : ℚ} {q : Int} {n : Nat} (h : AtPlace v q n) (s : Bool) :
    (F64.atPlace s q n).isFinite = true ↔ v < ((2 : ℚ) ^ 54 - 1) * 2 ^ (970 : Int) := by
  obtain ⟨hn, hn'⟩ := h.range
  rw [F64.isFinite_iff, F64.atPlace_mag]
  have hlo := h.upper
  have hhi := h.lower
  have near := h.near
  have hge := h.ge
  have hin : min ((q + 1074).toNat * 2 ^ 52 + n) F64.infMag < F64.infMag ↔
      (q ≤ 970 ∨ (q = 971 ∧ n < 2 ^ 53)) := by
    have : F64.infMag = 2047 * 2 ^ 52 := rfl
    rw [this]
    omega
  rw [hin]
  clear h
  rcases lt_trichotomy q 971 with h | h | h
  · refine iff_of_true (Or.inl (by omega)) (lt_trans hlo ?_)
    have h1 : (2 : ℚ) ^ q ≤ 2 ^ (970 : Int) := zpow_le_zpow_right₀ (by norm_num) (by omega)
    have hp : (0 : ℚ) < 2 ^ (970 : Int) := by positivity
    calc (2 : ℚ) ^ 53 * 2 ^ q ≤ 2 ^ 53 * 2 ^ (970 : Int) := by gcongr
      _ < _ := by
        generalize (2 : ℚ) ^ (970 : Int) = p at *
        norm_num
        linarith
  · subst h
    have e1 : (2 : ℚ) ^ (971 : Int) = 2 * 2 ^ (970 : Int) := by
      rw [show (971 : Int) = 1 + 970 by norm_num, zpow_add₀ (by norm_num)]; norm_num
    have hp : (0 : ℚ) < 2 ^ (970 : Int) := by positivity
    rw [e1] at near hlo hhi
    generalize (2 : ℚ) ^ (970 : Int) = p at *
    constructor
    · rintro (h | ⟨-, h⟩)
      · omega
      · obtain ⟨h1, h2⟩ := near (2 ^ 53)
        rw [show (((2 ^ 53 : Int)) : ℚ) = 2 ^ 53 by norm_num] at h1 h2
        have hnq : (n : ℚ) ≤ 2 ^ 53 - 1 := by
          have h' : ((n : ℚ) + 1) ≤ 2 ^ 53 := by exact_mod_cast (h : n + 1 ≤ 2 ^ 53)
          linarith
        rw [abs_of_nonpos (a := v - 2 ^ 53 * (2 * p)) (by linarith)] at h1 h2
        have hle := neg_abs_le (v - n * (2 * p))
        have hle2 := le_abs_self (v - n * (2 * p))
        have hnp : (n : ℚ) * (2 * p) ≤ (2 ^ 53 - 1) * (2 * p) := by gcongr
        by_contra hc
        have hge : (2 ^ 54 - 1) * p ≤ v := by linarith
        have heq : |v - n * (2 * p)| = -(v - 2 ^ 53 * (2 * p)) := by linarith
        rcases h2 heq with h3 | h3
        · have : (2 : Int) ^ 53 = n := h3
          omega
        · have h4 : (n : ℚ) * (2 * p) = (2 ^ 53 - 1) * (2 * p) := by linarith
          have h5 : (n : ℚ) = 2 ^ 53 - 1 := mul_right_cancel₀ (by positivity) h4
          have h6 : (n : ℚ) + 1 = 2 ^ 53 := by linarith
          have h7 : n + 1 = 2 ^ 53 := by exact_mod_cast h6
          omega
    · intro hv
      right
      refine ⟨rfl, ?_⟩
      by_contra hc
      have hn53 : n = 2 ^ 53 := by omega
      have h1 := (near (2 ^ 53 - 1)).1
      rw [hn53, show (((2 ^ 53 - 1 : Int)) : ℚ) = 2 ^ 53 - 1 by norm_num,
        show (((2 ^ 53 : Nat)) : ℚ) = 2 ^ 53 by norm_num] at h1
      rw [abs_of_nonpos (a := v - 2 ^ 53 * (2 * p)) (by linarith only [hv, hp])] at h1
      rcases abs_cases (v - (2 ^ 53 - 1) * (2 * p)) with ⟨ha, _⟩ | ⟨ha, _⟩ <;> rw [ha] at h1 <;>
        linarith only [h1, hv, hp]
  · refine iff_of_false (by omega) (not_lt.mpr (le_trans ?_ (hhi (by omega))))
    have h1 : (2 : ℚ) ^ (972 : Int) ≤ 2 ^ q := zpow_le_zpow_right₀ (by norm_num) (by omega)
    have e1 : (2 : ℚ) ^ (972 : Int) = 4 * 2 ^ (970 : Int) := by
      rw [show (972 : Int) = 2 + 970 by norm_num, zpow_add₀ (by norm_num)]; norm_num
    have hp : (0 : ℚ) < 2 ^ (970 : Int) := by positivity
    rw [e1] at h1
    generalize (2 : ℚ) ^ (970 : Int) = p at *
    have h3 := mul_le_mul_of_nonneg_left h1 (show (0 : ℚ) ≤ 2 ^ 52 by positivity)
    linarith only [h3, hp]

theorem F64.infMag_eq : F64.infMag = 2047 * 2 ^ 52 := rfl

theorem F64.isNaN_iff (x : F64) : x.isNaN = true ↔ F64.infMag < x.mag := by
  rcases x with ⟨sg, e, t, f⟩
  have he := e.isLt
  have hf := f.isLt
  have ht : t.toNat ≤ 1 := Bool.toNat_le t
  have h1 : (e = 0x7FF#11) ↔ e.toNat = 2047 := by simp [BitVec.toNat_eq]
  have h2 : (f = 0#51) ↔ f.toNat = 0 := by simp [BitVec.toNat_eq]
  have h3 : t = true ↔ t.toNat = 1 := by cases t <;> simp
  simp only [F64.isNaN, F64.mag, F64.infMag, Bool.and_eq_true, beq_iff_eq, Bool.or_eq_true,
    bne_iff_ne, ne_eq, h1, h2, h3]
  omega

theorem F64.isInf_iff (x : F64) : x.isInf = true ↔ x.mag = F64.infMag := by
  have h1 := x.isNaN_iff
  have h2 := x.isFinite_iff
  have h3 : x.isInf = (!x.isFinite && !x.isNaN) := by
    unfold F64.isInf F64.isFinite F64.isNaN
    simp only [bne]
    cases x.exp == 0x7FF#11 <;> cases (x.top || !(x.frac == 0#51)) <;> rfl
  rw [h3]
  simp only [Bool.and_eq_true, Bool.not_eq_true']
  rw [← Bool.not_eq_true, ← Bool.not_eq_true, h1, h2]
  omega

theorem F64.not_isNaN_of_isFinite {x : F64} (h : x.isFinite = true) : x.isNaN = false := by
  rw [← Bool.not_eq_true, F64.isNaN_iff]
  have := x.isFinite_iff.mp h
  omega

theorem F64.isInf_of {x : F64} (h1 : x.isFinite = false) (h2 : x.isNaN = false) :
    x.isInf = true := by
  rw [F64.isInf_iff]
  rw [← Bool.not_eq_true, F64.isFinite_iff] at h1
  rw [← Bool.not_eq_true, F64.isNaN_iff] at h2
  omega

/-- A value is its sign and its magnitude bits. -/
theorem F64.ext_mag {x y : F64} (hs : x.sign = y.sign) (hm : x.mag = y.mag) : x = y := by
  rcases x with ⟨sx, ex, tx, fx⟩
  rcases y with ⟨sy, ey, ty, fy⟩
  have h1 := ex.isLt
  have h2 := fx.isLt
  have h3 : tx.toNat ≤ 1 := Bool.toNat_le tx
  have h4 := ey.isLt
  have h5 := fy.isLt
  have h6 : ty.toNat ≤ 1 := Bool.toNat_le ty
  simp only [F64.mag] at hm
  simp only at hs
  subst hs
  have e1 : ex = ey := BitVec.eq_of_toNat_eq (by omega)
  have e2 : fx = fy := BitVec.eq_of_toNat_eq (by omega)
  have e3 : tx = ty := by
    have : tx.toNat = ty.toNat := by omega
    cases tx <;> cases ty <;> simp_all
  rw [e1, e2, e3]

@[simp] theorem F64.neg_mag (x : F64) : x.neg.mag = x.mag := rfl
@[simp] theorem F64.abs_mag (x : F64) : x.abs.mag = x.mag := rfl
@[simp] theorem F64.neg_sign (x : F64) : x.neg.sign = !x.sign := rfl
@[simp] theorem F64.abs_sign (x : F64) : x.abs.sign = false := rfl
@[simp] theorem F64.neg_mant (x : F64) : x.neg.mant = x.mant := rfl
@[simp] theorem F64.abs_mant (x : F64) : x.abs.mant = x.mant := rfl
@[simp] theorem F64.neg_expo (x : F64) : x.neg.expo = x.expo := rfl
@[simp] theorem F64.abs_expo (x : F64) : x.abs.expo = x.expo := rfl
@[simp] theorem F64.neg_isNaN (x : F64) : x.neg.isNaN = x.isNaN := rfl
@[simp] theorem F64.abs_isNaN (x : F64) : x.abs.isNaN = x.isNaN := rfl
@[simp] theorem F64.neg_isInf (x : F64) : x.neg.isInf = x.isInf := rfl
@[simp] theorem F64.abs_isInf (x : F64) : x.abs.isInf = x.isInf := rfl
@[simp] theorem F64.neg_isFinite (x : F64) : x.neg.isFinite = x.isFinite := rfl
@[simp] theorem F64.abs_isFinite (x : F64) : x.abs.isFinite = x.isFinite := rfl
@[simp] theorem F64.neg_neg (x : F64) : x.neg.neg = x := by
  rcases x with ⟨s, e, t, f⟩; simp [F64.neg]
@[simp] theorem F64.neg_isZero (x : F64) : x.neg.isZero = x.isZero := rfl
@[simp] theorem F64.neg_key (x : F64) : x.neg.key = -x.key := by
  unfold F64.key
  rw [F64.neg_sign, F64.neg_mag]
  cases x.sign <;> simp

theorem F64.abs_key (x : F64) : x.abs.key = |x.key| := by
  unfold F64.key
  rw [F64.abs_sign, F64.abs_mag]
  cases x.sign <;> simp

theorem F64.zeroLit_key : F64.zeroLit.key = 0 := by decide
theorem F64.zeroLit_isNaN : F64.zeroLit.isNaN = false := by decide

theorem F64.nanOf_isNaN (op : FloatOp) (x y : F64) : (F64.nanOf op x y).isNaN = true := rfl

/-! ## The order of the patterns is the order of the values -/

theorem F64.abs_val (x : F64) : |x.val| = (x.mant : ℚ) * 2 ^ x.expo := by
  have h : (0 : ℚ) ≤ (x.mant : ℚ) * 2 ^ x.expo := by positivity
  unfold F64.val
  split
  · rw [show (-1 : ℚ) * x.mant * 2 ^ x.expo = -((x.mant : ℚ) * 2 ^ x.expo) by ring, abs_neg,
      abs_of_nonneg h]
  · rw [one_mul, abs_of_nonneg h]

theorem F64.val_eq_signed (x : F64) : x.val = signed x.sign ((x.mant : ℚ) * 2 ^ x.expo) := by
  unfold F64.val signed
  rw [mul_assoc]

theorem F64.neg_val (x : F64) : x.neg.val = -x.val := by
  unfold F64.val
  rw [F64.neg_sign, F64.neg_mant, F64.neg_expo]
  cases x.sign <;> simp

theorem F64.abs_val_eq (x : F64) : x.abs.val = |x.val| := by
  rw [x.abs_val, F64.val_eq_signed]
  simp [signed]

/-- Magnitude bits order as the magnitudes of the values do. -/
theorem F64.mag_lt_iff (x y : F64) :
    x.mag < y.mag ↔ (x.mant : ℚ) * 2 ^ x.expo < (y.mant : ℚ) * 2 ^ y.expo := by
  have key : ∀ x y : F64, x.expo < y.expo →
      x.mag < y.mag ∧ (x.mant : ℚ) * 2 ^ x.expo < (y.mant : ℚ) * 2 ^ y.expo := by
    intro x y h
    have h1 := x.mag_eq
    have h2 := y.mag_eq
    have h3 := x.mant_lt
    have h4 := x.expo_ge
    have h5 := y.mant_ge (by omega)
    refine ⟨by omega, ?_⟩
    have h3' : (x.mant : ℚ) < (2 : ℚ) ^ 53 := by exact_mod_cast h3
    have h5' : (2 : ℚ) ^ 52 ≤ (y.mant : ℚ) := by exact_mod_cast h5
    calc (x.mant : ℚ) * 2 ^ x.expo < (2 : ℚ) ^ 53 * 2 ^ x.expo := by gcongr
      _ = 2 ^ 52 * (2 : ℚ) ^ (x.expo + 1) := by rw [zpow_add₀ (by norm_num)]; ring
      _ ≤ 2 ^ 52 * (2 : ℚ) ^ y.expo := by
        gcongr
        · norm_num
        · omega
      _ ≤ (y.mant : ℚ) * 2 ^ y.expo := by gcongr
  rcases lt_trichotomy x.expo y.expo with h | h | h
  · exact iff_of_true (key x y h).1 (key x y h).2
  · have h1 := x.mag_eq
    have h2 := y.mag_eq
    rw [h, mul_lt_mul_iff_left₀ (by positivity), h1, h2, h]
    constructor
    · intro h3
      have : x.mant < y.mant := by omega
      exact_mod_cast this
    · intro h3
      have : x.mant < y.mant := by exact_mod_cast h3
      omega
  · exact iff_of_false (not_lt.mpr (le_of_lt (key y x h).1)) (not_lt.mpr (le_of_lt (key y x h).2))

theorem F64.mag_eq_zero_iff (x : F64) : x.mag = 0 ↔ (x.mant : ℚ) * 2 ^ x.expo = 0 := by
  have h1 := x.mag_eq
  have h2 := x.expo_ge
  have h3 := x.mant_ge
  have hp : (2 : ℚ) ^ x.expo ≠ 0 := by positivity
  rw [mul_eq_zero, or_iff_left hp, Nat.cast_eq_zero]
  by_cases h : x.expo = -1074
  · omega
  · have := h3 h
    omega

/-- The order of two patterns is the order of their values. -/
theorem F64.key_lt_iff (x y : F64) : x.key < y.key ↔ x.val < y.val := by
  have h1 := F64.mag_lt_iff x y
  have h2 := F64.mag_lt_iff y x
  have hx := x.mag_eq_zero_iff
  have hy := y.mag_eq_zero_iff
  have px : (0 : ℚ) ≤ (x.mant : ℚ) * 2 ^ x.expo := by positivity
  have py : (0 : ℚ) ≤ (y.mant : ℚ) * 2 ^ y.expo := by positivity
  rw [F64.val_eq_signed, F64.val_eq_signed]
  unfold F64.key signed
  generalize (x.mant : ℚ) * 2 ^ x.expo = a at *
  generalize (y.mant : ℚ) * 2 ^ y.expo = b at *
  cases x.sign <;> cases y.sign <;> simp only [if_true, one_mul, Bool.false_eq_true, if_false]
  · rw [← h1]; omega
  · refine iff_of_false (by omega) (by linarith)
  · constructor
    · intro h
      have : ¬ (x.mag = 0 ∧ y.mag = 0) := by omega
      rw [hx, hy] at this
      rcases not_and_or.mp this with h | h
      · have := lt_of_le_of_ne px (Ne.symm h); linarith
      · have := lt_of_le_of_ne py (Ne.symm h); linarith
    · intro h
      have : ¬ (a = 0 ∧ b = 0) := by rintro ⟨rfl, rfl⟩; simp at h
      rw [← hx, ← hy] at this
      omega
  · rw [show -1 * a < -1 * b ↔ b < a by constructor <;> intro h <;> linarith, ← h2]
    omega

theorem F64.key_eq_iff (x y : F64) : x.key = y.key ↔ x.val = y.val := by
  have h1 := F64.key_lt_iff x y
  have h2 := F64.key_lt_iff y x
  constructor
  · intro h
    apply le_antisymm
    · rw [← not_lt, ← h2]; omega
    · rw [← not_lt, ← h1]; omega
  · intro h
    have h3 : ¬ x.val < y.val := by rw [h]; exact lt_irrefl _
    have h4 : ¬ y.val < x.val := by rw [h]; exact lt_irrefl _
    rw [← h1] at h3
    rw [← h2] at h4
    omega

theorem F64.lt_iff_val {x y : F64} (hx : x.isNaN = false) (hy : y.isNaN = false) :
    x.lt y = true ↔ x.val < y.val := by
  rw [← F64.key_lt_iff]
  simp [F64.lt, hx, hy]

theorem F64.lt_iff_key (x y : F64) :
    x.lt y = true ↔ x.isNaN = false ∧ y.isNaN = false ∧ x.key < y.key := by
  simp [F64.lt, and_assoc]

theorem F64.feq_iff_key (x y : F64) :
    x.feq y = true ↔ x.isNaN = false ∧ y.isNaN = false ∧ x.key = y.key := by
  simp [F64.feq, and_assoc]

/-- No finite value is as large as an infinity's pattern reads. -/
theorem F64.abs_key_lt_of_isFinite {x : F64} (h : x.isFinite = true) :
    |x.key| < (F64.infMag : Int) := by
  rw [← F64.abs_key]
  have := x.isFinite_iff.mp h
  unfold F64.key
  rw [F64.abs_sign, F64.abs_mag]
  simpa using this

/-! ## What rounding gives -/

@[simp] theorem F64.round_sign (s : Bool) (m : Nat) (e : Int) : (F64.round s m e).sign = s := rfl

theorem F64.round_zero (s : Bool) (e : Int) : F64.round s 0 e = F64.zero s := by
  unfold F64.round roundMag
  rw [if_pos rfl]
  cases s <;> rfl

theorem F64.zero_val (s : Bool) : (F64.zero s).val = 0 := by
  have : (F64.zero s).mant = 0 := by cases s <;> rfl
  unfold F64.val
  rw [this]
  simp

theorem roundMag_le (m : Nat) (e : Int) : roundMag m e ≤ F64.infMag := by
  unfold roundMag
  split
  · exact Nat.zero_le _
  · exact min_le_right _ _

theorem F64.round_mag (s : Bool) (m : Nat) (e : Int) : (F64.round s m e).mag = roundMag m e :=
  F64.ofMag_mag s (lt_of_le_of_lt (roundMag_le m e) (by decide))

/-- Rounding never makes a NaN. -/
theorem F64.round_isNaN (s : Bool) (m : Nat) (e : Int) : (F64.round s m e).isNaN = false := by
  rw [← Bool.not_eq_true, F64.isNaN_iff, F64.round_mag]
  have := roundMag_le m e
  omega

theorem F64.inf_mag (s : Bool) : (F64.inf s).mag = F64.infMag := by cases s <;> rfl

theorem F64.atPlace_isNaN (s : Bool) (q : Int) (n : Nat) : (F64.atPlace s q n).isNaN = false := by
  rw [← Bool.not_eq_true, F64.isNaN_iff, F64.atPlace_mag]
  exact not_lt.mpr (min_le_right _ _)

/-- The value at the last place is the exact one rounded once, to nearest with ties to even. -/
theorem AtPlace.rounded {v : ℚ} {q : Int} {n : Nat} (h : AtPlace v q n) (hv : 0 < v) (s : Bool) :
    F64.rounded (signed s v) (F64.atPlace s q n) := by
  have habs : |signed s v| = v := by
    unfold signed
    cases s <;> simp [abs_of_pos hv]
  unfold F64.rounded
  rw [habs]
  have hfin := h.finite_iff s
  rw [zpow_ofNat] at hfin
  split
  · rename_i h1
    exact h.nearest s (hfin.mpr h1)
  · rename_i h1
    have hnf : (F64.atPlace s q n).isFinite = false := by
      rw [← Bool.not_eq_true, hfin]; exact h1
    have hinf := F64.isInf_of hnf (F64.atPlace_isNaN s q n)
    rw [F64.isInf_iff] at hinf
    have hs : decide (signed s v < 0) = s := by
      unfold signed
      cases s <;> simp [hv, hv.le]
    rw [hs]
    exact F64.ext_mag rfl (by rw [hinf, F64.inf_mag])

/-- An odd integer of more than 64 bits rounds as every value between its even neighbours. -/
theorem atPlace_sticky {M q : Nat} {V : ℚ} {E : Int} (hM0 : M ≠ 0) (hM : M = 2 * q + 1)
    (hq : 2 ^ 63 ≤ q) (hlo : ((2 * q : Nat) : ℚ) < V) (hhi : V < ((2 * q + 2 : Nat) : ℚ)) :
    AtPlace (V * 2 ^ E) (lastPlace M E) (lastInt M E (lastPlace M E)) := by
  have hlog : 64 ≤ Nat.log2 M := (Nat.le_log2 hM0).mpr (by omega)
  have hsh : E + 12 ≤ lastPlace M E := by unfold lastPlace; omega
  have base := atPlace_lastInt hM0 E
  obtain ⟨sh, hsh'⟩ : ∃ sh : Nat, lastPlace M E = E + (sh : Int) + 2 :=
    ⟨(lastPlace M E - E - 2).toNat, by omega⟩
  have hpow : (2 : ℚ) ^ lastPlace M E = ((4 * 2 ^ sh : Nat) : ℚ) * 2 ^ E := by
    rw [hsh', zpow_add₀ (by norm_num), zpow_add₀ (by norm_num), zpow_natCast]
    push_cast
    ring
  have hp : (0 : ℚ) < 2 ^ E := by positivity
  generalize lastInt M E (lastPlace M E) = n at *
  have hMV : |V - M| < 1 := by
    rw [hM]
    push_cast at hlo hhi ⊢
    rw [abs_lt]
    constructor <;> linarith
  refine { ge := base.ge, upper := ?_, lower := ?_, near := ?_ }
  · have h1 := base.upper
    rw [hpow, ← mul_assoc, mul_lt_mul_iff_left₀ hp] at h1 ⊢
    have h2 : M < 2 ^ 53 * (4 * 2 ^ sh) := by exact_mod_cast h1
    have h3 : 2 * q + 2 ≤ 2 ^ 53 * (4 * 2 ^ sh) := by omega
    have h4 : ((2 * q + 2 : Nat) : ℚ) ≤ ((2 ^ 53 * (4 * 2 ^ sh) : Nat) : ℚ) := by exact_mod_cast h3
    refine lt_of_lt_of_le hhi (le_trans h4 (le_of_eq ?_))
    push_cast
    rfl
  · intro hne
    have h1 := base.lower hne
    rw [hpow, ← mul_assoc, mul_le_mul_iff_left₀ hp] at h1 ⊢
    have h2 : 2 ^ 52 * (4 * 2 ^ sh) ≤ M := by exact_mod_cast h1
    have h3 : 2 ^ 52 * (4 * 2 ^ sh) ≤ 2 * q := by omega
    have h4 : ((2 ^ 52 * (4 * 2 ^ sh) : Nat) : ℚ) ≤ ((2 * q : Nat) : ℚ) := by exact_mod_cast h3
    refine le_trans (le_trans (le_of_eq ?_) h4) hlo.le
    push_cast
    rfl
  · intro k
    have h1 := base.near k
    by_cases hk : k = (n : Int)
    · rw [hk]
      exact ⟨by push_cast; exact le_refl _, fun _ => .inl rfl⟩
    have scale : ∀ (W : ℚ) (z : ℚ), |W * 2 ^ E - z * 2 ^ lastPlace M E| =
        |W - z * ((4 * 2 ^ sh : Nat) : ℚ)| * 2 ^ E := by
      intro W z
      rw [hpow, ← mul_assoc, ← sub_mul, abs_mul, abs_of_pos hp]
    rw [scale, scale] at h1
    rw [scale, scale]
    have h2 : |(M : ℚ) - n * ((4 * 2 ^ sh : Nat) : ℚ)| ≤ |(M : ℚ) - k * ((4 * 2 ^ sh : Nat) : ℚ)| :=
      le_of_mul_le_mul_right h1.1 hp
    rw [← sq_le_sq] at h2
    have key : |V - n * ((4 * 2 ^ sh : Nat) : ℚ)| < |V - k * ((4 * 2 ^ sh : Nat) : ℚ)| := by
      rw [← sq_lt_sq]
      generalize hP : (2 : Nat) ^ sh = P at *
      push_cast at h2 ⊢
      have hPpos : (0 : ℚ) < P := by rw [← hP]; push_cast; positivity
      -- the midpoint is a multiple of 4 in units where 2M is 2 more than one
      have hint : ∀ t : Int, 2 ≤ |2 * (M : Int) - t * 4| := by
        intro t
        rw [hM]
        push_cast
        rcases abs_cases (2 * (2 * (q : Int) + 1) - t * 4) with ⟨h, _⟩ | ⟨h, _⟩ <;> rw [h] <;> omega
      have hmid := hint (((n : Int) + k) * P)
      have hmid' : (2 : ℚ) ≤ |2 * (M : ℚ) - ((n : ℚ) + k) * P * 4| := by exact_mod_cast hmid
      have h3 : 0 ≤ ((n : ℚ) - k) * (P * 4) * (2 * M - (n + k) * P * 4) := by nlinarith only [h2]
      have hne : (n : ℚ) - k ≠ 0 := by
        intro h
        apply hk
        have : (n : ℚ) = k := by linarith
        exact_mod_cast this.symm
      have h4 : 0 < ((n : ℚ) - k) * (2 * V - (n + k) * P * 4) := by
        obtain ⟨hl, hr⟩ := abs_lt.mp hMV
        rcases lt_or_gt_of_ne hne with hs | hs
        · have h5 : 2 * (M : ℚ) - (n + k) * P * 4 ≤ 0 := by
            by_contra hc
            have : 0 < (k - (n : ℚ)) * (P * 4) * (2 * M - (n + k) * P * 4) := by
              have : 0 < k - (n : ℚ) := by linarith
              have : 0 < 2 * (M : ℚ) - (n + k) * P * 4 := not_le.mp hc
              positivity
            nlinarith only [this, h3]
          rw [abs_of_nonpos h5] at hmid'
          have : 2 * V - (n + k) * P * 4 < 0 := by linarith
          exact mul_pos_of_neg_of_neg hs this
        · have h5 : 0 ≤ 2 * (M : ℚ) - (n + k) * P * 4 := by
            by_contra hc
            have : 0 < ((n : ℚ) - k) * (P * 4) * (-(2 * M - (n + k) * P * 4)) := by
              have : 0 < -(2 * (M : ℚ) - (n + k) * P * 4) := by linarith [not_le.mp hc]
              positivity
            nlinarith only [this, h3]
          rw [abs_of_nonneg h5] at hmid'
          have : 0 < 2 * V - (n + k) * P * 4 := by linarith
          exact mul_pos hs this
      have h6 : (V - k * (4 * P)) ^ 2 - (V - n * (4 * P)) ^ 2 =
          ((n : ℚ) - k) * (2 * V - (n + k) * P * 4) * (4 * P) := by ring
      have h7 : 0 < ((n : ℚ) - k) * (2 * V - (n + k) * P * 4) * (4 * P) := by positivity
      linarith
    exact ⟨by gcongr, fun h => absurd (mul_right_cancel₀ hp.ne' h) key.ne⟩

/-- `round` rounds once, to nearest with ties to even. -/
theorem F64.round_rounded (s : Bool) {m : Nat} (hm : m ≠ 0) (e : Int) :
    F64.rounded (signed s ((m : ℚ) * 2 ^ e)) (F64.round s m e) := by
  have : (0 : ℚ) < m := by exact_mod_cast Nat.pos_of_ne_zero hm
  rw [F64.round_eq_atPlace s hm e]
  exact (atPlace_lastInt hm e).rounded (by positivity) s

/-- The rounded quotient is that of the exact one: the last bit stands for the remainder. -/
theorem F64.roundQuot_rounded (s : Bool) {n d : Nat} (hn : n ≠ 0) (hd : d ≠ 0) (e : Int) :
    F64.rounded (signed s ((n : ℚ) / d * 2 ^ e)) (F64.roundQuot s n d e) := by
  have hd' : (0 : ℚ) < d := by exact_mod_cast Nat.pos_of_ne_zero hd
  have hn' : (0 : ℚ) < n := by exact_mod_cast Nat.pos_of_ne_zero hn
  obtain ⟨k, hk⟩ : ∃ k, k = 64 + Nat.log2 d - Nat.log2 n := ⟨_, rfl⟩
  obtain ⟨M, hM⟩ : ∃ M, M = 2 * (n * 2 ^ k / d) + (if n * 2 ^ k % d = 0 then 0 else 1) := ⟨_, rfl⟩
  obtain ⟨E, hE⟩ : ∃ E : Int, E = e - (k : Int) - 1 := ⟨_, rfl⟩
  have hr : F64.roundQuot s n d e = F64.round s M E := by
    unfold F64.roundQuot
    rw [hM, hE, hk]
  have hdiv : d * (n * 2 ^ k / d) + n * 2 ^ k % d = n * 2 ^ k := Nat.div_add_mod _ _
  have hmod : n * 2 ^ k % d < d := Nat.mod_lt _ (Nat.pos_of_ne_zero hd)
  have hq : 2 ^ 63 ≤ n * 2 ^ k / d := by
    rw [Nat.le_div_iff_mul_le (Nat.pos_of_ne_zero hd)]
    have h1 := (pow_log2 hn).1
    have h2 := (pow_log2 hd).2
    calc 2 ^ 63 * d ≤ 2 ^ 63 * 2 ^ (Nat.log2 d + 1) := Nat.mul_le_mul_left _ (le_of_lt h2)
      _ = 2 ^ (64 + Nat.log2 d) := by rw [← pow_add]; congr 1; omega
      _ ≤ 2 ^ (Nat.log2 n + k) := Nat.pow_le_pow_right (by norm_num) (by omega)
      _ = 2 ^ Nat.log2 n * 2 ^ k := pow_add _ _ _
      _ ≤ n * 2 ^ k := Nat.mul_le_mul_right _ h1
  generalize n * 2 ^ k / d = q at *
  -- the exact quotient at the exponent E
  obtain ⟨V, hV⟩ : ∃ V : ℚ, V = 2 * ((n : ℚ) * 2 ^ k / d) := ⟨_, rfl⟩
  have hval : (n : ℚ) / d * 2 ^ e = V * 2 ^ E := by
    rw [hV, hE, zpow_sub₀ (by norm_num), zpow_sub₀ (by norm_num), zpow_natCast]
    have : (2 : ℚ) ^ k ≠ 0 := by positivity
    field_simp
  have hcast : (n : ℚ) * 2 ^ k = d * q + (n * 2 ^ k % d : Nat) := by exact_mod_cast hdiv.symm
  have hM0 : M ≠ 0 := by omega
  by_cases hz : n * 2 ^ k % d = 0
  · rw [if_pos hz] at hM
    rw [hz] at hcast
    have hVM : V = M := by
      rw [hV, hcast, hM]
      push_cast
      field_simp
      ring
    rw [hval, hVM, hr]
    exact F64.round_rounded s hM0 E
  · rw [if_neg hz] at hM
    have hlo : ((2 * q : Nat) : ℚ) < V := by
      rw [hV, hcast]
      have : (0 : ℚ) < ((n * 2 ^ k % d : Nat) : ℚ) := by exact_mod_cast Nat.pos_of_ne_zero hz
      push_cast
      rw [show (2 : ℚ) * ((d * q + ((n * 2 ^ k % d : Nat) : ℚ)) / d) =
        2 * q + 2 * (((n * 2 ^ k % d : Nat) : ℚ) / d) by field_simp]
      have : (0 : ℚ) < ((n * 2 ^ k % d : Nat) : ℚ) / d := by positivity
      linarith
    have hhi : V < ((2 * q + 2 : Nat) : ℚ) := by
      rw [hV, hcast]
      have : ((n * 2 ^ k % d : Nat) : ℚ) < d := by exact_mod_cast hmod
      push_cast
      rw [show (2 : ℚ) * ((d * q + ((n * 2 ^ k % d : Nat) : ℚ)) / d) =
        2 * q + 2 * (((n * 2 ^ k % d : Nat) : ℚ) / d) by field_simp]
      have : ((n * 2 ^ k % d : Nat) : ℚ) / d < 1 := by rwa [div_lt_one hd']
      linarith
    rw [hr, hval, F64.round_eq_atPlace s hM0 E]
    refine AtPlace.rounded (atPlace_sticky hM0 hM hq hlo hhi) ?_ s
    have : (0 : ℚ) < V := lt_of_le_of_lt (by positivity) hlo
    positivity

/-- A rounded result is not NaN. -/
theorem F64.rounded_isNaN {v : ℚ} {r : F64} (h : F64.rounded v r) : r.isNaN = false := by
  unfold F64.rounded at h
  split at h
  · exact F64.not_isNaN_of_isFinite h.1
  · rw [h]; rfl

/-- Rounding is monotone against the finite values: it does not pass one. -/
theorem F64.nearest_le {v : ℚ} {r y : F64} (h : F64.nearest v r) (hy : y.isFinite = true)
    (hv : v ≤ y.val) : r.val ≤ y.val := by
  obtain ⟨-, h2⟩ := h
  by_contra hc
  obtain ⟨h3, h4⟩ := h2 y hy
  have h5 : |v - r.val| = r.val - v := by rw [abs_of_nonpos (by linarith)]; ring
  have h6 : |v - y.val| = y.val - v := by rw [abs_of_nonpos (by linarith)]; ring
  rw [h5, h6] at h3
  linarith

theorem F64.nearest_ge {v : ℚ} {r y : F64} (h : F64.nearest v r) (hy : y.isFinite = true)
    (hv : y.val ≤ v) : y.val ≤ r.val := by
  obtain ⟨-, h2⟩ := h
  by_contra hc
  obtain ⟨h3, h4⟩ := h2 y hy
  have h5 : |v - r.val| = v - r.val := abs_of_nonneg (by linarith)
  have h6 : |v - y.val| = v - y.val := abs_of_nonneg (by linarith)
  rw [h5, h6] at h3
  linarith

/-- A value that is finite in binary64 is rounded to itself. -/
theorem F64.nearest_exact {y r : F64} (h : F64.nearest y.val r) (hy : y.isFinite = true) :
    r.val = y.val :=
  le_antisymm (F64.nearest_le h hy le_rfl) (F64.nearest_ge h hy le_rfl)

theorem log2_lt_of_lt {m k : Nat} (hm : m ≠ 0) (h : m < 2 ^ k) : Nat.log2 m < k :=
  (Nat.log2_lt hm).mpr h

/-- A magnitude of at most 53 bits in the exponent range is kept. -/
theorem F64.round_exact (s : Bool) {m : Nat} {e : Int} (hm : m < 2 ^ 53) (he : -1074 ≤ e)
    (he' : e ≤ 971) :
    (F64.round s m e).isFinite = true ∧ (F64.round s m e).val = signed s ((m : ℚ) * 2 ^ e) := by
  by_cases h0 : m = 0
  · subst h0
    rw [F64.round_zero]
    refine ⟨by cases s <;> rfl, ?_⟩
    rw [F64.zero_val]
    simp [signed]
  · have hlog := log2_lt_of_lt h0 hm
    have hat := atPlace_lastInt h0 e
    have hre := F64.round_eq_atPlace s h0 e
    have hfin : (F64.round s m e).isFinite = true := by
      rw [hre, hat.finite_iff s]
      have h1 : (m : ℚ) ≤ (2 : ℚ) ^ 53 - 1 := by
        have : ((m + 1 : Nat) : ℚ) ≤ ((2 ^ 53 : Nat) : ℚ) := by exact_mod_cast hm
        push_cast at this
        linarith
      calc (m : ℚ) * 2 ^ e ≤ ((2 : ℚ) ^ 53 - 1) * 2 ^ (971 : Int) := by
            gcongr
            norm_num
        _ = ((2 : ℚ) ^ 54 - 2) * 2 ^ (970 : Int) := by
            rw [show (971 : Int) = 1 + 970 by norm_num, zpow_add₀ (by norm_num)]; ring
        _ < ((2 : ℚ) ^ 54 - 1) * 2 ^ (970 : Int) := by
            have : (0 : ℚ) < 2 ^ (970 : Int) := by positivity
            gcongr
            norm_num
    refine ⟨hfin, ?_⟩
    rw [hre] at hfin ⊢
    rw [(hat.parts s hfin).1]
    have hq : lastPlace m e ≤ e := by unfold lastPlace; omega
    congr 1
    unfold lastInt
    split
    · rename_i h
      have : lastPlace m e = e := le_antisymm hq h
      rw [this]
      simp [roundShift, Nat.mod_one]
    · rw [zpow_split hq]
      push_cast
      ring

theorem F64.ofNat_exact {n : Nat} (h : n ≤ 2 ^ 53) :
    (F64.ofNat n).isFinite = true ∧ (F64.ofNat n).val = n ∧ (F64.ofNat n).sign = false := by
  rcases Nat.lt_or_ge n (2 ^ 53) with h1 | h1
  · obtain ⟨h2, h3⟩ := F64.round_exact false h1 (by norm_num : (-1074 : Int) ≤ 0) (by norm_num)
    refine ⟨h2, ?_, rfl⟩
    unfold F64.ofNat
    rw [h3]
    simp [signed]
  · have : n = 2 ^ 53 := le_antisymm h h1
    subst this
    refine ⟨by decide, ?_, rfl⟩
    have hm : (F64.ofNat (2 ^ 53)).mant = 2 ^ 52 := by decide
    have he : (F64.ofNat (2 ^ 53)).expo = 1 := by decide
    have hs : (F64.ofNat (2 ^ 53)).sign = false := rfl
    unfold F64.val
    rw [hm, he, hs]
    norm_num

theorem F64.ofInt_neg (n : Nat) (h : n ≠ 0) : F64.ofInt (-(n : Int)) = (F64.ofNat n).neg := by
  have : decide (-(n : Int) < 0) = true := by
    rw [decide_eq_true_eq]; omega
  unfold F64.ofInt F64.ofNat
  rw [this, Int.natAbs_neg, Int.natAbs_natCast]
  rfl

theorem F64.ofInt_natCast (n : Nat) : F64.ofInt (n : Int) = F64.ofNat n := by
  unfold F64.ofInt F64.ofNat
  rw [Int.natAbs_natCast, decide_eq_false (by omega)]

/-! ## Conversions to integers -/

theorem F64.magFloor_eq (x : F64) : (x.magFloor : Int) = ⌊(x.mant : ℚ) * 2 ^ x.expo⌋ := by
  unfold F64.magFloor
  rw [Nat.shiftRight_eq_div_pow]
  split
  · rename_i h
    have : (x.mant : ℚ) * 2 ^ x.expo = ((x.mant * 2 ^ x.expo.toNat : Nat) : ℚ) := by
      obtain ⟨k, hk⟩ : ∃ k : Nat, x.expo = k := ⟨x.expo.toNat, by omega⟩
      rw [hk, zpow_natCast, Int.toNat_natCast]
      push_cast
      rfl
    rw [this, Int.floor_natCast]
  · rename_i h
    obtain ⟨k, hk⟩ : ∃ k : Nat, x.expo = -(k : Int) := ⟨(-x.expo).toNat, by omega⟩
    rw [hk, zpow_neg, zpow_natCast, Int.neg_neg, Int.toNat_natCast, ← div_eq_mul_inv,
      show ((2 : ℚ) ^ k) = ((2 ^ k : Nat) : ℚ) by push_cast; rfl, Rat.floor_natCast_div_natCast]
    exact Int.natCast_div _ _

/-- `trunc` of a value that is not negative is its floor. -/
theorem F64.trunc_of_sign_false {x : F64} (h : x.sign = false) : x.trunc = ⌊x.val⌋ := by
  unfold F64.trunc
  rw [F64.val_eq_signed, h, F64.magFloor_eq]
  simp [signed]

/-- `round_half_away` as an integer is the floor of the exact `x + 1/2`. -/
theorem F64.roundHalfInt_eq (x : F64) : x.roundHalfInt = ⌊x.val + 1 / 2⌋ := by
  unfold F64.roundHalfInt
  obtain ⟨m, hm⟩ : ∃ m : Int, m = if x.sign then -(x.mant : Int) else (x.mant : Int) := ⟨_, rfl⟩
  have hv : x.val = (m : ℚ) * 2 ^ x.expo := by
    unfold F64.val
    rw [hm]
    cases x.sign <;> simp
  simp only [← hm]
  rw [hv]
  split
  · rename_i h
    obtain ⟨k, hk⟩ : ∃ k : Nat, x.expo = k := ⟨x.expo.toNat, by omega⟩
    rw [hk, zpow_natCast, Int.toNat_natCast,
      show (m : ℚ) * 2 ^ k + 1 / 2 = ((m * 2 ^ k : Int) : ℚ) + 1 / 2 by push_cast; rfl,
      Int.floor_intCast_add]
    norm_num
  · rename_i h
    obtain ⟨k, hk⟩ : ∃ k : Nat, x.expo = -(k : Int) := ⟨(-x.expo).toNat, by omega⟩
    rw [hk, zpow_neg, zpow_natCast, Int.neg_neg, Int.toNat_natCast,
      show (m : ℚ) * (2 ^ k)⁻¹ + 1 / 2 = ((2 * m + 2 ^ k : Int) : ℚ) / ((2 * 2 ^ k : Nat) : ℚ) by
        push_cast; field_simp,
      Rat.floor_intCast_div_natCast]
    push_cast
    rfl

/-! ## Products and quotients of finite values -/

theorem F64.val_eq_zero_iff (x : F64) : x.val = 0 ↔ x.isZero = true := by
  have h := x.mag_eq_zero_iff
  rw [← F64.abs_val, abs_eq_zero] at h
  rw [← h]
  simp [F64.isZero]

theorem F64.isZero_iff_mant (x : F64) : x.isZero = true ↔ x.mant = 0 := by
  rw [← F64.val_eq_zero_iff, ← abs_eq_zero, F64.abs_val, mul_eq_zero, or_iff_left (by positivity),
    Nat.cast_eq_zero]

theorem F64.isInf_of_isFinite {x : F64} (h : x.isFinite = true) : x.isInf = false := by
  rw [← Bool.not_eq_true, F64.isInf_iff]
  have := x.isFinite_iff.mp h
  omega

theorem F64.zero_rounded (s : Bool) : F64.rounded 0 (F64.zero s) := by
  unfold F64.rounded
  rw [if_pos (by norm_num)]
  refine ⟨by cases s <;> rfl, fun y _ => ?_⟩
  rw [F64.zero_val]
  simp only [sub_zero, abs_zero, zero_sub, abs_neg]
  exact ⟨abs_nonneg _, fun h => .inl (abs_eq_zero.mp h.symm)⟩

/-- A product is the exact one rounded once. -/
theorem F64.mul_rounded {x y : F64} (hx : x.isFinite = true) (hy : y.isFinite = true) :
    F64.rounded (x.val * y.val) (x.mul y) := by
  simp only [F64.mul, F64.not_isNaN_of_isFinite hx, F64.not_isNaN_of_isFinite hy,
    F64.isInf_of_isFinite hx, F64.isInf_of_isFinite hy, Bool.or_false, Bool.false_and,
    Bool.and_false, Bool.false_eq_true, if_false]
  have hv : x.val * y.val =
      signed (x.sign != y.sign) (((x.mant * y.mant : Nat) : ℚ) * 2 ^ (x.expo + y.expo)) := by
    rw [F64.val_eq_signed, F64.val_eq_signed, zpow_add₀ (by norm_num)]
    unfold signed
    push_cast
    cases x.sign <;> cases y.sign <;> simp <;> ring
  by_cases h0 : x.mant * y.mant = 0
  · rw [hv, h0, F64.round_zero]
    simpa [signed] using F64.zero_rounded (x.sign != y.sign)
  · rw [hv]
    exact F64.round_rounded _ h0 _

/-- A quotient is the exact one rounded once. -/
theorem F64.div_rounded {x y : F64} (hx : x.isFinite = true) (hy : y.isFinite = true)
    (h0 : y.val ≠ 0) : F64.rounded (x.val / y.val) (x.div y) := by
  have hyz : y.isZero = false := by
    rw [← Bool.not_eq_true, ← F64.val_eq_zero_iff]; exact h0
  have hym : y.mant ≠ 0 := fun h => by
    rw [← F64.isZero_iff_mant, hyz] at h; cases h
  simp only [F64.div, F64.not_isNaN_of_isFinite hx, F64.not_isNaN_of_isFinite hy,
    F64.isInf_of_isFinite hx, F64.isInf_of_isFinite hy, hyz, Bool.or_false,
    Bool.and_false, Bool.false_eq_true, if_false, Bool.false_or]
  by_cases hz : x.isZero = true
  · rw [if_pos hz, (F64.val_eq_zero_iff x).mpr hz, zero_div]
    exact F64.zero_rounded _
  · rw [if_neg hz]
    have hxm : x.mant ≠ 0 := fun h => hz ((F64.isZero_iff_mant x).mpr h)
    have hv : x.val / y.val = signed (x.sign != y.sign)
        ((x.mant : ℚ) / y.mant * 2 ^ (x.expo - y.expo)) := by
      rw [F64.val_eq_signed, F64.val_eq_signed, zpow_sub₀ (by norm_num)]
      unfold signed
      have h1 : (y.mant : ℚ) ≠ 0 := by exact_mod_cast hym
      cases x.sign <;> cases y.sign <;> simp <;> field_simp
    rw [hv]
    exact F64.roundQuot_rounded _ hxm hym _

/-- Below half a last place past the largest finite value a rounded result is the nearest one. -/
theorem F64.nearest_of_rounded {v : ℚ} {r : F64} (h : F64.rounded v r)
    (hv : |v| < ((2 : ℚ) ^ 54 - 1) * 2 ^ 970) : F64.nearest v r := by
  unfold F64.rounded at h
  rwa [if_pos hv] at h

/-- A magnitude of at most 2^1000 is below that bound. -/
theorem F64.nearest_of_rounded_small {v : ℚ} {r : F64} (h : F64.rounded v r)
    (hv : |v| ≤ (2 : ℚ) ^ 1000) : F64.nearest v r := by
  refine F64.nearest_of_rounded h (lt_of_le_of_lt hv ?_)
  rw [show 1000 = 30 + 970 by norm_num, pow_add]
  have : (0 : ℚ) < 2 ^ 970 := by positivity
  gcongr
  norm_num

/-- Every multiple of a power of two of at most 53 bits is some finite value's. -/
theorem F64.exists_val {m : Nat} {e : Int} (hm : m < 2 ^ 53) (he : -1074 ≤ e) (he' : e ≤ 971) :
    ∃ y : F64, y.isFinite = true ∧ y.val = (m : ℚ) * 2 ^ e := by
  obtain ⟨h1, h2⟩ := F64.round_exact false hm he he'
  exact ⟨_, h1, by rw [h2]; simp [signed]⟩

theorem F64.ofNat_rounded (n : Nat) : F64.rounded (n : ℚ) (F64.ofNat n) := by
  by_cases h : n = 0
  · subst h
    have : F64.ofNat 0 = F64.zero false := F64.round_zero false 0
    rw [this]
    exact_mod_cast F64.zero_rounded false
  · have := F64.round_rounded false h 0
    simpa [signed, F64.ofNat] using this

theorem F64.ofNat_sign (n : Nat) : (F64.ofNat n).sign = false := rfl

theorem F64.mul_sign {x y : F64} (hx : x.isFinite = true) (hy : y.isFinite = true) :
    (x.mul y).sign = (x.sign != y.sign) := by
  simp only [F64.mul, F64.not_isNaN_of_isFinite hx, F64.not_isNaN_of_isFinite hy,
    F64.isInf_of_isFinite hx, F64.isInf_of_isFinite hy, Bool.or_false, Bool.false_and,
    Bool.and_false, Bool.false_eq_true, if_false]
  rfl

theorem F64.div_sign {x y : F64} (hx : x.isFinite = true) (hy : y.isFinite = true)
    (h0 : y.val ≠ 0) : (x.div y).sign = (x.sign != y.sign) := by
  have hyz : y.isZero = false := by
    rw [← Bool.not_eq_true, ← F64.val_eq_zero_iff]; exact h0
  simp only [F64.div, F64.not_isNaN_of_isFinite hx, F64.not_isNaN_of_isFinite hy,
    F64.isInf_of_isFinite hx, F64.isInf_of_isFinite hy, hyz, Bool.or_false,
    Bool.and_false, Bool.false_eq_true, if_false, Bool.false_or]
  split <;> rfl

end Sys2Proof
end

