-- ==== Sys2Proof/Laws/State.lean ====
section
/-! SUPPORT. One lemma per field of the state per update of it, each true by definition, so that no
later proof unfolds a record update. -/

namespace Sys2Proof.Machine

/-! ## commit -/

@[simp] theorem State.commit_cfg (i : Nat) (o : ChanOut) (s : State) :
    (s.commit i o).cfg = s.cfg := rfl
@[simp] theorem State.commit_channels (i : Nat) (o : ChanOut) (s : State) :
    (s.commit i o).channels = s.channels.set i o.chan := rfl
@[simp] theorem State.commit_pc (i : Nat) (o : ChanOut) (s : State) :
    (s.commit i o).pc = s.pc := rfl
@[simp] theorem State.commit_hpc (i : Nat) (o : ChanOut) (s : State) :
    (s.commit i o).hpc = s.hpc := rfl
@[simp] theorem State.commit_rtList (i : Nat) (o : ChanOut) (s : State) :
    (s.commit i o).rtList = s.rtList := rfl
@[simp] theorem State.commit_hostList (i : Nat) (o : ChanOut) (s : State) :
    (s.commit i o).hostList = s.hostList := rfl
@[simp] theorem State.commit_schedule (i : Nat) (o : ChanOut) (s : State) :
    (s.commit i o).schedule = s.schedule := rfl
@[simp] theorem State.commit_wlog (i : Nat) (o : ChanOut) (s : State) :
    (s.commit i o).wlog = s.wlog ++ o.events := rfl
@[simp] theorem State.commit_diag (i : Nat) (o : ChanOut) (s : State) :
    (s.commit i o).diag = s.diag ++ o.diags := rfl
@[simp] theorem State.commit_refused (i : Nat) (o : ChanOut) (s : State) :
    (s.commit i o).refused = s.refused := rfl
@[simp] theorem State.commit_acc (i : Nat) (o : ChanOut) (s : State) :
    (s.commit i o).acc = s.acc := rfl
@[simp] theorem State.commit_draws (i : Nat) (o : ChanOut) (s : State) :
    (s.commit i o).draws = s.draws := rfl
@[simp] theorem State.commit_hostReads (i : Nat) (o : ChanOut) (s : State) :
    (s.commit i o).hostReads = s.hostReads := rfl

/-! ## emit -/

@[simp] theorem State.emit_cfg (e : Event) (s : State) :
    (s.emit e).cfg = s.cfg := rfl
@[simp] theorem State.emit_channels (e : Event) (s : State) :
    (s.emit e).channels = s.channels := rfl
@[simp] theorem State.emit_pc (e : Event) (s : State) :
    (s.emit e).pc = s.pc := rfl
@[simp] theorem State.emit_hpc (e : Event) (s : State) :
    (s.emit e).hpc = s.hpc := rfl
@[simp] theorem State.emit_rtList (e : Event) (s : State) :
    (s.emit e).rtList = s.rtList := rfl
@[simp] theorem State.emit_hostList (e : Event) (s : State) :
    (s.emit e).hostList = s.hostList := rfl
@[simp] theorem State.emit_schedule (e : Event) (s : State) :
    (s.emit e).schedule = s.schedule := rfl
@[simp] theorem State.emit_wlog (e : Event) (s : State) :
    (s.emit e).wlog = s.wlog ++ [e] := rfl
@[simp] theorem State.emit_diag (e : Event) (s : State) :
    (s.emit e).diag = s.diag := rfl
@[simp] theorem State.emit_refused (e : Event) (s : State) :
    (s.emit e).refused = s.refused := rfl
@[simp] theorem State.emit_acc (e : Event) (s : State) :
    (s.emit e).acc = s.acc := rfl
@[simp] theorem State.emit_draws (e : Event) (s : State) :
    (s.emit e).draws = s.draws := rfl
@[simp] theorem State.emit_hostReads (e : Event) (s : State) :
    (s.emit e).hostReads = s.hostReads := rfl

/-! ## giveHost -/

@[simp] theorem State.giveHost_cfg (v : HostValue) (s : State) :
    (s.giveHost v).cfg = s.cfg := rfl
@[simp] theorem State.giveHost_channels (v : HostValue) (s : State) :
    (s.giveHost v).channels = s.channels := rfl
@[simp] theorem State.giveHost_pc (v : HostValue) (s : State) :
    (s.giveHost v).pc = s.pc := rfl
@[simp] theorem State.giveHost_hpc (v : HostValue) (s : State) :
    (s.giveHost v).hpc = s.hpc := rfl
@[simp] theorem State.giveHost_rtList (v : HostValue) (s : State) :
    (s.giveHost v).rtList = s.rtList := rfl
@[simp] theorem State.giveHost_hostList (v : HostValue) (s : State) :
    (s.giveHost v).hostList = s.hostList := rfl
@[simp] theorem State.giveHost_schedule (v : HostValue) (s : State) :
    (s.giveHost v).schedule = s.schedule := rfl
@[simp] theorem State.giveHost_wlog (v : HostValue) (s : State) :
    (s.giveHost v).wlog = s.wlog := rfl
@[simp] theorem State.giveHost_diag (v : HostValue) (s : State) :
    (s.giveHost v).diag = s.diag := rfl
@[simp] theorem State.giveHost_refused (v : HostValue) (s : State) :
    (s.giveHost v).refused = s.refused := rfl
@[simp] theorem State.giveHost_acc (v : HostValue) (s : State) :
    (s.giveHost v).acc = s.acc := rfl
@[simp] theorem State.giveHost_draws (v : HostValue) (s : State) :
    (s.giveHost v).draws = s.draws := rfl
@[simp] theorem State.giveHost_hostReads (v : HostValue) (s : State) :
    (s.giveHost v).hostReads = s.hostReads ++ [v] := rfl

/-! ## refuse -/

@[simp] theorem State.refuse_cfg (r : RefuseReason) (s : State) :
    (s.refuse r).cfg = s.cfg := rfl
@[simp] theorem State.refuse_channels (r : RefuseReason) (s : State) :
    (s.refuse r).channels = s.channels := rfl
@[simp] theorem State.refuse_pc (r : RefuseReason) (s : State) :
    (s.refuse r).pc = s.pc := rfl
@[simp] theorem State.refuse_hpc (r : RefuseReason) (s : State) :
    (s.refuse r).hpc = s.hpc := rfl
@[simp] theorem State.refuse_rtList (r : RefuseReason) (s : State) :
    (s.refuse r).rtList = s.rtList := rfl
@[simp] theorem State.refuse_hostList (r : RefuseReason) (s : State) :
    (s.refuse r).hostList = s.hostList := rfl
@[simp] theorem State.refuse_schedule (r : RefuseReason) (s : State) :
    (s.refuse r).schedule = s.schedule := rfl
@[simp] theorem State.refuse_wlog (r : RefuseReason) (s : State) :
    (s.refuse r).wlog = s.wlog := rfl
@[simp] theorem State.refuse_diag (r : RefuseReason) (s : State) :
    (s.refuse r).diag = s.diag := rfl
@[simp] theorem State.refuse_refused (r : RefuseReason) (s : State) :
    (s.refuse r).refused = some r := rfl
@[simp] theorem State.refuse_acc (r : RefuseReason) (s : State) :
    (s.refuse r).acc = s.acc := rfl
@[simp] theorem State.refuse_draws (r : RefuseReason) (s : State) :
    (s.refuse r).draws = s.draws := rfl
@[simp] theorem State.refuse_hostReads (r : RefuseReason) (s : State) :
    (s.refuse r).hostReads = s.hostReads := rfl

/-! ## consume -/

@[simp] theorem State.consume_cfg (n : Nat) (s : State) :
    (s.consume n).cfg = s.cfg := rfl
@[simp] theorem State.consume_channels (n : Nat) (s : State) :
    (s.consume n).channels = s.channels := rfl
@[simp] theorem State.consume_pc (n : Nat) (s : State) :
    (s.consume n).pc = s.pc := rfl
@[simp] theorem State.consume_hpc (n : Nat) (s : State) :
    (s.consume n).hpc = s.hpc := rfl
@[simp] theorem State.consume_rtList (n : Nat) (s : State) :
    (s.consume n).rtList = s.rtList := rfl
@[simp] theorem State.consume_hostList (n : Nat) (s : State) :
    (s.consume n).hostList = s.hostList := rfl
@[simp] theorem State.consume_schedule (n : Nat) (s : State) :
    (s.consume n).schedule = s.schedule := rfl
@[simp] theorem State.consume_wlog (n : Nat) (s : State) :
    (s.consume n).wlog = s.wlog := rfl
@[simp] theorem State.consume_diag (n : Nat) (s : State) :
    (s.consume n).diag = s.diag := rfl
@[simp] theorem State.consume_refused (n : Nat) (s : State) :
    (s.consume n).refused = s.refused := rfl
@[simp] theorem State.consume_acc (n : Nat) (s : State) :
    (s.consume n).acc = s.acc.drop n := rfl
@[simp] theorem State.consume_draws (n : Nat) (s : State) :
    (s.consume n).draws = s.draws + (n - s.acc.length) := rfl
@[simp] theorem State.consume_hostReads (n : Nat) (s : State) :
    (s.consume n).hostReads = s.hostReads := rfl

/-! ## masterEnable -/

@[simp] theorem State.masterEnable_cfg (s : State) :
    s.masterEnable.cfg = s.cfg := rfl
@[simp] theorem State.masterEnable_channels (s : State) :
    s.masterEnable.channels = s.channels := rfl
@[simp] theorem State.masterEnable_pc (s : State) :
    s.masterEnable.pc = s.pc := rfl
@[simp] theorem State.masterEnable_hpc (s : State) :
    s.masterEnable.hpc = s.hpc := rfl
@[simp] theorem State.masterEnable_rtList (s : State) :
    s.masterEnable.rtList = s.rtList := rfl
@[simp] theorem State.masterEnable_hostList (s : State) :
    s.masterEnable.hostList = s.hostList := rfl
@[simp] theorem State.masterEnable_schedule (s : State) :
    s.masterEnable.schedule = s.schedule := rfl
@[simp] theorem State.masterEnable_wlog (s : State) :
    s.masterEnable.wlog = s.wlog ++ [.write (masterEnableAddr s.cfg) masterEnableValue] := rfl
@[simp] theorem State.masterEnable_diag (s : State) :
    s.masterEnable.diag = s.diag := rfl
@[simp] theorem State.masterEnable_refused (s : State) :
    s.masterEnable.refused = s.refused := rfl
@[simp] theorem State.masterEnable_acc (s : State) :
    s.masterEnable.acc = s.acc := rfl
@[simp] theorem State.masterEnable_draws (s : State) :
    s.masterEnable.draws = s.draws := rfl
@[simp] theorem State.masterEnable_hostReads (s : State) :
    s.masterEnable.hostReads = s.hostReads := rfl

/-! ## advance -/

@[simp] theorem State.advance_cfg (a : Agent) (s : State) : (s.advance a).cfg = s.cfg := by
  cases a <;> rfl
@[simp] theorem State.advance_channels (a : Agent) (s : State) : (s.advance a).channels = s.channels := by
  cases a <;> rfl
@[simp] theorem State.advance_rt_pc (s : State) : (s.advance .rt).pc = s.pc + 1 := rfl
@[simp] theorem State.advance_host_pc (s : State) : (s.advance .host).pc = s.pc := rfl
@[simp] theorem State.advance_rt_hpc (s : State) : (s.advance .rt).hpc = s.hpc := rfl
@[simp] theorem State.advance_host_hpc (s : State) : (s.advance .host).hpc = s.hpc + 1 := rfl
@[simp] theorem State.advance_rtList (a : Agent) (s : State) : (s.advance a).rtList = s.rtList := by
  cases a <;> rfl
@[simp] theorem State.advance_hostList (a : Agent) (s : State) : (s.advance a).hostList = s.hostList := by
  cases a <;> rfl
@[simp] theorem State.advance_schedule (a : Agent) (s : State) : (s.advance a).schedule = s.schedule := by
  cases a <;> rfl
@[simp] theorem State.advance_wlog (a : Agent) (s : State) : (s.advance a).wlog = s.wlog := by
  cases a <;> rfl
@[simp] theorem State.advance_diag (a : Agent) (s : State) : (s.advance a).diag = s.diag := by
  cases a <;> rfl
@[simp] theorem State.advance_refused (a : Agent) (s : State) : (s.advance a).refused = s.refused := by
  cases a <;> rfl
@[simp] theorem State.advance_acc (a : Agent) (s : State) : (s.advance a).acc = s.acc := by
  cases a <;> rfl
@[simp] theorem State.advance_draws (a : Agent) (s : State) : (s.advance a).draws = s.draws := by
  cases a <;> rfl
@[simp] theorem State.advance_hostReads (a : Agent) (s : State) : (s.advance a).hostReads = s.hostReads := by
  cases a <;> rfl

/-! ## N -/

@[simp] theorem State.commit_n (i : Nat) (o : ChanOut) (s : State) : (s.commit i o).n = s.n := by
  simp [State.n]

@[simp] theorem State.advance_n (a : Agent) (s : State) : (s.advance a).n = s.n := by
  simp [State.n]

@[simp] theorem State.refuse_n (r : RefuseReason) (s : State) : (s.refuse r).n = s.n := rfl
@[simp] theorem State.emit_n (e : Event) (s : State) : (s.emit e).n = s.n := rfl
@[simp] theorem State.giveHost_n (v : HostValue) (s : State) : (s.giveHost v).n = s.n := rfl
@[simp] theorem State.consume_n (n : Nat) (s : State) : (s.consume n).n = s.n := rfl
@[simp] theorem State.masterEnable_n (s : State) : s.masterEnable.n = s.n := rfl

/-! ## The fields of a channel that a commit of a timing field leaves alone, and those it writes -/

@[simp] theorem Channel.commitField_rawAcc (c : Channel) (F : TimingField) (p r : Word) :
    (c.commitField F p r).rawAcc = c.rawAcc := by
  rcases F with ⟨_ | _ | _ | _⟩ | _ <;> rfl
@[simp] theorem Channel.commitField_prevRaw (c : Channel) (F : TimingField) (p r : Word) :
    (c.commitField F p r).prevRaw = c.prevRaw := by
  rcases F with ⟨_ | _ | _ | _⟩ | _ <;> rfl
@[simp] theorem Channel.commitField_subcounts (c : Channel) (F : TimingField) (p r : Word) :
    (c.commitField F p r).subcounts = c.subcounts := by
  rcases F with ⟨_ | _ | _ | _⟩ | _ <;> rfl
@[simp] theorem Channel.commitField_counts (c : Channel) (F : TimingField) (p r : Word) :
    (c.commitField F p r).counts = c.counts := by
  rcases F with ⟨_ | _ | _ | _⟩ | _ <;> rfl
@[simp] theorem Channel.commitField_positionFb (c : Channel) (F : TimingField) (p r : Word) :
    (c.commitField F p r).positionFb = c.positionFb := by
  rcases F with ⟨_ | _ | _ | _⟩ | _ <;> rfl
@[simp] theorem Channel.commitField_velocityFb (c : Channel) (F : TimingField) (p r : Word) :
    (c.commitField F p r).velocityFb = c.velocityFb := by
  rcases F with ⟨_ | _ | _ | _⟩ | _ <;> rfl
@[simp] theorem Channel.commitField_oldPositionCmd (c : Channel) (F : TimingField) (p r : Word) :
    (c.commitField F p r).oldPositionCmd = c.oldPositionCmd := by
  rcases F with ⟨_ | _ | _ | _⟩ | _ <;> rfl
@[simp] theorem Channel.commitField_positionScale (c : Channel) (F : TimingField) (p r : Word) :
    (c.commitField F p r).positionScale = c.positionScale := by
  rcases F with ⟨_ | _ | _ | _⟩ | _ <;> rfl
@[simp] theorem Channel.commitField_maxvel (c : Channel) (F : TimingField) (p r : Word) :
    (c.commitField F p r).maxvel = c.maxvel := by
  rcases F with ⟨_ | _ | _ | _⟩ | _ <;> rfl
@[simp] theorem Channel.commitField_maxaccel (c : Channel) (F : TimingField) (p r : Word) :
    (c.commitField F p r).maxaccel = c.maxaccel := by
  rcases F with ⟨_ | _ | _ | _⟩ | _ <;> rfl
@[simp] theorem Channel.commitField_positionCmd (c : Channel) (F : TimingField) (p r : Word) :
    (c.commitField F p r).positionCmd = c.positionCmd := by
  rcases F with ⟨_ | _ | _ | _⟩ | _ <;> rfl
@[simp] theorem Channel.commitField_velocityCmd (c : Channel) (F : TimingField) (p r : Word) :
    (c.commitField F p r).velocityCmd = c.velocityCmd := by
  rcases F with ⟨_ | _ | _ | _⟩ | _ <;> rfl
@[simp] theorem Channel.commitField_enable (c : Channel) (F : TimingField) (p r : Word) :
    (c.commitField F p r).enable = c.enable := by
  rcases F with ⟨_ | _ | _ | _⟩ | _ <;> rfl
@[simp] theorem Channel.commitField_controlType (c : Channel) (F : TimingField) (p r : Word) :
    (c.commitField F p r).controlType = c.controlType := by
  rcases F with ⟨_ | _ | _ | _⟩ | _ <;> rfl
@[simp] theorem Channel.commitField_dbgFfVel (c : Channel) (F : TimingField) (p r : Word) :
    (c.commitField F p r).dbgFfVel = c.dbgFfVel := by
  rcases F with ⟨_ | _ | _ | _⟩ | _ <;> rfl
@[simp] theorem Channel.commitField_dbgVelError (c : Channel) (F : TimingField) (p r : Word) :
    (c.commitField F p r).dbgVelError = c.dbgVelError := by
  rcases F with ⟨_ | _ | _ | _⟩ | _ <;> rfl
@[simp] theorem Channel.commitField_dbgSToMatch (c : Channel) (F : TimingField) (p r : Word) :
    (c.commitField F p r).dbgSToMatch = c.dbgSToMatch := by
  rcases F with ⟨_ | _ | _ | _⟩ | _ <;> rfl
@[simp] theorem Channel.commitField_dbgErrAtMatch (c : Channel) (F : TimingField) (p r : Word) :
    (c.commitField F p r).dbgErrAtMatch = c.dbgErrAtMatch := by
  rcases F with ⟨_ | _ | _ | _⟩ | _ <;> rfl
@[simp] theorem Channel.commitField_dbgPosMinusPrevCmd (c : Channel) (F : TimingField) (p r : Word) :
    (c.commitField F p r).dbgPosMinusPrevCmd = c.dbgPosMinusPrevCmd := by
  rcases F with ⟨_ | _ | _ | _⟩ | _ <;> rfl
@[simp] theorem Channel.commitField_dbgStepRate (c : Channel) (F : TimingField) (p r : Word) :
    (c.commitField F p r).dbgStepRate = c.dbgStepRate := by
  rcases F with ⟨_ | _ | _ | _⟩ | _ <;> rfl
@[simp] theorem Channel.commitField_stepRateReg (c : Channel) (F : TimingField) (p r : Word) :
    (c.commitField F p r).stepRateReg = c.stepRateReg := by
  rcases F with ⟨_ | _ | _ | _⟩ | _ <;> rfl
@[simp] theorem Channel.commitField_rateDraws (c : Channel) (F : TimingField) (p r : Word) :
    (c.commitField F p r).rateDraws = c.rateDraws := by
  rcases F with ⟨_ | _ | _ | _⟩ | _ <;> rfl

@[simp] theorem Channel.commitField_param (c : Channel) (F : TimingField) (p r : Word) :
    (c.commitField F p r).param F = p := by
  rcases F with ⟨_ | _ | _ | _⟩ | _ <;> rfl

theorem Channel.commitField_param_ne (c : Channel) (F G : TimingField) (p r : Word) (h : G ≠ F) :
    (c.commitField F p r).param G = c.param G := by
  rcases F with ⟨_ | _ | _ | _⟩ | _ <;> rcases G with ⟨_ | _ | _ | _⟩ | _ <;>
    first | rfl | exact absurd rfl h

@[simp] theorem Channel.commitField_shadow (c : Channel) (F : TimingField) (p r : Word) :
    (c.commitField F p r).shadow F = some p := by
  rcases F with ⟨_ | _ | _ | _⟩ | _ <;> rfl

theorem Channel.commitField_shadow_ne (c : Channel) (F G : TimingField) (p r : Word) (h : G ≠ F) :
    (c.commitField F p r).shadow G = c.shadow G := by
  rcases F with ⟨_ | _ | _ | _⟩ | _ <;> rcases G with ⟨_ | _ | _ | _⟩ | _ <;>
    first | rfl | exact absurd rfl h

@[simp] theorem Channel.commitField_cache (c : Channel) (F : TimingField) (p r : Word) :
    (c.commitField F p r).cache F = some r := by
  rcases F with ⟨_ | _ | _ | _⟩ | _ <;> rfl

theorem Channel.commitField_cache_ne (c : Channel) (F G : TimingField) (p r : Word) (h : G ≠ F) :
    (c.commitField F p r).cache G = c.cache G := by
  rcases F with ⟨_ | _ | _ | _⟩ | _ <;> rcases G with ⟨_ | _ | _ | _⟩ | _ <;>
    first | rfl | exact absurd rfl h

end Sys2Proof.Machine
end

