-- ==== Sys2Proof/Laws/Ops.lean ====
section
/-! SUPPORT. What the shared operations can do, each said once: the provers cite these lemmas and do
not unfold the operations. -/

namespace Sys2Proof.Machine

/-! ## The operand forms -/

theorem State.chan?_eq (ch : ChanIdx) (s : State) : s.chan? ch = s.channels[ch.toNat]? := rfl

theorem onChannel_some {ch : ChanIdx} {s : State} {c : Channel}
    (h : s.channels[ch.toNat]? = some c) (k : Nat → Channel → State) :
    onChannel ch s k = .next (k ch.toNat c) := by
  simp only [onChannel, State.chan?, h]

theorem onChannel_none {ch : ChanIdx} {s : State} (h : s.n ≤ ch.toNat)
    (k : Nat → Channel → State) : onChannel ch s k = .next (s.refuse .channelRange) := by
  have : s.channels[ch.toNat]? = none := List.getElem?_eq_none h
  simp only [onChannel, State.chan?, this]

theorem chanCommand_some {ch : ChanIdx} {s : State} {c : Channel}
    (h : s.channels[ch.toNat]? = some c) (a : Agent) (f : Nat → Channel → ChanOut) :
    chanCommand a ch s f = .next ((s.commit ch.toNat (f ch.toNat c)).advance a) :=
  onChannel_some h _

theorem chanCommand_none {ch : ChanIdx} {s : State} (h : s.n ≤ ch.toNat) (a : Agent)
    (f : Nat → Channel → ChanOut) :
    chanCommand a ch s f = .next (s.refuse .channelRange) :=
  onChannel_none h _

/-- A channel index is in range exactly where there is a record. -/
theorem State.channel_cases (s : State) (k : Nat) :
    (∃ c, s.channels[k]? = some c) ∨ s.n ≤ k := by
  rcases Nat.lt_or_ge k s.n with h | h
  · exact .inl ⟨_, List.getElem?_eq_getElem h⟩
  · exact .inr h

theorem State.lt_n {s : State} {k : Nat} {c : Channel} (h : s.channels[k]? = some c) : k < s.n := by
  rw [State.n]
  exact (List.getElem?_eq_some_iff.mp h).1

/-- A selector names an item exactly where it is at most 16. -/
theorem itemOf_isSome (sel : Byte) : (itemOf sel).isSome = decide (sel.toNat ≤ 16) := by
  revert sel
  decide

/-- A period is accepted exactly where it is finite and above 0 (41_controller.md R150). -/
theorem periodOk_eq (T : F64) : periodOk T = (T.isFinite && !T.sign && !T.isZero) := by
  have h1 := T.isFinite_iff
  have h2 := T.isNaN_iff
  have h3 : (F64.inf false).isNaN = false := by decide
  have h4 : (F64.inf false).key = (F64.infMag : Int) := by decide
  have h5 : F64.infMag = 2047 * 2 ^ 52 := rfl
  rw [Bool.eq_iff_iff]
  simp only [periodOk, F64.gt, Bool.and_eq_true, F64.lt_iff_key, F64.zeroLit_isNaN,
    F64.zeroLit_key, h3, h4, Bool.not_eq_true', F64.isZero, beq_eq_false_iff_ne, h1]
  rw [← Bool.not_eq_true T.isNaN, h2]
  unfold F64.key
  cases T.sign
  · simp; omega
  · simp

/-! ## What a command on a channel leaves -/

/-- What an unrefused command on channel `k` leaves of its record, its diagnostics and its events. -/
def chanOut (cfg : GroupConfig) (i : Instr) (k : Nat) (c : Channel) : ChanOut :=
  match i with
  | .tramRead | .tramWrite | .forcedResync => ChanOut.of c
  | .decode _ => decodeChan k c
  | .control _ T => controlChan T k c
  | .encode _ => encodeChan cfg k c
  | .syncDirsetup _ => syncField cfg (.dur .dirsetup) false k c
  | .syncDirhold _ => syncField cfg (.dur .dirhold) false k c
  | .syncSteplen _ => syncField cfg (.dur .steplen) false k c
  | .syncStepspace _ => syncField cfg (.dur .stepspace) false k c
  | .syncSteptype _ => syncField cfg .stepType false k c
  | .setPositionScale _ v => ChanOut.of { c with positionScale := v }
  | .setMaxvel _ v => ChanOut.of { c with maxvel := v }
  | .setMaxaccel _ v => ChanOut.of { c with maxaccel := v }
  | .setSteplen _ v => ChanOut.of { c with steplen := v }
  | .setStepspace _ v => ChanOut.of { c with stepspace := v }
  | .setDirsetup _ v => ChanOut.of { c with dirsetup := v }
  | .setDirhold _ v => ChanOut.of { c with dirhold := v }
  | .setStepType _ v => ChanOut.of { c with stepType := v }
  | .setPositionCmd _ v => ChanOut.of { c with positionCmd := v }
  | .setVelocityCmd _ v => ChanOut.of { c with velocityCmd := v }
  | .setEnable _ v => ChanOut.of { c with enable := v == 1#32 }
  | .setControlType _ v =>
    ChanOut.of { c with controlType := if v == 1#32 then .velocity else .position }
  | .hostRead _ _ => ChanOut.of c

/-- What it returns to the HOST agent. -/
def chanReads (i : Instr) (c : Channel) : List HostValue :=
  match i with
  | .hostRead _ sel => ((itemOf sel).map c.item).toList
  | _ => []

/-- The state after an unrefused command on channel `k`. -/
def afterChan (i : Instr) (k : Nat) (c : Channel) (s : State) : State :=
  { (s.commit k (chanOut s.cfg i k c)).advance i.op.agent with
    hostReads := s.hostReads ++ chanReads i c }

theorem set_getElem?_self {α : Type} {l : List α} {k : Nat} {c : α} (h : l[k]? = some c) :
    l.set k c = l := by
  obtain ⟨hk, rfl⟩ := List.getElem?_eq_some_iff.mp h
  exact List.set_getElem_self hk

/-- An unrefused command on a channel does what `afterChan` says. -/
theorem exec_channel {i : Instr} {ch : ChanIdx} {s : State} {c : Channel} (hi : i.chan? = some ch)
    (hc : s.channels[ch.toNat]? = some c) (hr : refusalOf s.n i = none) :
    exec i s = .next (afterChan i ch.toNat c s) := by
  have hn : ¬ s.n ≤ ch.toNat := Nat.not_le.mpr (State.lt_n hc)
  cases i <;> simp only [Instr.chan?, Option.some.injEq, reduceCtorEq] at hi <;> subst hi <;>
    simp only [exec, execDecode, execEncode, execSyncDirsetup, execSyncDirhold, execSyncSteplen,
      execSyncStepspace, execSyncSteptype, syncCommand, execSetPositionScale, execSetMaxvel,
      execSetMaxaccel, execSetSteplen, execSetStepspace, execSetDirsetup, execSetDirhold,
      execSetStepType, execSetPositionCmd, execSetVelocityCmd, hostSet, chanCommand_some hc] <;>
    try (simp only [afterChan, chanOut, chanReads, List.append_nil]; rfl)
  case control ch T =>
    simp only [refusalOf, hn, if_false, ← periodOk_eq] at hr
    rw [execControl, onChannel_some hc]
    split at hr
    · rename_i hp
      simp only [hp, if_true, afterChan, chanOut, chanReads, List.append_nil]
      rfl
    · cases hr
  case setEnable ch v =>
    have hv : ¬ 1 < v.toNat := by
      simp only [refusalOf, hn, if_false] at hr
      split at hr
      · cases hr
      · assumption
    rw [execSetEnable, hostSetBit, onChannel_some hc]
    simp only [if_neg hv, afterChan, chanOut, chanReads, List.append_nil]
    rfl
  case setControlType ch v =>
    have hv : ¬ 1 < v.toNat := by
      simp only [refusalOf, hn, if_false] at hr
      split at hr
      · cases hr
      · assumption
    rw [execSetControlType, hostSetBit, onChannel_some hc]
    simp only [if_neg hv, afterChan, chanOut, chanReads, List.append_nil]
    rfl
  case hostRead ch sel =>
    have hs := itemOf_isSome sel
    have hle : sel.toNat ≤ 16 := by
      simp only [refusalOf] at hr
      split at hr
      · cases hr
      · omega
    rw [decide_eq_true hle] at hs
    obtain ⟨it, hit⟩ := Option.isSome_iff_exists.mp hs
    simp only [execHostRead, hit, onChannel_some hc, afterChan, chanOut, chanReads,
      Option.map_some, Option.toList_some]
    rw [show s.commit ch.toNat (ChanOut.of c) = s by
      simp [State.commit, ChanOut.of, set_getElem?_self hc]]
    rfl

/-! ## Everything a command can do -/

/-- A command on a channel that does not complete is refused, for the reason `refusalOf` gives. -/
theorem exec_channel_refused {i : Instr} {ch : ChanIdx} {s : State} {r : RefuseReason}
    (hi : i.chan? = some ch) (hr : refusalOf s.n i = some r) : exec i s = .next (s.refuse r) := by
  rcases s.channel_cases ch.toNat with ⟨c, hc⟩ | hn
  · have hn : ¬ s.n ≤ ch.toNat := Nat.not_le.mpr (State.lt_n hc)
    cases i <;> simp only [Instr.chan?, Option.some.injEq, reduceCtorEq] at hi <;> subst hi <;>
      simp only [refusalOf, hn, if_false, reduceCtorEq] at hr
    case control ch T =>
      split at hr <;> cases hr
      rename_i hp
      rw [← periodOk_eq] at hp
      simp only [exec, execControl, onChannel_some hc, if_neg hp]
    case setEnable ch v =>
      split at hr <;> cases hr
      rename_i hv
      simp only [exec, execSetEnable, hostSetBit, onChannel_some hc, if_pos hv]
    case setControlType ch v =>
      split at hr <;> cases hr
      rename_i hv
      simp only [exec, execSetControlType, hostSetBit, onChannel_some hc, if_pos hv]
    case hostRead ch sel =>
      split at hr <;> cases hr
      rename_i hv
      have hs := itemOf_isSome sel
      rw [decide_eq_false (by omega)] at hs
      simp only [exec, execHostRead]
      rw [Option.isNone_iff_eq_none.mp (Option.isSome_eq_false_iff.mp hs)]
  · cases i <;> simp only [Instr.chan?, Option.some.injEq, reduceCtorEq] at hi <;> subst hi <;>
      simp only [refusalOf, hn, if_true, Option.some.injEq] at hr <;> try subst hr
    case hostRead ch sel =>
      have hs := itemOf_isSome sel
      split at hr <;> cases hr
      · rename_i hv
        rw [decide_eq_false (by omega)] at hs
        simp only [exec, execHostRead]
        rw [Option.isNone_iff_eq_none.mp (Option.isSome_eq_false_iff.mp hs)]
      · rename_i hv
        rw [decide_eq_true (by omega)] at hs
        obtain ⟨it, hit⟩ := Option.isSome_iff_exists.mp hs
        simp only [exec, execHostRead, hit, onChannel_none hn]
    all_goals
      simp only [exec, execDecode, execControl, execEncode, execSyncDirsetup, execSyncDirhold,
        execSyncSteplen, execSyncStepspace, execSyncSteptype, syncCommand, execSetPositionScale,
        execSetMaxvel, execSetMaxaccel, execSetSteplen, execSetStepspace, execSetDirsetup,
        execSetDirhold, execSetStepType, execSetPositionCmd, execSetVelocityCmd, execSetEnable,
        execSetControlType, hostSet, hostSetBit, chanCommand_none hn, onChannel_none hn]

/-- An unrefused command on a channel has a record to act on. -/
theorem channel_of_not_refused {i : Instr} {ch : ChanIdx} {s : State} (hi : i.chan? = some ch)
    (hr : refusalOf s.n i = none) : ∃ c, s.channels[ch.toNat]? = some c := by
  rcases s.channel_cases ch.toNat with h | hn
  · exact h
  · cases i <;> simp only [Instr.chan?, Option.some.injEq, reduceCtorEq] at hi <;> subst hi <;>
      simp only [refusalOf, hn, if_true, reduceCtorEq] at hr
    split at hr <;> cases hr

/-- Everything `exec` can do: it refuses the command, or it is one of the three commands without a
channel, or it does on its channel what `afterChan` says. -/
theorem exec_cases {i : Instr} {s t : State} (h : exec i s = .next t) :
    (∃ r, refusalOf s.n i = some r ∧ t = s.refuse r) ∨
    (refusalOf s.n i = none ∧
      ((i = .tramRead ∧ t = (tramReadState s).advance .rt) ∨
       (i = .tramWrite ∧ t = (s.emit (.batchWrite
          (batchEntries s.cfg .stepRate (s.channels.map Channel.stepRateReg)))).advance .rt) ∨
       (i = .forcedResync ∧ t = (resyncState s).masterEnable.advance .rt) ∨
       ∃ ch c, i.chan? = some ch ∧ s.channels[ch.toNat]? = some c ∧
         t = afterChan i ch.toNat c s)) := by
  cases hi : i.chan? with
  | none =>
    right
    cases i <;> simp only [Instr.chan?, reduceCtorEq] at hi <;> refine ⟨rfl, ?_⟩ <;>
      (injection h with h; subst h; simp)
  | some ch =>
    cases hr : refusalOf s.n i with
    | some r =>
      rw [exec_channel_refused hi hr] at h
      injection h with h
      exact .inl ⟨r, rfl, h.symm⟩
    | none =>
      obtain ⟨c, hc⟩ := channel_of_not_refused hi hr
      rw [exec_channel hi hc hr] at h
      injection h with h
      exact .inr ⟨rfl, .inr (.inr (.inr ⟨ch, c, rfl, hc, h.symm⟩))⟩

/-! ## The fields after a command on a channel -/

@[simp] theorem afterChan_cfg (i : Instr) (k : Nat) (c : Channel) (s : State) :
    (afterChan i k c s).cfg = s.cfg := by simp [afterChan]
@[simp] theorem afterChan_channels (i : Instr) (k : Nat) (c : Channel) (s : State) :
    (afterChan i k c s).channels = s.channels.set k (chanOut s.cfg i k c).chan := by
  simp [afterChan]
@[simp] theorem afterChan_n (i : Instr) (k : Nat) (c : Channel) (s : State) :
    (afterChan i k c s).n = s.n := by simp [State.n]
@[simp] theorem afterChan_rtList (i : Instr) (k : Nat) (c : Channel) (s : State) :
    (afterChan i k c s).rtList = s.rtList := by simp [afterChan]
@[simp] theorem afterChan_hostList (i : Instr) (k : Nat) (c : Channel) (s : State) :
    (afterChan i k c s).hostList = s.hostList := by simp [afterChan]
@[simp] theorem afterChan_schedule (i : Instr) (k : Nat) (c : Channel) (s : State) :
    (afterChan i k c s).schedule = s.schedule := by simp [afterChan]
@[simp] theorem afterChan_wlog (i : Instr) (k : Nat) (c : Channel) (s : State) :
    (afterChan i k c s).wlog = s.wlog ++ (chanOut s.cfg i k c).events := by
  simp [afterChan]
@[simp] theorem afterChan_diag (i : Instr) (k : Nat) (c : Channel) (s : State) :
    (afterChan i k c s).diag = s.diag ++ (chanOut s.cfg i k c).diags := by
  simp [afterChan]
@[simp] theorem afterChan_refused (i : Instr) (k : Nat) (c : Channel) (s : State) :
    (afterChan i k c s).refused = s.refused := by simp [afterChan]
@[simp] theorem afterChan_acc (i : Instr) (k : Nat) (c : Channel) (s : State) :
    (afterChan i k c s).acc = s.acc := by simp [afterChan]
@[simp] theorem afterChan_draws (i : Instr) (k : Nat) (c : Channel) (s : State) :
    (afterChan i k c s).draws = s.draws := by simp [afterChan]
@[simp] theorem afterChan_hostReads (i : Instr) (k : Nat) (c : Channel) (s : State) :
    (afterChan i k c s).hostReads = s.hostReads ++ chanReads i c := rfl

theorem afterChan_counters (i : Instr) (k : Nat) (c : Channel) (s : State) :
    (i.op.agent = .rt → (afterChan i k c s).pc = s.pc + 1 ∧ (afterChan i k c s).hpc = s.hpc) ∧
    (i.op.agent = .host → (afterChan i k c s).pc = s.pc ∧ (afterChan i k c s).hpc = s.hpc + 1) := by
  constructor <;> intro h <;> simp only [afterChan, h] <;> exact ⟨rfl, rfl⟩

/-! ## The oracle and the batches -/

@[simp] theorem State.answers_length (n : Nat) (s : State) : (s.answers n).length = n := by
  simp [State.answers]
  omega

theorem batchEntries_eq (cfg : GroupConfig) (k : Kind) (vs : List Word) :
    batchEntries cfg k vs =
      (List.range vs.length).map (fun j => (regAddr cfg k j, vs.getD j 0#32)) := by
  apply List.ext_getElem?
  intro j
  simp only [batchEntries, List.getElem?_map, List.getElem?_zipIdx]
  rcases Nat.lt_or_ge j vs.length with h | h
  · simp [h, List.getD_eq_getElem?_getD]
  · simp [Nat.not_lt.mpr h]

@[simp] theorem batchEntries_addrs (cfg : GroupConfig) (k : Kind) (vs : List Word) :
    (batchEntries cfg k vs).map Prod.fst = (List.range vs.length).map (regAddr cfg k) := by
  rw [batchEntries_eq, List.map_map]
  rfl

theorem latchRaw_length (cs : List Channel) (vs : List Word) (h : vs.length = cs.length) :
    (latchRaw cs vs).length = cs.length := by
  simp [latchRaw, h]

theorem latchRaw_getElem? {cs : List Channel} {vs : List Word} {k : Nat} {c' : Channel}
    (hc : (latchRaw cs vs)[k]? = some c') :
    ∃ c v, cs[k]? = some c ∧ vs[k]? = some v ∧ c' = { c with rawAcc := v } := by
  simp only [latchRaw, List.getElem?_zipWith] at hc
  cases hk : cs[k]? <;> cases hv : vs[k]? <;> simp [hk, hv] at hc
  exact ⟨_, _, rfl, rfl, hc.symm⟩

@[simp] theorem tramReadState_cfg (s : State) : (tramReadState s).cfg = s.cfg := rfl
@[simp] theorem tramReadState_channels (s : State) :
    (tramReadState s).channels = latchRaw s.channels (s.answers s.n) := rfl
@[simp] theorem tramReadState_n (s : State) : (tramReadState s).n = s.n := by
  rw [State.n, tramReadState_channels, latchRaw_length _ _ (by simp [State.n])]
  rfl
@[simp] theorem tramReadState_wlog (s : State) : (tramReadState s).wlog =
    s.wlog ++ [.batchRead (batchEntries s.cfg .accumulator (s.answers s.n))] := rfl
@[simp] theorem tramReadState_diag (s : State) : (tramReadState s).diag = s.diag := rfl

/-! ## FORCED_RESYNC -/

@[simp] theorem resyncFrom_length (cfg : GroupConfig) (i : Nat) (cs : List Channel) :
    (resyncFrom cfg i cs).length = cs.length := by
  induction cs generalizing i with
  | nil => rfl
  | cons c cs ih => simp [resyncFrom, ih]

theorem resyncFrom_getElem? (cfg : GroupConfig) (i : Nat) (cs : List Channel) (k : Nat) :
    (resyncFrom cfg i cs)[k]? = cs[k]?.map (resyncChan cfg (i + k)) := by
  induction cs generalizing i k with
  | nil => simp [resyncFrom]
  | cons c cs ih =>
    cases k with
    | zero => simp [resyncFrom]
    | succ k => simp [resyncFrom, ih, Nat.add_assoc, Nat.add_comm 1 k]

@[simp] theorem resyncState_cfg (s : State) : (resyncState s).cfg = s.cfg := rfl
@[simp] theorem resyncState_n (s : State) : (resyncState s).n = s.n := by
  simp [State.n, resyncState]
@[simp] theorem resyncState_channels (s : State) :
    (resyncState s).channels = (resyncFrom s.cfg 0 s.channels).map ChanOut.chan := rfl
@[simp] theorem resyncState_wlog (s : State) : (resyncState s).wlog =
    s.wlog ++ (resyncFrom s.cfg 0 s.channels).flatMap ChanOut.events := rfl
@[simp] theorem resyncState_diag (s : State) : (resyncState s).diag =
    s.diag ++ (resyncFrom s.cfg 0 s.channels).flatMap ChanOut.diags := rfl

theorem resyncState_channel {s : State} {k : Nat} {c' : Channel}
    (h : (resyncState s).channels[k]? = some c') :
    ∃ c, s.channels[k]? = some c ∧ c' = (resyncChan s.cfg k c).chan := by
  rw [resyncState_channels, List.getElem?_map, resyncFrom_getElem?, Nat.zero_add] at h
  cases hc : s.channels[k]? with
  | none => simp [hc] at h
  | some c => exact ⟨c, rfl, by simpa [hc] using h.symm⟩

/-- A forced sync of a field always commits it. -/
theorem syncField_force (cfg : GroupConfig) (F : TimingField) (i : Nat) (c : Channel) :
    syncField cfg F true i c =
      { chan := c.commitField F (transform cfg F i (c.param F)).param
          (transform cfg F i (c.param F)).reg,
        diags := (transform cfg F i (c.param F)).diag.toList,
        events := [.write (regAddr cfg F.kind i) (transform cfg F i (c.param F)).reg] } := by
  simp [syncField]

/-- A sync commits a dirty field as a forced one does. -/
theorem syncField_dirty {c : Channel} {F : TimingField} (h : c.shadow F ≠ some (c.param F))
    (cfg : GroupConfig) (i : Nat) : syncField cfg F false i c = syncField cfg F true i c := by
  simp [syncField, Channel.dirty, dirtyShadow, h]

/-- A sync of a clean field does nothing. -/
theorem syncField_clean {c : Channel} {F : TimingField} (h : c.shadow F = some (c.param F))
    (cfg : GroupConfig) (i : Nat) : syncField cfg F false i c = ChanOut.of c := by
  simp [syncField, Channel.dirty, dirtyShadow, h]

end Sys2Proof.Machine
end

