-- ==== Sys2Proof/Laws/Timing.lean ====
section
/-! SUPPORT. The binary64 arithmetic of the timing manager computes the exact integers of
`exactTiming` (43_timing.md R214, R215). -/

namespace Sys2Proof.Machine

theorem giga_val : F64.giga.isFinite = true ∧ F64.giga.val = 10 ^ 9 := by
  obtain ⟨h1, h2, -⟩ := F64.ofNat_exact (n := 1000000000) (by norm_num)
  exact ⟨h1, by rw [F64.giga, h2]; norm_num⟩

theorem timingMax_val : F64.timingMax.isFinite = true ∧ F64.timingMax.val = 16383 := by
  obtain ⟨h1, h2, -⟩ := F64.ofNat_exact (n := 16383) (by norm_num)
  exact ⟨h1, by rw [F64.timingMax, h2]; norm_num⟩

theorem ofNat_word (w : Word) : (F64.ofNat w.toNat).isFinite = true ∧
    (F64.ofNat w.toNat).val = w.toNat ∧ (F64.ofNat w.toNat).sign = false :=
  F64.ofNat_exact (le_trans (le_of_lt w.isLt) (by norm_num))

/-- What stands before rounding in R214: the quotient `z` of the rounded product `y`. -/
theorem duration_quotient (cfg : GroupConfig) (p : Word) :
    ∃ y z : F64, F64.nearest (p.toNat * cfg.clockHz.toNat : Nat) y ∧
      F64.nearest (y.val / 10 ^ 9) z ∧ durationUnits cfg p = z.roundHalfAway := by
  obtain ⟨a1, a2, -⟩ := ofNat_word p
  obtain ⟨b1, b2, -⟩ := ofNat_word cfg.clockHz
  obtain ⟨g1, g2⟩ := giga_val
  have hN : p.toNat * cfg.clockHz.toNat ≤ 2 ^ 64 := by
    have h1 := p.isLt
    have h2 := cfg.clockHz.isLt
    calc p.toNat * cfg.clockHz.toNat ≤ 2 ^ 32 * 2 ^ 32 := Nat.mul_le_mul (le_of_lt h1) (le_of_lt h2)
      _ = 2 ^ 64 := by norm_num
  have hNq : ((p.toNat * cfg.clockHz.toNat : Nat) : ℚ) ≤ 2 ^ 64 := by exact_mod_cast hN
  have hN0 : (0 : ℚ) ≤ ((p.toNat * cfg.clockHz.toNat : Nat) : ℚ) := Nat.cast_nonneg _
  have hy := F64.mul_rounded a1 b1
  rw [a2, b2, ← Nat.cast_mul] at hy
  have hy' := F64.nearest_of_rounded_small hy (by
    rw [abs_of_nonneg hN0]
    exact le_trans hNq (by gcongr <;> norm_num))
  obtain ⟨t, t1, t2⟩ := F64.exists_val (m := 1) (e := 64) (by norm_num) (by norm_num) (by norm_num)
  have htv : t.val = 2 ^ 64 := by rw [t2]; norm_num
  have hyle := F64.nearest_le hy' t1 (by rw [htv]; exact hNq)
  have hyge := F64.nearest_ge hy' (y := F64.zero false) rfl (by rw [F64.zero_val]; exact hN0)
  rw [F64.zero_val] at hyge
  rw [htv] at hyle
  have hz := F64.div_rounded hy'.1 g1 (by rw [g2]; norm_num)
  rw [g2] at hz
  refine ⟨_, _, hy', F64.nearest_of_rounded_small hz ?_, rfl⟩
  rw [abs_of_nonneg (by positivity)]
  calc _ ≤ (2 : ℚ) ^ 64 / 10 ^ 9 := by gcongr
    _ ≤ 2 ^ 64 := by norm_num
    _ ≤ 2 ^ 1000 := by gcongr <;> norm_num

/-- Where the nearest number of clock periods is at most 16383, it is what R214 computes. -/
theorem durationUnits_exact (cfg : GroupConfig) (p : Word)
    (h : (2 * (p.toNat * cfg.clockHz.toNat) + 10 ^ 9) / (2 * 10 ^ 9) ≤ 16383) :
    durationUnits cfg p =
      F64.ofNat ((2 * (p.toNat * cfg.clockHz.toNat) + 10 ^ 9) / (2 * 10 ^ 9)) := by
  obtain ⟨y, z, hy, hz, hd⟩ := duration_quotient cfg p
  generalize p.toNat * cfg.clockHz.toNat = N at *
  have h1 := Nat.div_add_mod (2 * N + 10 ^ 9) (2 * 10 ^ 9)
  have h2 := Nat.mod_lt (2 * N + 10 ^ 9) (show 0 < 2 * 10 ^ 9 by norm_num)
  generalize (2 * N + 10 ^ 9) / (2 * 10 ^ 9) = K at *
  have hN : N < 2 ^ 53 := by omega
  -- the product is exact
  obtain ⟨e1, e2, -⟩ := F64.ofNat_exact (le_of_lt hN)
  rw [← e2] at hy
  have hyv := F64.nearest_exact hy e1
  rw [e2] at hyv
  rw [hyv] at hz
  -- the quotient stays on its side of the half places around K
  have hlo : (K : ℚ) - 1 / 2 ≤ z.val := by
    rcases Nat.eq_zero_or_pos K with h0 | h0
    · have := F64.nearest_ge hz (y := F64.zero false) rfl
        (by rw [F64.zero_val]; exact div_nonneg (Nat.cast_nonneg _) (by norm_num))
      rw [F64.zero_val] at this
      rw [h0]
      push_cast
      linarith
    · obtain ⟨t, t1, t2⟩ := F64.exists_val (m := 2 * K - 1) (e := -1) (by omega) (by norm_num)
        (by norm_num)
      have ht : t.val = (K : ℚ) - 1 / 2 := by
        rw [t2, Nat.cast_sub (by omega)]
        push_cast
        norm_num
        ring
      rw [← ht]
      refine F64.nearest_ge hz t1 ?_
      rw [ht, le_div_iff₀ (by norm_num)]
      have h3 : 2 * 10 ^ 9 * K ≤ 2 * N + 10 ^ 9 := by omega
      have : ((2 * 10 ^ 9 * K : Nat) : ℚ) ≤ ((2 * N + 10 ^ 9 : Nat) : ℚ) := by exact_mod_cast h3
      push_cast at this
      linarith
  have hhi : z.val < (K : ℚ) + 1 / 2 := by
    obtain ⟨t, t1, t2⟩ := F64.exists_val (m := 2 ^ 35 * (2 * K + 1) - 1) (e := -36) (by omega)
      (by norm_num) (by norm_num)
    have ht : t.val = (K : ℚ) + 1 / 2 - 1 / 2 ^ 36 := by
      rw [t2, Nat.cast_sub (by omega), zpow_neg]
      push_cast
      norm_num
      ring
    have h3 : z.val ≤ t.val := by
      refine F64.nearest_le hz t1 ?_
      rw [ht, div_le_iff₀ (by norm_num)]
      have h4 : 2 * N + 1 ≤ 2 * 10 ^ 9 * K + 10 ^ 9 := by omega
      have : ((2 * N + 1 : Nat) : ℚ) ≤ ((2 * 10 ^ 9 * K + 10 ^ 9 : Nat) : ℚ) := by exact_mod_cast h4
      push_cast at this
      norm_num
      linarith
    rw [ht] at h3
    have : (0 : ℚ) < 1 / 2 ^ 36 := by norm_num
    linarith
  have hk : z.roundHalfInt = (K : Int) := by
    rw [F64.roundHalfInt_eq, Int.floor_eq_iff]
    push_cast
    constructor <;> linarith
  rw [hd, F64.roundHalfAway, hk, F64.ofInt_natCast]

/-- Where it is more, R214's result is above 16383.0. -/
theorem durationUnits_large (cfg : GroupConfig) (p : Word)
    (h : 16383 < (2 * (p.toNat * cfg.clockHz.toNat) + 10 ^ 9) / (2 * 10 ^ 9)) :
    (durationUnits cfg p).gt F64.timingMax = true := by
  obtain ⟨y, z, hy, hz, hd⟩ := duration_quotient cfg p
  obtain ⟨m1, m2⟩ := timingMax_val
  have hN : p.toNat * cfg.clockHz.toNat ≤ 2 ^ 64 := by
    have h1 := p.isLt
    have h2 := cfg.clockHz.isLt
    calc p.toNat * cfg.clockHz.toNat ≤ 2 ^ 32 * 2 ^ 32 := Nat.mul_le_mul (le_of_lt h1) (le_of_lt h2)
      _ = 2 ^ 64 := by norm_num
  generalize p.toNat * cfg.clockHz.toNat = N at *
  have hN' : 16383500000000 ≤ N := by omega
  obtain ⟨t, t1, t2⟩ := F64.exists_val (m := 16383500000000) (e := 0) (by norm_num) (by norm_num)
    (by norm_num)
  have h1 := F64.nearest_ge hy t1 (by
    rw [t2]
    have : ((16383500000000 : Nat) : ℚ) ≤ (N : ℚ) := by exact_mod_cast hN'
    simpa using this)
  rw [t2] at h1
  obtain ⟨u, u1, u2⟩ := F64.exists_val (m := 32767) (e := -1) (by norm_num) (by norm_num)
    (by norm_num)
  have h2 := F64.nearest_ge hz u1 (by
    rw [u2, le_div_iff₀ (by norm_num)]
    norm_num at h1 ⊢
    linarith)
  rw [u2] at h2
  -- and from above, so that the result is finite
  obtain ⟨w, w1, w2⟩ := F64.exists_val (m := 1) (e := 64) (by norm_num) (by norm_num) (by norm_num)
  have hw : w.val = 2 ^ 64 := by rw [w2]; norm_num
  have h3 := F64.nearest_le hy w1 (by rw [hw]; exact_mod_cast hN)
  have h4 := F64.nearest_le hz w1 (by
    rw [hw] at h3 ⊢
    rw [div_le_iff₀ (by norm_num)]
    norm_num at h3 ⊢
    linarith)
  rw [hw] at h4
  have h5 : 16384 ≤ z.roundHalfInt := by
    rw [F64.roundHalfInt_eq, Int.le_floor]
    norm_num at h2 ⊢
    linarith
  have h6 : z.roundHalfInt ≤ 2 ^ 64 := by
    have : z.roundHalfInt < 2 ^ 64 + 1 := by
      rw [F64.roundHalfInt_eq, Int.floor_lt]
      norm_num at h4 ⊢
      linarith
    omega
  obtain ⟨k, hk⟩ : ∃ k : Nat, z.roundHalfInt = k := ⟨z.roundHalfInt.toNat, by omega⟩
  rw [hk] at h5 h6
  have hx : durationUnits cfg p = F64.ofNat k := by
    rw [hd, F64.roundHalfAway, hk, F64.ofInt_natCast]
  have hr := F64.nearest_of_rounded_small (F64.ofNat_rounded k) (by
    rw [abs_of_nonneg (Nat.cast_nonneg k)]
    have : (k : ℚ) ≤ 2 ^ 64 := by exact_mod_cast h6
    exact le_trans this (by gcongr <;> norm_num))
  obtain ⟨v, v1, v2⟩ := F64.exists_val (m := 16384) (e := 0) (by norm_num) (by norm_num)
    (by norm_num)
  have h7 := F64.nearest_ge hr v1 (by
    rw [v2]
    have : ((16384 : Int) : ℚ) ≤ ((k : Int) : ℚ) := by exact_mod_cast h5
    push_cast at this
    simpa using this)
  rw [v2] at h7
  rw [F64.gt, F64.lt_iff_val (F64.not_isNaN_of_isFinite m1)
    (by rw [hx]; exact F64.not_isNaN_of_isFinite hr.1), m2, hx]
  norm_num at h7
  linarith

/-- R215's back-computed parameter is the truncated quotient. -/
theorem backComputed_eq (cfg : GroupConfig) (h : cfg.clockHz ≠ 0#32) :
    backComputed cfg = BitVec.ofNat 32 (16383 * 10 ^ 9 / cfg.clockHz.toNat) := by
  have hC : 0 < cfg.clockHz.toNat := by
    rcases Nat.eq_zero_or_pos cfg.clockHz.toNat with h0 | h0
    · exact absurd (BitVec.eq_of_toNat_eq h0) h
    · exact h0
  have hC32 := cfg.clockHz.isLt
  obtain ⟨b1, b2, b3⟩ := ofNat_word cfg.clockHz
  have hprod : F64.timingMax.mul F64.giga = F64.ofNat 16383000000000 := by decide
  obtain ⟨a1, a2, a3⟩ := F64.ofNat_exact (n := 16383000000000) (by norm_num)
  unfold backComputed
  rw [hprod]
  generalize cfg.clockHz.toNat = C at *
  have hCq : (0 : ℚ) < C := by exact_mod_cast hC
  have hw := F64.div_rounded a1 b1 (by rw [b2]; exact hCq.ne')
  have hs := F64.div_sign a1 b1 (by rw [b2]; exact hCq.ne')
  rw [a3, b3] at hs
  rw [a2, b2] at hw
  have hle : ((16383000000000 : Nat) : ℚ) / C ≤ 16383000000000 := by
    rw [div_le_iff₀ hCq]
    have : (1 : ℚ) ≤ C := by exact_mod_cast hC
    push_cast
    linarith
  have hw' := F64.nearest_of_rounded_small hw (by
    rw [abs_of_nonneg (by positivity)]
    exact le_trans hle (le_trans (by norm_num : (16383000000000 : ℚ) ≤ 2 ^ 50)
      (by gcongr; norm_num)))
  generalize (F64.ofNat 16383000000000).div (F64.ofNat C) = w at *
  have h1 := Nat.div_add_mod 16383000000000 C
  have h2 := Nat.mod_lt 16383000000000 hC
  have hQ : 16383 * 10 ^ 9 / C = 16383000000000 / C := by norm_num
  rw [hQ]
  have hQle : 16383000000000 / C ≤ 16383000000000 := Nat.div_le_self _ _
  have hQC : 16383000000000 / C * C ≤ 16383000000000 := Nat.div_mul_le_self _ _
  generalize 16383000000000 / C = Q at *
  have hlo : (Q : ℚ) ≤ w.val := by
    obtain ⟨q1, q2, -⟩ := F64.ofNat_exact (n := Q) (by omega)
    rw [← q2]
    refine F64.nearest_ge hw' q1 ?_
    rw [q2, le_div_iff₀ hCq]
    exact_mod_cast hQC
  have hhi : w.val < (Q : ℚ) + 1 := by
    -- a finite value between the quotient and Q + 1
    obtain ⟨k, hk⟩ : ∃ k, k = Nat.log2 C + 1 := ⟨_, rfl⟩
    have hk1 : C < 2 ^ k := by rw [hk]; exact (pow_log2 hC.ne').2
    have hk2 : 2 ^ k ≤ 2 * C := by
      rw [hk, pow_succ]
      have := (pow_log2 hC.ne').1
      omega
    have hk3 : k ≤ 32 := by
      rw [hk]
      have := log2_lt_of_lt hC.ne' hC32
      omega
    have hm : (Q + 1) * 2 ^ k - 1 < 2 ^ 53 := by
      have : (Q + 1) * 2 ^ k ≤ (Q + 1) * (2 * C) := Nat.mul_le_mul_left _ hk2
      have h3 : (Q + 1) * (2 * C) = 2 * (Q * C) + 2 * C := by ring
      omega
    obtain ⟨t, t1, t2⟩ := F64.exists_val (e := -(k : Int)) hm (by omega) (by omega)
    have hpk : (0 : ℚ) < 2 ^ k := by positivity
    have hge : 1 ≤ (Q + 1) * 2 ^ k := Nat.mul_pos (Nat.succ_pos _) (by positivity)
    have ht : t.val = (Q : ℚ) + 1 - 1 / 2 ^ k := by
      rw [t2, Nat.cast_sub hge, zpow_neg, zpow_natCast]
      push_cast
      field_simp
    have h3 : w.val ≤ t.val := by
      refine F64.nearest_le hw' t1 ?_
      rw [ht, div_le_iff₀ hCq]
      have h4 : 16383000000000 + 1 ≤ (Q + 1) * C := by
        rw [Nat.add_mul, Nat.one_mul, Nat.mul_comm Q C]
        omega
      have h5 : ((16383000000000 + 1 : Nat) : ℚ) ≤ (((Q + 1) * C : Nat) : ℚ) := by exact_mod_cast h4
      push_cast at h5 ⊢
      have h6 : 1 / 2 ^ k * (C : ℚ) ≤ 1 := by
        rw [div_mul_eq_mul_div, one_mul, div_le_one hpk]
        exact_mod_cast hk1.le
      rw [sub_mul]
      linarith
    rw [ht] at h3
    have : (0 : ℚ) < 1 / 2 ^ k := by positivity
    linarith
  have htr : w.trunc = (Q : Int) := by
    rw [F64.trunc_of_sign_false hs, Int.floor_eq_iff]
    push_cast
    exact ⟨hlo, hhi⟩
  rw [htr, BitVec.ofInt_natCast]

theorem exactTiming_dur_le (clock : Nat) (f : DurField) (p : Nat) :
    (exactTiming clock (.dur f) p).2 ≤ 16383 := by
  simp only [exactTiming]
  split
  · assumption
  · exact le_refl _

/-- R214 and R215 leave the parameter and the register of `exactTiming`, and report as R215 says. -/
theorem transformDuration_eq (cfg : GroupConfig) (f : DurField) (i : Nat) (p : Word) :
    (transformDuration cfg f i p).param =
      BitVec.ofNat 32 (exactTiming cfg.clockHz.toNat (.dur f) p.toNat).1 ∧
    (transformDuration cfg f i p).reg =
      BitVec.ofNat 32 (exactTiming cfg.clockHz.toNat (.dur f) p.toNat).2 ∧
    (transformDuration cfg f i p).diag.toList =
      exactReport cfg.clockHz.toNat (.dur f) i p.toNat := by
  obtain ⟨m1, m2⟩ := timingMax_val
  simp only [transformDuration, exactTiming, exactReport]
  by_cases h : (2 * (p.toNat * cfg.clockHz.toNat) + 10 ^ 9) / (2 * 10 ^ 9) ≤ 16383
  · have hx := durationUnits_exact cfg p h
    obtain ⟨e1, e2, e3⟩ := F64.ofNat_exact (le_trans h (by norm_num : 16383 ≤ 2 ^ 53))
    have hng : (durationUnits cfg p).gt F64.timingMax = false := by
      rw [hx, ← Bool.not_eq_true, F64.gt, F64.lt_iff_val (F64.not_isNaN_of_isFinite m1)
        (F64.not_isNaN_of_isFinite e1), m2, e2, not_lt]
      exact_mod_cast h
    rw [if_pos h, if_neg (by rw [hng]; simp), if_neg (by omega)]
    refine ⟨by simp, ?_, rfl⟩
    simp only
    rw [hx, F64.trunc_of_sign_false e3, e2, Int.floor_natCast, BitVec.ofInt_natCast]
  · have hg := durationUnits_large cfg p (by omega)
    have hC : cfg.clockHz ≠ 0#32 := by
      intro h0
      rw [h0] at h
      simp at h
    rw [if_neg h, if_pos hg, if_pos (by omega)]
    refine ⟨backComputed_eq cfg hC, ?_, rfl⟩
    simp only
    decide

/-- What a sync computes from a parameter, in exact integers. -/
theorem transform_eq (cfg : GroupConfig) (F : TimingField) (i : Nat) (p : Word) :
    (transform cfg F i p).param = BitVec.ofNat 32 (exactTiming cfg.clockHz.toNat F p.toNat).1 ∧
    (transform cfg F i p).reg = BitVec.ofNat 32 (exactTiming cfg.clockHz.toNat F p.toNat).2 ∧
    (transform cfg F i p).diag.toList = exactReport cfg.clockHz.toNat F i p.toNat := by
  cases F with
  | dur f => exact transformDuration_eq cfg f i p
  | stepType =>
    simp only [transform, validateStepType, exactTiming, exactReport]
    by_cases h : 2 < p.toNat
    · rw [if_pos h, if_neg (by omega), if_pos h]
      exact ⟨rfl, rfl, rfl⟩
    · rw [if_neg h, if_pos (by omega), if_neg h]
      exact ⟨by simp, by simp, rfl⟩

/-- A timing register's value is at most 0x3FFF, and the mode register's a step type. -/
theorem transform_reg_le (cfg : GroupConfig) (F : TimingField) (i : Nat) (p : Word) :
    (transform cfg F i p).reg.toNat ≤ 0x3FFF ∧
    (F = .stepType → (transform cfg F i p).reg.toNat ≤ 2) := by
  rw [(transform_eq cfg F i p).2.1, BitVec.toNat_ofNat]
  cases F with
  | dur f =>
    have := exactTiming_dur_le cfg.clockHz.toNat f p.toNat
    refine ⟨by omega, fun h => by cases h⟩
  | stepType =>
    have : (exactTiming cfg.clockHz.toNat .stepType p.toNat).2 ≤ 2 := by
      simp only [exactTiming]
      split
      · assumption
      · exact Nat.zero_le _
    exact ⟨by omega, fun _ => by omega⟩

end Sys2Proof.Machine
end

