-- ==== Sys2Proof/Laws/Sync.lean ====
section
/-! SUPPORT. What each check, each unit and each sync leaves of a channel's record, said once
(40_decoder.md, 41_controller.md, 42_encoder.md, 43_timing.md). -/

namespace Sys2Proof.Machine

/-! ## The self-correcting checks write one field each -/

theorem fixScale_eq (k : Nat) (c : Channel) :
    fixScale k c =
      ({ c with positionScale :=
          if c.positionScale.abs.lt F64.micro then
            (if c.positionScale.lt F64.zeroLit then F64.one.neg else F64.one)
          else c.positionScale },
        if c.positionScale.abs.lt F64.micro then [⟨.scaleCorrected, k, none⟩] else []) := by
  unfold fixScale; split <;> rfl

theorem maxaccelCheck_eq (k : Nat) (c : Channel) :
    maxaccelCheck k c =
      ({ c with maxaccel := if c.maxaccel.lt F64.zeroLit then c.maxaccel.abs else c.maxaccel },
        if c.maxaccel.lt F64.zeroLit then [⟨.maxaccelNegative, k, none⟩] else []) := by
  unfold maxaccelCheck; split <;> rfl

theorem maxvelSign_eq (k : Nat) (c : Channel) :
    maxvelSign k c =
      ({ c with maxvel := if c.maxvel.lt F64.zeroLit then c.maxvel.abs else c.maxvel },
        if c.maxvel.lt F64.zeroLit then [⟨.maxvelNegative, k, none⟩] else []) := by
  unfold maxvelSign; split <;> rfl

theorem maxvelLimit_eq (phys : F64) (k : Nat) (c : Channel) :
    maxvelLimit phys k c =
      ({ c with maxvel := if c.maxvel.gt phys then phys else c.maxvel },
        if c.maxvel.gt phys then [⟨.maxvelLimited, k, none⟩] else []) := by
  unfold maxvelLimit; split <;> rfl

theorem fixScale_frame (k : Nat) (c : Channel) :
    ∃ v, (fixScale k c).1 = { c with positionScale := v } := ⟨_, by rw [fixScale_eq]⟩

theorem maxaccelCheck_frame (k : Nat) (c : Channel) :
    ∃ v, (maxaccelCheck k c).1 = { c with maxaccel := v } := ⟨_, by rw [maxaccelCheck_eq]⟩

theorem maxvelChecks_frame (phys : F64) (k : Nat) (c : Channel) :
    ∃ v, (maxvelChecks phys k c).1 = { c with maxvel := v } := by
  simp only [maxvelChecks, maxvelSign_eq, maxvelLimit_eq]
  exact ⟨_, rfl⟩

/-! ## The units -/

theorem decodeChan_frame (k : Nat) (c : Channel) :
    ∃ ps sub pr cnt fb, (decodeChan k c).chan = { c with
      positionScale := ps, subcounts := sub, prevRaw := pr, counts := cnt, positionFb := fb } := by
  obtain ⟨v, hv⟩ := fixScale_frame k c
  simp only [decodeChan, decodeRaw, hv]
  exact ⟨_, _, _, _, _, rfl⟩

theorem modeWrites_frame (c : Channel) (T : F64) :
    ∃ old a b d e f, modeWrites c T = { c with
      oldPositionCmd := old, dbgFfVel := a, dbgVelError := b, dbgSToMatch := d,
      dbgErrAtMatch := e, dbgPosMinusPrevCmd := f } := by
  unfold modeWrites
  split
  · exact ⟨_, _, _, _, _, _, rfl⟩
  · exact ⟨_, _, _, _, _, _, rfl⟩

theorem controlChan_frame (T : F64) (k : Nat) (c : Channel) :
    ∃ ps mv ma vf old a b d e f, (controlChan T k c).chan = { c with
      positionScale := ps, maxvel := mv, maxaccel := ma, velocityFb := vf, oldPositionCmd := old,
      dbgFfVel := a, dbgVelError := b, dbgSToMatch := d, dbgErrAtMatch := e,
      dbgPosMinusPrevCmd := f } := by
  unfold controlChan
  split
  · obtain ⟨ma, h1⟩ := maxaccelCheck_frame k c
    simp only [controlEnabled, postProcess]
    rw [h1]
    obtain ⟨old, a, b, d, e, f, h2⟩ := modeWrites_frame { c with maxaccel := ma } T
    rw [h2]
    obtain ⟨ps, h3⟩ := fixScale_frame k { c with
      maxaccel := ma, oldPositionCmd := old, dbgFfVel := a, dbgVelError := b, dbgSToMatch := d,
      dbgErrAtMatch := e, dbgPosMinusPrevCmd := f }
    rw [h3]
    generalize physLimit _ = phys
    obtain ⟨mv, h4⟩ := maxvelChecks_frame phys k { c with
      positionScale := ps, maxaccel := ma, oldPositionCmd := old, dbgFfVel := a,
      dbgVelError := b, dbgSToMatch := d, dbgErrAtMatch := e, dbgPosMinusPrevCmd := f }
    rw [h4]
    exact ⟨_, _, _, _, _, _, _, _, _, _, rfl⟩
  · exact ⟨_, _, _, _, _, _, _, _, _, _, rfl⟩

/-- CONTROL with an accepted period does on its channel what `controlChan` says. -/
theorem exec_control {s : State} {ch : ChanIdx} {c : Channel} {T : F64}
    (hc : s.channels[ch.toNat]? = some c) (h1 : F64.zeroLit.lt T = true)
    (h2 : T.lt (F64.inf false) = true) :
    exec (.control ch T) s =
      .next ((s.commit ch.toNat (controlChan T ch.toNat c)).advance .rt) := by
  simp only [exec, execControl, onChannel_some hc, periodOk, F64.gt, h1, h2, Bool.and_self, if_true]

theorem encodeChan_frame (cfg : GroupConfig) (k : Nat) (c : Channel) :
    ∃ ps r q d, (encodeChan cfg k c).chan = { c with
      positionScale := ps, stepRateReg := r, dbgStepRate := q, rateDraws := d } := by
  unfold encodeChan
  split
  · obtain ⟨v, hv⟩ := fixScale_frame k c
    simp only [encodeEnabled, writeRate, hv]
    exact ⟨_, _, _, _, rfl⟩
  · exact ⟨_, _, _, _, rfl⟩

/-- ENCODE on an enabled channel whose scale is not corrected and whose increment is finite writes the
register and its telemetry and nothing else, whatever word stands for a draw. -/
theorem encodeChan_finite {cfg : GroupConfig} {c : Channel} (he : c.enable = true)
    (hs : c.positionScale.abs.lt F64.micro = false) (hf : (phaseIncrement cfg c).isFinite = true)
    (k : Nat) (q : Word) :
    encodeChan cfg k c = ChanOut.of (writeRate (toReg32 (phaseIncrement cfg c) q) c) := by
  have h : fixScale k c = (c, []) := by simp [fixScale, hs]
  simp only [encodeChan, he, if_true, encodeEnabled, h, toReg32, hf, rateDrawsAfter]
  rfl

/-! ## The commands that sync one field -/

@[simp] theorem syncInstr_chan? (F : TimingField) (ch : ChanIdx) :
    (syncInstr F ch).chan? = some ch := by rcases F with ⟨_ | _ | _ | _⟩ | _ <;> rfl

@[simp] theorem syncInstr_agent (F : TimingField) (ch : ChanIdx) :
    (syncInstr F ch).op.agent = .rt := by rcases F with ⟨_ | _ | _ | _⟩ | _ <;> rfl

theorem exec_syncInstr (F : TimingField) (ch : ChanIdx) (s : State) :
    exec (syncInstr F ch) s = syncCommand F ch s := by
  rcases F with ⟨_ | _ | _ | _⟩ | _ <;> rfl

@[simp] theorem chanOut_syncInstr (F : TimingField) (ch : ChanIdx) (cfg : GroupConfig) (k : Nat)
    (c : Channel) : chanOut cfg (syncInstr F ch) k c = syncField cfg F false k c := by
  rcases F with ⟨_ | _ | _ | _⟩ | _ <;> rfl

/-- A command is a SYNC of some field or of none. -/
theorem syncInstr_or_not (i : Instr) :
    (∃ F ch, i = syncInstr F ch) ∨ ∀ F ch, i ≠ syncInstr F ch := by
  by_cases h : ∃ F ch, i = syncInstr F ch
  · exact .inl h
  · exact .inr fun F ch he => h ⟨F, ch, he⟩

/-- No other command on a channel makes a transport event or touches a shadow or a cache register. -/
theorem chanOut_of_not_sync {i : Instr} (h : ∀ F ch, i ≠ syncInstr F ch) (cfg : GroupConfig)
    (k : Nat) (c : Channel) :
    (chanOut cfg i k c).events = [] ∧
      ∀ F, (chanOut cfg i k c).chan.shadow F = c.shadow F ∧
        (chanOut cfg i k c).chan.cache F = c.cache F := by
  cases i
  case syncDirsetup ch => exact absurd rfl (h (.dur .dirsetup) ch)
  case syncDirhold ch => exact absurd rfl (h (.dur .dirhold) ch)
  case syncSteplen ch => exact absurd rfl (h (.dur .steplen) ch)
  case syncStepspace ch => exact absurd rfl (h (.dur .stepspace) ch)
  case syncSteptype ch => exact absurd rfl (h .stepType ch)
  case decode =>
    obtain ⟨_, _, _, _, _, hv⟩ := decodeChan_frame k c
    refine ⟨rfl, fun F => ?_⟩
    simp only [chanOut, hv]
    rcases F with ⟨_ | _ | _ | _⟩ | _ <;> exact ⟨rfl, rfl⟩
  case control ch T =>
    obtain ⟨_, _, _, _, _, _, _, _, _, _, hv⟩ := controlChan_frame T k c
    refine ⟨?_, fun F => ?_⟩
    · simp only [chanOut, controlChan]; split <;> rfl
    · simp only [chanOut, hv]
      rcases F with ⟨_ | _ | _ | _⟩ | _ <;> exact ⟨rfl, rfl⟩
  case encode ch =>
    obtain ⟨_, _, _, _, hv⟩ := encodeChan_frame cfg k c
    refine ⟨?_, fun F => ?_⟩
    · simp only [chanOut, encodeChan]; split <;> rfl
    · simp only [chanOut, hv]
      rcases F with ⟨_ | _ | _ | _⟩ | _ <;> exact ⟨rfl, rfl⟩
  all_goals
    exact ⟨rfl, by rintro (⟨_ | _ | _ | _⟩ | _) <;> exact ⟨rfl, rfl⟩⟩

/-! ## The forced sync of one channel -/

/-- After the forced sync of these fields, each holds what its transform gives of the parameter it
had, and the others are as they were; one write for each, in order. -/
theorem resyncFields_spec (cfg : GroupConfig) (k : Nat) (Fs : List TimingField) (hn : Fs.Nodup)
    (c : Channel) :
    (∀ F ∈ Fs,
      (resyncFields cfg k Fs c).chan.param F = (transform cfg F k (c.param F)).param ∧
      (resyncFields cfg k Fs c).chan.shadow F = some (transform cfg F k (c.param F)).param ∧
      (resyncFields cfg k Fs c).chan.cache F = some (transform cfg F k (c.param F)).reg) ∧
    (∀ F, F ∉ Fs →
      (resyncFields cfg k Fs c).chan.param F = c.param F ∧
      (resyncFields cfg k Fs c).chan.shadow F = c.shadow F ∧
      (resyncFields cfg k Fs c).chan.cache F = c.cache F) ∧
    (resyncFields cfg k Fs c).events =
      Fs.map (fun F => .write (regAddr cfg F.kind k) (transform cfg F k (c.param F)).reg) ∧
    (resyncFields cfg k Fs c).diags =
      Fs.flatMap (fun F => (transform cfg F k (c.param F)).diag.toList) := by
  induction Fs generalizing c with
  | nil => simp [resyncFields, ChanOut.of]
  | cons G Fs ih =>
    obtain ⟨hG, hn⟩ := List.nodup_cons.mp hn
    simp only [resyncFields, ChanOut.andThen, syncField_force]
    generalize hd : c.commitField G (transform cfg G k (c.param G)).param
      (transform cfg G k (c.param G)).reg = d
    have keep : ∀ F, F ≠ G → d.param F = c.param F ∧ d.shadow F = c.shadow F ∧
        d.cache F = c.cache F := fun F hF => by
      subst hd
      exact ⟨c.commitField_param_ne G F _ _ hF, c.commitField_shadow_ne G F _ _ hF,
        c.commitField_cache_ne G F _ _ hF⟩
    have ne : ∀ F ∈ Fs, F ≠ G := fun F hF h => hG (h ▸ hF)
    obtain ⟨h1, h2, h3, h4⟩ := ih hn d
    refine ⟨fun F hF => ?_, fun F hF => ?_, ?_, ?_⟩
    · rcases List.mem_cons.mp hF with rfl | hF
      · obtain ⟨a, b, e⟩ := h2 F hG
        rw [a, b, e]
        subst hd
        simp
      · obtain ⟨a, b, e⟩ := h1 F hF
        rw [a, b, e, (keep F (ne F hF)).1]
        exact ⟨rfl, rfl, rfl⟩
    · simp only [List.mem_cons, not_or] at hF
      obtain ⟨a, b, e⟩ := h2 F hF.2
      obtain ⟨a', b', e'⟩ := keep F hF.1
      exact ⟨a.trans a', b.trans b', e.trans e'⟩
    · rw [h3, List.map_cons, List.singleton_append]
      exact congrArg _ (List.map_congr_left fun F hF => by rw [(keep F (ne F hF)).1])
    · rw [h4, List.flatMap_cons, List.flatMap_congr fun F hF => by rw [(keep F (ne F hF)).1]]

theorem TimingField.mem_all (F : TimingField) : F ∈ TimingField.all := by
  rcases F with ⟨_ | _ | _ | _⟩ | _ <;> decide

theorem TimingField.all_nodup : TimingField.all.Nodup := by decide

/-- After the forced sync of a channel every field is clean, and its cache register is its transform. -/
theorem resyncChan_field (cfg : GroupConfig) (k : Nat) (c : Channel) (F : TimingField) :
    (resyncChan cfg k c).chan.param F = (transform cfg F k (c.param F)).param ∧
    (resyncChan cfg k c).chan.shadow F = some (transform cfg F k (c.param F)).param ∧
    (resyncChan cfg k c).chan.cache F = some (transform cfg F k (c.param F)).reg :=
  (resyncFields_spec cfg k _ TimingField.all_nodup c).1 F F.mem_all

theorem resyncChan_events (cfg : GroupConfig) (k : Nat) (c : Channel) :
    (resyncChan cfg k c).events = TimingField.all.map (fun F =>
      .write (regAddr cfg F.kind k) (transform cfg F k (c.param F)).reg) :=
  (resyncFields_spec cfg k _ TimingField.all_nodup c).2.2.1

theorem resyncChan_diags (cfg : GroupConfig) (k : Nat) (c : Channel) :
    (resyncChan cfg k c).diags =
      TimingField.all.flatMap (fun F => (transform cfg F k (c.param F)).diag.toList) :=
  (resyncFields_spec cfg k _ TimingField.all_nodup c).2.2.2

/-- The channel after its forced sync: every field at the transform of the parameter it had. -/
theorem resyncChan_chan (cfg : GroupConfig) (k : Nat) (c : Channel) :
    (resyncChan cfg k c).chan = TimingField.all.foldl (fun d F =>
      d.commitField F (transform cfg F k (c.param F)).param (transform cfg F k (c.param F)).reg)
      c := by
  simp only [resyncChan, TimingField.all, resyncFields, ChanOut.andThen, syncField_force, List.foldl,
    ChanOut.of]
  rfl

/-- A commit of all five fields writes their fifteen items. -/
theorem commitFields_eq (p r : TimingField → Word) (c : Channel) :
    TimingField.all.foldl (fun d F => d.commitField F (p F) (r F)) c = { c with
      dirsetup := p (.dur .dirsetup), writtenDirsetup := some (p (.dur .dirsetup)),
      dirSetupReg := some (r (.dur .dirsetup)),
      dirhold := p (.dur .dirhold), writtenDirhold := some (p (.dur .dirhold)),
      dirHoldReg := some (r (.dur .dirhold)),
      steplen := p (.dur .steplen), writtenSteplen := some (p (.dur .steplen)),
      pulseWidthReg := some (r (.dur .steplen)),
      stepspace := p (.dur .stepspace), writtenStepspace := some (p (.dur .stepspace)),
      pulseIdleWidthReg := some (r (.dur .stepspace)),
      stepType := p .stepType, writtenStepType := some (p .stepType),
      modeReg := some (r .stepType) } := by
  simp only [TimingField.all, List.foldl, Channel.commitField]

/-- What the forced sync of every channel leaves, channel by channel with its index. -/
theorem resyncFrom_flatMap {α : Type} (cfg : GroupConfig) (f : ChanOut → List α) (i : Nat)
    (cs : List Channel) :
    (resyncFrom cfg i cs).flatMap f = (cs.zipIdx i).flatMap (fun (c, j) => f (resyncChan cfg j c)) := by
  induction cs generalizing i with
  | nil => rfl
  | cons c cs ih => simp [resyncFrom, ih]

end Sys2Proof.Machine
end

