-- ==== Sys2Proof/Laws/Device.lean ====
section
/-! SUPPORT. The register map has no two registers at one address (30_encoding.md R101), and what an
event changes in the device register image (10_state.md R57). -/

namespace Sys2Proof.Machine

/-! ## The register map -/

theorem Kind.num_le (k : Kind) : k.num ≤ 9 := by cases k <;> decide

theorem Kind.num_inj {k l : Kind} (h : k.num = l.num) : k = l := by
  cases k <;> cases l <;> first | rfl | exact absurd h (by decide)

/-- In a group whose stride takes every channel, no two registers share an address. -/
theorem regAddr_inj {cfg : GroupConfig} {n : Nat} (hs : 4 * n ≤ cfg.stride.toNat) {k l : Kind}
    {i j : Nat} (hi : i < n) (hj : j < n) (h : regAddr cfg k i = regAddr cfg l j) :
    k = l ∧ i = j := by
  unfold regAddr at h
  have hk : k.num = l.num := by
    rcases Nat.lt_trichotomy k.num l.num with hlt | heq | hlt
    · have := Nat.mul_le_mul_right cfg.stride.toNat hlt
      rw [Nat.succ_mul] at this
      omega
    · exact heq
    · have := Nat.mul_le_mul_right cfg.stride.toNat hlt
      rw [Nat.succ_mul] at this
      omega
  refine ⟨Kind.num_inj hk, ?_⟩
  rw [hk] at h
  omega

theorem regAddr_mod_four {cfg : GroupConfig} (hb : cfg.base.toNat % 4 = 0)
    (hs : cfg.stride.toNat % 4 = 0) (k : Kind) (i : Nat) : regAddr cfg k i % 4 = 0 := by
  have : k.num * cfg.stride.toNat % 4 = 0 := by rw [Nat.mul_mod, hs]; simp
  unfold regAddr
  omega

theorem TimingField.kind_inj {F G : TimingField} (h : F.kind = G.kind) : F = G := by
  rcases F with ⟨_ | _ | _ | _⟩ | _ <;> rcases G with ⟨_ | _ | _ | _⟩ | _ <;> first | rfl | cases h

theorem TimingField.kind_ne_stepRate (F : TimingField) : F.kind ≠ .stepRate := by
  rcases F with ⟨_ | _ | _ | _⟩ | _ <;> decide

theorem TimingField.kind_ne_masterEnable (F : TimingField) : F.kind ≠ .masterEnable := by
  rcases F with ⟨_ | _ | _ | _⟩ | _ <;> decide

/-! ## The register image -/

theorem lastWrite_append (a : Nat) (old : Option Word) (xs ys : List (Nat × Word)) :
    lastWrite a old (xs ++ ys) = lastWrite a (lastWrite a old xs) ys := by
  simp [lastWrite]

theorem lastWrite_none {a : Nat} {xs : List (Nat × Word)} (h : ∀ x ∈ xs, x.1 ≠ a)
    (old : Option Word) : lastWrite a old xs = old := by
  induction xs generalizing old with
  | nil => rfl
  | cons x xs ih =>
    have hx := h x (List.mem_cons_self ..)
    rw [show x :: xs = [x] ++ xs from rfl, lastWrite_append]
    rw [ih fun y hy => h y (List.mem_cons_of_mem _ hy)]
    simp [lastWrite, hx]

/-- Where only one of the writes goes to `a`, the register then holds its value. -/
theorem lastWrite_of_unique {a : Nat} {v : Word} {xs : List (Nat × Word)} (hm : (a, v) ∈ xs)
    (hu : ∀ w, (a, w) ∈ xs → w = v) (old : Option Word) : lastWrite a old xs = some v := by
  induction xs generalizing old with
  | nil => cases hm
  | cons x xs ih =>
    rw [show x :: xs = [x] ++ xs from rfl, lastWrite_append]
    by_cases h : ∃ w, (a, w) ∈ xs
    · obtain ⟨w, hw⟩ := h
      rw [hu w (List.mem_cons_of_mem _ hw)] at hw
      exact ih hw (fun u h => hu u (List.mem_cons_of_mem _ h)) _
    · rw [lastWrite_none (fun y hy he => h ⟨y.2, by rw [← he]; exact hy⟩)]
      rcases List.mem_cons.mp hm with rfl | hx
      · simp [lastWrite]
      · exact absurd ⟨v, hx⟩ h

theorem writesOf_append (l m : List Event) : writesOf (l ++ m) = writesOf l ++ writesOf m := by
  simp [writesOf]

theorem devReg_append (l m : List Event) (a : Nat) :
    devReg (l ++ m) a = lastWrite a (devReg l a) (writesOf m) := by
  rw [devReg, devReg, writesOf_append, lastWrite_append]

/-- Events that do not write `a` leave its register. -/
theorem devReg_append_other {m : List Event} {a : Nat} (h : ∀ x ∈ writesOf m, x.1 ≠ a)
    (l : List Event) : devReg (l ++ m) a = devReg l a := by
  rw [devReg_append, lastWrite_none h]

/-- What FORCED_RESYNC writes, but for the master enable. -/
theorem mem_writesOf_resync {cfg : GroupConfig} {b : Nat} {cs : List Channel} {x : Nat × Word}
    (h : x ∈ writesOf ((resyncFrom cfg b cs).flatMap ChanOut.events)) :
    ∃ (k : Nat) (c : Channel) (F : TimingField), cs[k]? = some c ∧
      x = (regAddr cfg F.kind (b + k), (transform cfg F (b + k) (c.param F)).reg) := by
  simp only [writesOf, List.mem_flatMap] at h
  obtain ⟨e, ⟨o, ho, he⟩, hx⟩ := h
  obtain ⟨k, hk⟩ := List.mem_iff_getElem?.mp ho
  rw [resyncFrom_getElem?] at hk
  cases hc : cs[k]? with
  | none => simp [hc] at hk
  | some c =>
    simp only [hc, Option.map_some, Option.some.injEq] at hk
    subst hk
    rw [resyncChan_events] at he
    obtain ⟨F, -, rfl⟩ := List.mem_map.mp he
    exact ⟨k, c, F, hc, by simpa [Event.writes] using hx⟩

theorem writesOf_resync_mem {cfg : GroupConfig} {b k : Nat} {cs : List Channel} {c : Channel}
    (h : cs[k]? = some c) (F : TimingField) :
    (regAddr cfg F.kind (b + k), (transform cfg F (b + k) (c.param F)).reg) ∈
      writesOf ((resyncFrom cfg b cs).flatMap ChanOut.events) := by
  simp only [writesOf, List.mem_flatMap]
  refine ⟨.write (regAddr cfg F.kind (b + k)) (transform cfg F (b + k) (c.param F)).reg,
    ⟨resyncChan cfg (b + k) c, ?_, ?_⟩, by simp [Event.writes]⟩
  · exact List.mem_iff_getElem?.mpr ⟨k, by rw [resyncFrom_getElem?, h]; rfl⟩
  · rw [resyncChan_events]
    exact List.mem_map.mpr ⟨F, F.mem_all, rfl⟩

end Sys2Proof.Machine
end

