-- ==== Sys2Proof/Laws/Fetch.lean ====
section
/-! SUPPORT. Command lists and counters (30_encoding.md R125), and which agent moves
(70_reset_and_hazards.md R309). -/

namespace Sys2Proof.Machine

/-! ## Lists and counters -/

@[simp] theorem afterCommands_nil (n : Nat) : afterCommands n [] = [] := by cases n <;> rfl

theorem afterCommands_succ (n : Nat) (w : Word) (ws : List Word) :
    afterCommands (n + 1) (w :: ws) = afterCommands n (ws.drop (wordsAt w - 1)) := rfl

/-- More fuel than words counts the same. -/
theorem commandCount_go_eq (n m : Nat) (ws : List Word) (hn : ws.length ≤ n) (hm : ws.length ≤ m) :
    commandCount.go n ws = commandCount.go m ws := by
  induction n generalizing m ws with
  | zero =>
    have : ws = [] := List.length_eq_zero_iff.mp (by omega)
    subst this
    cases m <;> rfl
  | succ n ih =>
    cases ws with
    | nil => cases m <;> rfl
    | cons w ws =>
      cases m with
      | zero => simp at hm
      | succ m =>
        simp only [commandCount.go]
        simp only [List.length_cons] at hn hm
        rw [ih m (ws.drop (wordsAt w - 1)) (by rw [List.length_drop]; omega)
          (by rw [List.length_drop]; omega)]

@[simp] theorem commandCount_nil : commandCount [] = 0 := rfl

theorem commandCount_cons (w : Word) (ws : List Word) :
    commandCount (w :: ws) = commandCount (ws.drop (wordsAt w - 1)) + 1 := by
  show commandCount.go ws.length (ws.drop (wordsAt w - 1)) + 1 = _
  rw [commandCount, commandCount_go_eq _ _ _ (by rw [List.length_drop]; omega) (le_refl _)]

/-- Nothing is left of a list exactly from its length in commands on. -/
theorem afterCommands_eq_nil_iff (n : Nat) (ws : List Word) :
    afterCommands n ws = [] ↔ commandCount ws ≤ n := by
  induction n generalizing ws with
  | zero =>
    cases ws with
    | nil => simp [afterCommands]
    | cons w ws => simp [afterCommands, commandCount_cons]
  | succ n ih =>
    cases ws with
    | nil => simp
    | cons w ws => rw [afterCommands_succ, ih, commandCount_cons]; omega

theorem State.ahead_eq_nil_iff (a : Agent) (s : State) :
    s.ahead a = [] ↔ commandCount (s.list a) ≤ s.counter a :=
  afterCommands_eq_nil_iff _ _

/-! ## Who moves -/

/-- The agent that moves has a command left. -/
theorem State.ahead_of_mover {s : State} {a : Agent} (h : s.mover = some a) : s.ahead a ≠ [] := by
  unfold State.mover at h
  simp only at h
  split at h
  · cases h; assumption
  · split at h
    · cases h; assumption
    · cases h

theorem State.mover_eq_none_iff (s : State) :
    s.mover = none ↔ s.ahead .rt = [] ∧ s.ahead .host = [] := by
  unfold State.mover
  by_cases h1 : s.ahead .rt = [] <;> by_cases h2 : s.ahead .host = [] <;>
    cases s.scheduled <;> simp [otherAgent, h1, h2]

/-! ## A step -/

theorem step_refused {s : State} {r : RefuseReason} (h : s.refused = some r) :
    step s = .refused (.runRefused r) := by
  simp only [step, h]

theorem step_idle {s : State} (h : s.refused = none) (hm : s.mover = none) : step s = .next s := by
  simp only [step, h, fetch, hm]

/-- What a step that leads on has done: the run was not refused, and either no agent could move, or
the next command was illegal, or it ran. -/
theorem step_cases {s t : State} (h : step s = .next t) :
    s.refused = none ∧
    ((s.mover = none ∧ t = s) ∨
      ∃ a, s.mover = some a ∧
        (t = s.refuse .illegalCommand ∨
          ∃ i rest, decode (s.ahead a) = .ok (i, rest) ∧ i.op.agent = a ∧ exec i s = .next t)) := by
  unfold step at h
  split at h
  · cases h
  · rename_i hr
    refine ⟨hr, ?_⟩
    unfold fetch at h
    cases hm : s.mover with
    | none => simp only [hm] at h; cases h; exact .inl ⟨rfl, rfl⟩
    | some a =>
      simp only [hm, fetchFrom] at h
      refine .inr ⟨a, rfl, ?_⟩
      cases hd : decode (s.ahead a) with
      | error e => simp only [hd] at h; cases h; exact .inl rfl
      | ok p =>
        obtain ⟨i, rest⟩ := p
        simp only [hd] at h
        by_cases ha : i.op.agent = a
        · simp only [ha, if_true] at h
          exact .inr ⟨i, rest, rfl, ha, h⟩
        · simp only [ha, if_false] at h
          cases h
          exact .inl rfl

end Sys2Proof.Machine
end

