-- ==== Sys2Proof/Laws/PerInstr.lean ====
section
/-! SUPPORT. The encoding of a command, one lemma per constructor: its first word holds its
operation and its channel, and it is as long as its format says (30_encoding.md R113 to R115). -/

namespace Sys2Proof.Laws.Encoding

/-- The command's words: the first has its operation's code in `op` and its channel, 0 where it has
none, in `ch`; the payload makes it as long as its format says. -/
def Statement (i : Instr) : Prop :=
  ∃ (w : Word) (payload : List Word), encode i = w :: payload ∧
    opField w = i.op.code ∧ chField w = i.chan?.getD 0#16 ∧
    payload.length + 1 = i.op.format.words

theorem of_commandWord {i : Instr} {op : Byte} {ch : ChanIdx} {sel : Byte} {payload : List Word}
    (h : encode i = commandWord op ch sel :: payload) (hop : op = i.op.code)
    (hch : ch = i.chan?.getD 0#16) (hlen : payload.length + 1 = i.op.format.words) :
    Statement i :=
  ⟨_, _, h, by rw [opField_commandWord, hop], by rw [chField_commandWord, hch], hlen⟩

theorem tramRead : Statement .tramRead := of_commandWord rfl rfl rfl rfl
theorem decode (ch : ChanIdx) : Statement (.decode ch) := of_commandWord rfl rfl rfl rfl
theorem control (ch : ChanIdx) (T : F64) : Statement (.control ch T) :=
  of_commandWord rfl rfl rfl rfl
theorem encode (ch : ChanIdx) : Statement (.encode ch) := of_commandWord rfl rfl rfl rfl
theorem tramWrite : Statement .tramWrite := of_commandWord rfl rfl rfl rfl
theorem syncDirsetup (ch : ChanIdx) : Statement (.syncDirsetup ch) :=
  of_commandWord rfl rfl rfl rfl
theorem syncDirhold (ch : ChanIdx) : Statement (.syncDirhold ch) := of_commandWord rfl rfl rfl rfl
theorem syncSteplen (ch : ChanIdx) : Statement (.syncSteplen ch) := of_commandWord rfl rfl rfl rfl
theorem syncStepspace (ch : ChanIdx) : Statement (.syncStepspace ch) :=
  of_commandWord rfl rfl rfl rfl
theorem syncSteptype (ch : ChanIdx) : Statement (.syncSteptype ch) :=
  of_commandWord rfl rfl rfl rfl
theorem forcedResync : Statement .forcedResync := of_commandWord rfl rfl rfl rfl
theorem setPositionScale (ch : ChanIdx) (v : F64) : Statement (.setPositionScale ch v) :=
  of_commandWord rfl rfl rfl rfl
theorem setMaxvel (ch : ChanIdx) (v : F64) : Statement (.setMaxvel ch v) :=
  of_commandWord rfl rfl rfl rfl
theorem setMaxaccel (ch : ChanIdx) (v : F64) : Statement (.setMaxaccel ch v) :=
  of_commandWord rfl rfl rfl rfl
theorem setSteplen (ch : ChanIdx) (v : Word) : Statement (.setSteplen ch v) :=
  of_commandWord rfl rfl rfl rfl
theorem setStepspace (ch : ChanIdx) (v : Word) : Statement (.setStepspace ch v) :=
  of_commandWord rfl rfl rfl rfl
theorem setDirsetup (ch : ChanIdx) (v : Word) : Statement (.setDirsetup ch v) :=
  of_commandWord rfl rfl rfl rfl
theorem setDirhold (ch : ChanIdx) (v : Word) : Statement (.setDirhold ch v) :=
  of_commandWord rfl rfl rfl rfl
theorem setStepType (ch : ChanIdx) (v : Word) : Statement (.setStepType ch v) :=
  of_commandWord rfl rfl rfl rfl
theorem setPositionCmd (ch : ChanIdx) (v : F64) : Statement (.setPositionCmd ch v) :=
  of_commandWord rfl rfl rfl rfl
theorem setVelocityCmd (ch : ChanIdx) (v : F64) : Statement (.setVelocityCmd ch v) :=
  of_commandWord rfl rfl rfl rfl
theorem setEnable (ch : ChanIdx) (v : Word) : Statement (.setEnable ch v) :=
  of_commandWord rfl rfl rfl rfl
theorem setControlType (ch : ChanIdx) (v : Word) : Statement (.setControlType ch v) :=
  of_commandWord rfl rfl rfl rfl
theorem hostRead (ch : ChanIdx) (sel : BitVec 8) : Statement (.hostRead ch sel) :=
  of_commandWord rfl rfl rfl rfl

end Sys2Proof.Laws.Encoding
end

