-- ==== Sys2Proof/Tests/Slice0.lean ====
section
/-! SUPPORT. Tests: words written out from spec/30_encoding.md, the vectors of
spec/95_test_vectors.md, and for every obligation with hypotheses a witness that meets them. -/

namespace Sys2Proof.Tests

open Sys2Proof.Machine

/-! ## Well-formed commands (30_encoding.md R116, R117) -/

theorem test_wellFormed_selector : (Instr.hostRead 0#16 16#8).wellFormed = true := by decide
theorem test_illFormed_selector : (Instr.hostRead 0#16 17#8).wellFormed = false := by decide

/-! ## Decoding: words written out from R113 to R116 -/

/-- V-X1 -/
theorem test_decode_tramRead : decode [0x01000000#32] = .ok (.tramRead, []) := by decide
/-- V-X2 -/
theorem test_decode_decode : decode [0x02000300#32] = .ok (.decode 3#16, []) := by decide
/-- V-X4 -/
theorem test_decode_control : decode [0x03000100#32, 0xD2F1A9FC#32, 0x3F50624D#32] = .ok (.control 1#16 (F64.ofBits 0x3F50624DD2F1A9FC#64), []) := by decide
/-- R114: the top channel index -/
theorem test_decode_encode : decode [0x04FFFF00#32] = .ok (.encode 65535#16, []) := by decide
theorem test_decode_tramWrite : decode [0x05000000#32] = .ok (.tramWrite, []) := by decide
/-- R218 -/
theorem test_decode_syncDirsetup : decode [0x10000000#32] = .ok (.syncDirsetup 0#16, []) := by decide
/-- R219 -/
theorem test_decode_syncDirhold : decode [0x11000100#32] = .ok (.syncDirhold 1#16, []) := by decide
/-- R220 -/
theorem test_decode_syncSteplen : decode [0x12010000#32] = .ok (.syncSteplen 256#16, []) := by decide
/-- R221 -/
theorem test_decode_syncStepspace : decode [0x13800000#32] = .ok (.syncStepspace 32768#16, []) := by decide
/-- V-X5 -/
theorem test_decode_syncSteptype : decode [0x14000100#32] = .ok (.syncSteptype 1#16, []) := by decide
/-- V-X6 -/
theorem test_decode_forcedResync : decode [0x19000000#32] = .ok (.forcedResync, []) := by decide
/-- R241: 1000.0 -/
theorem test_decode_setPositionScale : decode [0x20000000#32, 0x00000000#32, 0x408F4000#32] = .ok (.setPositionScale 0#16 (F64.ofBits 0x408F400000000000#64), []) := by decide
/-- R242: -5.0 -/
theorem test_decode_setMaxvel : decode [0x21000000#32, 0x00000000#32, 0xC0140000#32] = .ok (.setMaxvel 0#16 (F64.ofBits 0xC014000000000000#64), []) := by decide
/-- V-X13 -/
theorem test_decode_setMaxaccel : decode [0x22FFFF00#32, 0x00000000#32, 0x3FE00000#32] = .ok (.setMaxaccel 65535#16 (F64.ofBits 0x3FE0000000000000#64), []) := by decide
/-- V-X9 -/
theorem test_decode_setSteplen : decode [0x23000000#32, 0x000007D0#32] = .ok (.setSteplen 0#16 2000#32, []) := by decide
/-- R245 -/
theorem test_decode_setStepspace : decode [0x24000000#32, 0x000003E8#32] = .ok (.setStepspace 0#16 1000#32, []) := by decide
/-- R246 -/
theorem test_decode_setDirsetup : decode [0x25000000#32, 0x00004E20#32] = .ok (.setDirsetup 0#16 20000#32, []) := by decide
/-- R248 -/
theorem test_decode_setDirhold : decode [0x26000000#32, 0x00004E20#32] = .ok (.setDirhold 0#16 20000#32, []) := by decide
/-- R247 -/
theorem test_decode_setStepType : decode [0x27000000#32, 0xFFFFFFFF#32] = .ok (.setStepType 0#16 0xFFFFFFFF#32, []) := by decide
/-- V-X7 -/
theorem test_decode_setPositionCmd : decode [0x28000000#32, 0x00000000#32, 0x3FF00000#32] = .ok (.setPositionCmd 0#16 (F64.ofBits 0x3FF0000000000000#64), []) := by decide
/-- V-X8 -/
theorem test_decode_setVelocityCmd : decode [0x29000200#32, 0x00000000#32, 0xC0040000#32] = .ok (.setVelocityCmd 2#16 (F64.ofBits 0xC004000000000000#64), []) := by decide
/-- V-X10 -/
theorem test_decode_setEnable : decode [0x2A000000#32, 0x00000001#32] = .ok (.setEnable 0#16 1#32, []) := by decide
/-- R252 -/
theorem test_decode_setControlType : decode [0x2B000000#32, 0x00000001#32] = .ok (.setControlType 0#16 1#32, []) := by decide
/-- V-X12 -/
theorem test_decode_hostRead : decode [0x30000110#32] = .ok (.hostRead 1#16 16#8, []) := by decide

/-! ## Illegal words (R117, R125; V-X14 to V-X19) -/

theorem test_illegal_op6 : decode [0x06000000#32] = .error .unassignedOp := by decide
theorem test_illegal_op0 : decode [0x00000000#32] = .error .unassignedOp := by decide
theorem test_illegal_channel : (decode [0x19000100#32]).toOption = none := by decide
theorem test_illegal_selector : (decode [0x02000001#32]).toOption = none := by decide
theorem test_illegal_item : (decode [0x30000011#32]).toOption = none := by decide
theorem test_illegal_payload : (decode [0x28000000#32, 0#32]).toOption = none := by decide

/-- The opcode table's numbering: the first word's bits are the lowest (R115). -/
theorem test_table_word : decodeTableWord 64 0x000007D023000000 = some (.setSteplen 0#16 2000#32) := by
  decide

/-! ## Assembler lines (R119 to R121; V-X3, V-X11) -/

theorem test_assemble_control :
    assembleWords 1 "CONTROL 0, 1e-3".toList =
      some [0x03000000#32, 0xD2F1A9FC#32, 0x3F50624D#32] := by decide
theorem test_assemble_hostRead :
    assembleWords 1 "HOST_READ 0, velocity_fb".toList = some [0x30000001#32] := by decide

/-! ## One command on one channel: the vectors of 95_test_vectors.md

The setting is the one its Notation section gives; `State.reset` has it. -/

/-- Channel 0 of the common setting. -/
def chan0 : Channel := Channel.initial (resetInit.getD 0 default)

/-- A value by its bits. -/
def f (b : BitVec 64) : F64 := F64.ofBits b

/-- A group of these channels, as reset leaves it otherwise. -/
def group (cs : List Channel) : State := { State.reset with channels := cs }

/-- A group of these channels at another clock. -/
def groupAt (clock : Word) (cs : List Channel) : State :=
  { group cs with cfg := { resetConfig with clockHz := clock } }

/-- What a test reads of the state after a command: channel 0, the events, the diagnostics, the two
counters. -/
structure Seen where
  chan   : Channel
  events : List Event
  diags  : List Diag
  pc     : Nat
  hpc    : Nat
deriving DecidableEq, Repr

def seen (r : Result) : Option Seen :=
  match r with
  | .next t => t.channels[0]?.map (fun c => ⟨c, t.wlog, t.diag, t.pc, t.hpc⟩)
  | _ => none

/-- What a command does in a group of one channel. -/
def one (i : Instr) (c : Channel) : Option Seen := seen (exec i (group [c]))

/-- R130, R104: the answer is latched, and the batch names RegAddr(1, 0). -/
theorem test_tramRead :
    (seen (exec .tramRead { group [chan0] with acc := [5#32, 6#32] })).map
      (fun r => (r.chan.rawAcc, r.events, r.pc)) =
    some (5#32, [.batchRead [(0x1100, 5#32)]], 1) := by decide

/-- V-D1: the counter wrapped upward. -/
theorem test_decode_wrap :
    (one (.decode 0#16) { chan0 with
        positionScale := f 0x3FF0000000000000#64, prevRaw := 0xFFFFFFF0#32, rawAcc := 0x10#32 }).map
      (fun r => (r.chan.subcounts, r.chan.counts, r.chan.positionFb, r.diags)) =
    some (32#64, 0#32, f 0x3F40000000000000#64, []) := by decide

/-- V-D15: a scale of -1e-7 becomes -1.0 and is reported. -/
theorem test_decode_scale :
    (one (.decode 0#16) { chan0 with
        positionScale := f 0xBE7AD7F29ABCAF48#64, rawAcc := 0x10000#32 }).map
      (fun r => (r.chan.counts, r.chan.positionScale, r.chan.positionFb, r.diags)) =
    some (1#32, f 0xBFF0000000000000#64, f 0xBFF0000000000000#64, [⟨.scaleCorrected, 0, none⟩]) := by
  decide

/-- V-C5: the multi-period branch with the flip. -/
theorem test_control_flip :
    (one (.control 0#16 (f 0x3F50624DD2F1A9FC#64)) { chan0 with
        positionCmd := f 0x3FF0000000000000#64, maxaccel := f 0x408F400000000000#64,
        positionFb := f 0x408F400000000000#64 }).map
      (fun r => (r.chan.dbgFfVel, r.chan.dbgSToMatch, r.chan.dbgErrAtMatch, r.chan.velocityFb)) =
    some (f 0x408F400000000000#64, f 0x3FF0000000000000#64, f 0x407F380000000000#64,
      f 0xBFF0000000000000#64) := by decide +kernel

/-- V-C16: both maxvel corrections, in order. -/
theorem test_control_maxvel :
    (one (.control 0#16 (f 0x3F50624DD2F1A9FC#64)) { chan0 with
        controlType := .velocity, velocityCmd := f 0x4014000000000000#64,
        maxvel := F64.inf true }).map
      (fun r => (r.chan.maxvel, r.chan.velocityFb, r.diags)) =
    some (f 0x40B3880000000000#64, f 0x4014000000000000#64,
      [⟨.maxvelNegative, 0, none⟩, ⟨.maxvelLimited, 0, none⟩]) := by decide

/-- V-E2: a negative rate. -/
theorem test_encode_negative :
    (one (.encode 0#16) { chan0 with velocityFb := f 0xC08F400000000000#64 }).map
      (fun r => (r.chan.stepRateReg, r.chan.dbgStepRate)) =
    some (0xFAE147AF#32, 0xFAE147AF#32) := by decide

/-- V-E6: a disabled channel gets 0, and the telemetry stays. -/
theorem test_encode_disabled :
    (one (.encode 0#16) { chan0 with
        velocityFb := f 0x408F400000000000#64, enable := false, stepRateReg := 7#32,
        dbgStepRate := 7#32 }).map (fun r => (r.chan.stepRateReg, r.chan.dbgStepRate)) =
    some (0#32, 7#32) := by decide

/-- R196: the batch names RegAddr(0, i), channels ascending. -/
theorem test_tramWrite :
    (seen (exec .tramWrite (group
        [{ chan0 with stepRateReg := 9#32 }, { chan0 with stepRateReg := 8#32 }]))).map
      (fun r => (r.events, r.pc)) =
    some ([.batchWrite [(0x1000, 9#32), (0x1004, 8#32)]], 1) := by decide

/-- V-T4. -/
theorem test_syncDirsetup :
    (one (.syncDirsetup 0#16) { chan0 with dirsetup := 20000#32 }).map
      (fun r => (r.chan.writtenDirsetup, r.chan.dirSetupReg, r.events, r.diags)) =
    some (some 20000#32, some 1000#32, [.write 0x1300 1000#32], []) := by decide

/-- V-T2: a tie goes away from zero. -/
theorem test_syncDirhold :
    (one (.syncDirhold 0#16) { chan0 with dirhold := 330#32, writtenDirhold := some 0#32 }).map
      (fun r => (r.chan.writtenDirhold, r.events)) =
    some (some 330#32, [.write 0x1400 17#32]) := by decide

/-- V-T3: the clamp and the back-computed parameter. -/
theorem test_syncSteplen_clamp :
    (one (.syncSteplen 0#16) { chan0 with steplen := 400000#32 }).map
      (fun r => (r.chan.steplen, r.chan.writtenSteplen, r.events, r.diags)) =
    some (327660#32, some 327660#32, [.write 0x1500 16383#32],
      [⟨.timingClamped, 0, some .steplen⟩]) := by decide

/-- V-T9: a clean field is left alone. -/
theorem test_syncSteplen_clean :
    (one (.syncSteplen 0#16) { chan0 with steplen := 1000#32, writtenSteplen := some 1000#32 }).map
      (fun r => (r.events, r.diags, r.pc)) = some ([], [], 1) := by decide

/-- V-T8: just below the clamp. -/
theorem test_syncStepspace :
    (one (.syncStepspace 0#16) { chan0 with stepspace := 327669#32 }).map
      (fun r => (r.chan.stepspace, r.events, r.diags)) =
    some (327669#32, [.write 0x1600 16383#32], []) := by decide

/-- V-T20: an invalid step type is corrected and written though the shadow holds 0. -/
theorem test_syncSteptype :
    (one (.syncSteptype 0#16) { chan0 with stepType := 7#32, writtenStepType := some 0#32 }).map
      (fun r => (r.chan.stepType, r.chan.modeReg, r.events, r.diags)) =
    some (0#32, some 0#32, [.write 0x1200 0#32], [⟨.stepTypeInvalid, 0, none⟩]) := by decide

/-- V-T24: the order of the writes. -/
theorem test_forcedResync :
    (one .forcedResync { chan0 with steplen := 1000#32, stepspace := 1000#32 }).map
      (fun r => (r.events, r.diags)) =
    some ([.write 0x1300 50#32, .write 0x1400 50#32, .write 0x1500 50#32, .write 0x1600 50#32,
      .write 0x1200 0#32, .write 0x1900 0xFFFFFFFF#32], []) := by decide

/-- R265: the reports of two channels, by channel and then by field in R211's order. -/
theorem test_forcedResync_reports :
    (seen (exec .forcedResync (group
        [{ chan0 with dirhold := 400000#32, stepType := 7#32 }, { chan0 with dirsetup := 400000#32 }]))).map
      (fun r => (r.diags, r.events.length)) =
    some ([⟨.timingClamped, 0, some .dirhold⟩, ⟨.stepTypeInvalid, 0, none⟩,
      ⟨.timingClamped, 1, some .dirsetup⟩], 11) := by decide

/-- R263's numbers. -/
theorem test_diag_numbers :
    [DiagCode.scaleCorrected, .maxaccelNegative, .maxvelNegative, .maxvelLimited, .timingClamped,
      .stepTypeInvalid].map DiagCode.num = [1, 2, 3, 4, 5, 6] := by decide

/-! ## The HOST agent's commands (44_host.md R241 to R253) -/

theorem test_setPositionScale :
    (one (.setPositionScale 0#16 (f 0#64)) chan0).map
      (fun r => (r.chan.positionScale, r.diags, r.pc, r.hpc)) = some (f 0#64, [], 0, 1) := by decide

/-- V-H10: -5.0 is stored. -/
theorem test_setMaxvel :
    (one (.setMaxvel 0#16 (f 0xC014000000000000#64)) chan0).map (fun r => r.chan.maxvel) =
    some (f 0xC014000000000000#64) := by decide

theorem test_setMaxaccel :
    (one (.setMaxaccel 0#16 (f 0x3FE0000000000000#64)) chan0).map (fun r => r.chan.maxaccel) =
    some (f 0x3FE0000000000000#64) := by decide

theorem test_setSteplen :
    (one (.setSteplen 0#16 2000#32) chan0).map (fun r => (r.chan.steplen, r.chan.stepspace)) =
    some (2000#32, 100#32) := by decide

theorem test_setStepspace :
    (one (.setStepspace 0#16 2000#32) chan0).map (fun r => (r.chan.steplen, r.chan.stepspace)) =
    some (100#32, 2000#32) := by decide

theorem test_setDirsetup :
    (one (.setDirsetup 0#16 20000#32) chan0).map (fun r => (r.chan.dirsetup, r.chan.dirhold)) =
    some (20000#32, 1000#32) := by decide

theorem test_setDirhold :
    (one (.setDirhold 0#16 20000#32) chan0).map (fun r => (r.chan.dirsetup, r.chan.dirhold)) =
    some (1000#32, 20000#32) := by decide

/-- V-H8: 9 is stored. -/
theorem test_setStepType :
    (one (.setStepType 0#16 9#32) chan0).map (fun r => (r.chan.stepType, r.diags)) =
    some (9#32, []) := by decide

theorem test_setPositionCmd :
    (one (.setPositionCmd 0#16 (f 0x3FF0000000000000#64)) chan0).map
      (fun r => (r.chan.positionCmd, r.chan.velocityCmd)) =
    some (f 0x3FF0000000000000#64, f 0#64) := by decide

theorem test_setVelocityCmd :
    (one (.setVelocityCmd 0#16 (f 0x4004000000000000#64)) chan0).map
      (fun r => (r.chan.positionCmd, r.chan.velocityCmd)) =
    some (f 0#64, f 0x4004000000000000#64) := by decide

theorem test_setEnable :
    (one (.setEnable 0#16 0#32) chan0).map (fun r => (r.chan.enable, r.hpc)) =
    some (false, 1) := by decide

/-- V-H5: a payload of 2 is refused, and nothing else changes. -/
theorem test_setEnable_badPayload :
    exec (.setEnable 0#16 2#32) State.reset =
      .next { State.reset with refused := some .badPayload } := rfl

theorem test_setControlType :
    (one (.setControlType 0#16 1#32) chan0).map (fun r => r.chan.controlType) =
    some .velocity := by decide

/-- V-H7: the channel is checked before the payload. -/
theorem test_refusal_order :
    exec (.setEnable 1#16 2#32) State.reset =
      .next { State.reset with refused := some .channelRange } := rfl

/-- V-H2: a timing parameter is returned as it stands. -/
theorem test_hostRead :
    exec (.hostRead 0#16 12#8) (group [{ chan0 with steplen := 327660#32 }]) =
      .next { group [{ chan0 with steplen := 327660#32 }] with
        hostReads := [.u32 327660#32], hpc := 1 } := rfl

/-! ## Arithmetic (00_scope.md R14, R15; 42_encoder.md R194) -/

/-- R194's four examples. -/
theorem test_toReg32 :
    toReg32 (f 0xBFF8000000000000#64) 7#32 = 0xFFFFFFFF#32 ∧
    toReg32 (f 0x41F0000000500000#64) 7#32 = 5#32 ∧
    toReg32 (f 0x8000000000000000#64) 7#32 = 0#32 ∧
    toReg32 (f 0x41E0000000000000#64) 7#32 = 0x80000000#32 := by decide +kernel

/-- `0.1 + 0.2` is one unit in the last place above 0.3, and `1/3` is 0x3FD5555555555555. -/
theorem test_rounding :
    (f 0x3FB999999999999A#64).add (f 0x3FC999999999999A#64) = f 0x3FD3333333333334#64 ∧
    F64.one.div (F64.ofNat 3) = f 0x3FD5555555555555#64 := by decide +kernel

/-! ## Witnesses: for each obligation with hypotheses, operands and a state that meet them all -/

/-- Two channels. -/
def pair : State := group [chan0, { chan0 with rawAcc := 65536#32 }]

/-- A group about to run these words of the RT list. -/
def rtRun (ws : List Word) : State := { State.reset with rtList := ws }

/-- A group about to run these words of the HOST list. -/
def hostRun (ws : List Word) : State :=
  { State.reset with hostList := ws, schedule := [.host] }

/-- 0.001. -/
def ms : F64 := f 0x3F50624DD2F1A9FC#64

/-! ### Encoding -/

theorem test_witness_DecodeOfEncode :
    (Instr.hostRead 65535#16 16#8).wellFormed = true ∧ Instr.tramRead.wellFormed = true := by decide

theorem test_witness_EncodeOfDecode :
    decode [0x23FFFF00#32, 7#32, 9#32] = .ok (.setSteplen 65535#16 7#32, [9#32]) := by decide

/-- Each clause at its boundary: format G with channel 0 and with channel 1, selector 16 and 17, a
payload that ends the list and one that is cut off, and the ends of the unassigned ranges. -/
theorem test_witness_LegalWordsAreThoseOfTheTable :
    (decode [0x05000000#32]).toOption.isSome = true ∧
    (decode [0x05000100#32]).toOption = none ∧
    (decode [0x30FFFF10#32]).toOption.isSome = true ∧
    (decode [0x30FFFF11#32]).toOption = none ∧
    (decode [0x20000000#32, 0#32, 0#32]).toOption.isSome = true ∧
    (decode [0x20000000#32, 0#32]).toOption = none ∧
    [0x06000000#32, 0x0F000000#32, 0x15000000#32, 0x18000000#32, 0x1A000000#32, 0x1F000000#32,
      0x2C000000#32, 0x2F000000#32, 0x31000000#32, 0xFFFFFFFF#32].all
      (fun w => decide (decode [w] = .error .unassignedOp)) = true := by decide

theorem test_witness_PseudoInstructionsExpand :
    "1e-3".toList ≠ [] ∧ (∀ ch ∈ "1e-3".toList, isBlank ch = false ∧ ch ≠ ',' ∧ ch ≠ ';') ∧
      parseF64 "1e-3".toList = some ms :=
  ⟨by decide, by
    show ∀ ch ∈ ['1', 'e', '-', '3'], _
    simp [isBlank], by decide +kernel⟩

/-! ### Runs -/

theorem test_witness_StepRunsNextCommand :
    (rtRun [0x12000000#32]).refused = none ∧ (rtRun [0x12000000#32]).mover = some .rt ∧
      decode ((rtRun [0x12000000#32]).ahead .rt) = .ok (.syncSteplen 0#16, []) ∧
      (Instr.syncSteplen 0#16).op.agent = .rt := by decide

/-- A step of the HOST agent too. -/
theorem test_witness_StepRunsNextCommand_host :
    (hostRun [0x30000000#32]).refused = none ∧ (hostRun [0x30000000#32]).mover = some .host ∧
      decode ((hostRun [0x30000000#32]).ahead .host) = .ok (.hostRead 0#16 0#8, []) ∧
      (Instr.hostRead 0#16 0#8).op.agent = .host := by decide

/-- An illegal word, a cut-off payload, and the other agent's command in each list (V-X14, V-X19 to
V-X21). -/
theorem test_witness_IllegalCommandIsRefused :
    (rtRun [0x06000000#32]).mover = some .rt ∧
    decode ((rtRun [0x06000000#32]).ahead .rt) = .error .unassignedOp ∧
    (hostRun [0x28000000#32, 0#32]).mover = some .host ∧
    decode ((hostRun [0x28000000#32, 0#32]).ahead .host) = .error .payloadCutOff ∧
    (rtRun [0x2A000000#32, 1#32]).mover = some .rt ∧
    decode ((rtRun [0x2A000000#32, 1#32]).ahead .rt) = .ok (.setEnable 0#16 1#32, []) ∧
    (Instr.setEnable 0#16 1#32).op.agent ≠ .rt ∧
    (hostRun [0x02000000#32]).mover = some .host ∧
    decode ((hostRun [0x02000000#32]).ahead .host) = .ok (.decode 0#16, []) ∧
    (Instr.decode 0#16).op.agent ≠ .host := by decide

theorem test_witness_CommandListReadsBack :
    (∀ i ∈ [Instr.setEnable 0#16 1#32, .hostRead 0#16 16#8], i.wellFormed = true) ∧
      [Instr.setEnable 0#16 1#32, .hostRead 0#16 16#8][1]? = some (.hostRead 0#16 16#8) := by decide

/-- Nobody left; the scheduled agent has a command; it has none and the other has one. -/
theorem test_witness_ScheduleChoosesTheMover :
    State.reset.mover = none ∧
    ({ hostRun [0x30000000#32] with rtList := [0x01000000#32] }).schedule[0]? = some .host ∧
    ({ hostRun [0x30000000#32] with rtList := [0x01000000#32] }).mover = some .host ∧
    ({ rtRun [0x01000000#32] with schedule := [.host] }).schedule[0]? = some .host ∧
    commandCount ({ rtRun [0x01000000#32] with schedule := [.host] }).hostList ≤ 0 ∧
    0 < commandCount ({ rtRun [0x01000000#32] with schedule := [.host] }).rtList ∧
    ({ rtRun [0x01000000#32] with schedule := [.host] }).mover = some .rt := by decide

theorem test_witness_RefusedRunStopsAndEndedRunKeepsItsState :
    ({ State.reset with refused := some .badPeriod }).refused = some .badPeriod ∧
      ({ rtRun [0x01000000#32] with pc := 1 }).ended := by decide

theorem test_witness_EveryRunComesToItsEnd :
    (rtRun [0x01000000#32, 0x05000000#32]).refused = none ∧
    (rtRun [0x01000000#32, 0x05000000#32]).pc ≤
      commandCount (rtRun [0x01000000#32, 0x05000000#32]).rtList ∧
    (rtRun [0x01000000#32, 0x05000000#32]).hpc ≤
      commandCount (rtRun [0x01000000#32, 0x05000000#32]).hostList := by decide

/-! ### Creation -/

/-- Each clause of R268 at its boundary, refused on one side and accepted on the other: N = 0, the
stride below 4*N, misaligned addresses, a clock of 0, and the last address at 2^32 and below. -/
theorem test_witness_CreationIsRefusedExactly :
    State.create resetConfig [] = .refused .badConfiguration ∧
    State.create { resetConfig with clockHz := 0#32 } resetInit = .refused .badConfiguration ∧
    State.create { resetConfig with base := 2#32 } resetInit = .refused .badConfiguration ∧
    State.create { resetConfig with stride := 6#32 } resetInit = .refused .badConfiguration ∧
    State.create { resetConfig with stride := 4#32 } (resetInit ++ resetInit) =
      .refused .badConfiguration ∧
    State.create { resetConfig with base := 0xFFFFFFDC#32, stride := 4#32 } resetInit =
      .refused .badConfiguration ∧
    (∃ t, State.create { resetConfig with base := 0xFFFFFFD8#32, stride := 4#32, clockHz := 1#32 }
      resetInit = .next t) := ⟨rfl, rfl, rfl, rfl, rfl, rfl, _, rfl⟩

/-- N at its upper bound and one above it. -/
theorem test_witness_creation_size :
    configOk { resetConfig with stride := 0x40000#32 } (List.replicate 65536 ()).length ∧
    ¬ configOk { resetConfig with stride := 0x40004#32 } (List.replicate 65537 ()).length := by
  rw [List.length_replicate, List.length_replicate]
  decide

theorem test_witness_CreatedGroupIsInItsResetState :
    State.create resetConfig resetInit = .next State.reset ∧
      resetInit[0]? = some (resetInit.getD 0 default) := ⟨rfl, rfl⟩

theorem test_witness_CreatedGroupMeetsTheInvariants :
    State.create resetConfig (resetInit ++ resetInit) =
      .next (State.fresh resetConfig (resetInit ++ resetInit)) := rfl

/-! ### Invariants: a state that meets each, with a step that writes a register -/

/-- A channel whose steplen has been synced: parameter and shadow 1000, register 50. -/
def synced : Channel :=
  { chan0 with steplen := 1000#32, writtenSteplen := some 1000#32, pulseWidthReg := some 50#32 }

/-- The group of that channel, with the write in its history and a report in its log, about to sync
another field. -/
def midRun : State :=
  { group [synced] with
    rtList := [0x10000000#32], wlog := [.write 0x1500 50#32],
    diag := [⟨.timingClamped, 0, some .steplen⟩, ⟨.scaleCorrected, 0, none⟩] }

theorem test_witness_step : ∃ t, step midRun = .next t ∧ t.wlog.length = 2 := ⟨_, rfl, rfl⟩

theorem test_witness_CacheRegistersStayInRange : midRun.cacheInv := by
  intro c hc
  have hc : c = synced := List.mem_singleton.mp hc
  rw [hc]
  rintro (⟨_ | _ | _ | _⟩ | _) <;>
    exact ⟨rfl, fun r hr => by cases hr <;> decide,
      fun h r hr => by first | (cases h; cases hr) | cases h⟩

theorem test_witness_HistoryStaysInTheRegisterMap : midRun.logInv := by
  intro e he
  rw [List.mem_singleton.mp he]
  exact .inr ⟨.dur .steplen, 0, by decide⟩

theorem test_witness_DiagnosticsStayWellFormed : midRun.diagInv := by decide

theorem test_witness_CacheStaysTheDeviceImage : midRun.configOk ∧ midRun.deviceInv := by
  refine ⟨by decide, fun i c F hc => ?_⟩
  cases i with
  | zero =>
    cases hc
    rcases F with ⟨_ | _ | _ | _⟩ | _ <;> rfl
  | succ i => exact absurd hc (by simp [midRun, group])

theorem test_witness_RegistersStayTheTransformOfTheirShadow :
    midRun.cfg.clockHz.toNat < 500000000 ∧ midRun.shadowInv := by
  refine ⟨by decide, fun i c F hc => ?_⟩
  cases i with
  | zero =>
    cases hc
    intro p hp
    rcases F with ⟨_ | _ | _ | _⟩ | _ <;> cases hp
    decide +kernel
  | succ i => exact absurd hc (by simp [midRun, group])

theorem test_witness_ShadowInvariantFailsAtAHighClock :
    (groupAt 2000000000#32 [{ chan0 with steplen := 8192#32 }]).cfg.clockHz = 2000000000#32 ∧
    (groupAt 2000000000#32 [{ chan0 with steplen := 8192#32 }]).channels[(0#16).toNat]? =
      some { chan0 with steplen := 8192#32 } ∧
    ({ chan0 with steplen := 8192#32 } : Channel).shadow (.dur .steplen) ≠
      some (({ chan0 with steplen := 8192#32 } : Channel).param (.dur .steplen)) ∧
    8192 ≤ (({ chan0 with steplen := 8192#32 } : Channel).param (.dur .steplen)).toNat := by decide

/-- A step of each kind: idle, an illegal command, a command. -/
theorem test_witness_ConfigurationIsFixedAndLogsOnlyGrow :
    (∃ t, step State.reset = .next t) ∧ (∃ t, step (rtRun [0#32]) = .next t) ∧
      (∃ t, step (rtRun [0x01000000#32]) = .next t) := ⟨⟨_, rfl⟩, ⟨_, rfl⟩, ⟨_, rfl⟩⟩

/-! ### Completion, channels and agents -/

/-- Every reason of R270 is a refusal of some command, at the boundary of its range. -/
theorem test_witness_CommandsAreRefusedExactlyWhen :
    refusalOf 1 (.hostRead 1#16 17#8) = some .illegalCommand ∧
    refusalOf 1 (.hostRead 1#16 16#8) = some .channelRange ∧
    refusalOf 1 (.hostRead 0#16 16#8) = none ∧
    refusalOf 1 (.control 1#16 (F64.zero false)) = some .channelRange ∧
    refusalOf 1 (.control 0#16 (F64.zero false)) = some .badPeriod ∧
    refusalOf 1 (.control 0#16 (F64.inf false)) = some .badPeriod ∧
    refusalOf 1 (.control 0#16 (f 0x8000000000000001#64)) = some .badPeriod ∧
    refusalOf 1 (.control 0#16 (f 1#64)) = none ∧
    refusalOf 1 (.control 0#16 (f 0x7FEFFFFFFFFFFFFF#64)) = none ∧
    refusalOf 1 (.setControlType 0#16 2#32) = some .badPayload ∧
    refusalOf 1 (.setControlType 0#16 1#32) = none := by decide

theorem test_witness_OtherChannelsAreUnchanged :
    (Instr.decode 1#16).chan? = some 1#16 ∧ (∃ t, exec (.decode 1#16) pair = .next t) ∧
      0 ≠ (1#16).toNat := ⟨rfl, ⟨_, rfl⟩, by decide⟩

theorem test_witness_CommandsReadOnlyTheirChannel :
    (Instr.decode 0#16).chan? = some 0#16 ∧ pair.cfg = (group [chan0, chan0]).cfg ∧
    pair.n = (group [chan0, chan0]).n ∧
    pair.channels[(0#16).toNat]? = (group [chan0, chan0]).channels[(0#16).toNat]? ∧
    (∃ t, exec (.decode 0#16) pair = .next t) ∧
    (∃ t, exec (.decode 0#16) (group [chan0, chan0]) = .next t) :=
  ⟨rfl, rfl, rfl, rfl, ⟨_, rfl⟩, ⟨_, rfl⟩⟩

/-- Two channels whose velocity is infinite, so that each one's ENCODE draws. -/
def drawing : State :=
  group [{ chan0 with velocityFb := F64.inf false }, { chan0 with velocityFb := F64.inf true }]

/-- A SYNC and an ENCODE, and two ENCODEs that draw. -/
theorem test_witness_CommandsOnDifferentChannelsCommute :
    ∀ i ∈ [Instr.syncSteplen 0#16, .encode 0#16],
      ∃ s1 t1 s2 t2, exec i drawing = .next s1 ∧ exec (.encode 1#16) s1 = .next t1 ∧
        t1.refused = none ∧ exec (.encode 1#16) drawing = .next s2 ∧ exec i s2 = .next t2 ∧
        i.chan? = some 0#16 ∧ (Instr.encode 1#16).chan? = some 1#16 ∧ (0#16 : ChanIdx) ≠ 1#16 ∧
        drawing.refused = none := by
  intro i hi
  fin_cases hi <;> exact ⟨_, _, _, _, rfl, rfl, rfl, rfl, rfl, rfl, rfl, by decide, rfl⟩

/-- ENCODE of an infinite velocity draws once for its channel (42_encoder.md R194). -/
theorem test_encode_draws :
    (seen (exec (.encode 0#16) drawing)).map (fun r => r.chan.rateDraws) = some 1 := by
  decide +kernel

/-- A command that writes an item, HOST_READ, and a refused one. -/
theorem test_witness_HostWritesOnlyItsItems :
    ∀ i ∈ [Instr.setSteplen 0#16 5#32, .hostRead 1#16 16#8, .setEnable 0#16 2#32],
      i.op.agent = .host ∧ ∃ t, exec i pair = .next t := by
  intro i hi
  fin_cases hi <;> exact ⟨rfl, _, rfl⟩

/-- A command of each clause, with the field that it writes seen to change. -/
theorem test_witness_FieldsHaveTheWritersOfTheTable :
    ((seen (exec .tramRead { pair with acc := [5#32, 6#32] })).map (fun r => r.chan.rawAcc)) =
      some 5#32 ∧
    ((one (.decode 0#16) { chan0 with rawAcc := 3#32 }).map (fun r => r.chan.prevRaw)) =
      some 3#32 ∧
    ((one (.control 0#16 ms) { chan0 with maxvel := F64.inf false }).map
      (fun r => r.diags.length)) = some 1 ∧
    ((one (.encode 0#16) { chan0 with stepRateReg := 3#32 }).map (fun r => r.chan.stepRateReg)) =
      some 0#32 ∧
    ((one .tramWrite chan0).map (fun r => r.chan)) = some chan0 ∧
    ((one (.syncSteplen 0#16) chan0).map (fun r => r.chan.pulseWidthReg)) = some (some 5#32) ∧
    ((one .forcedResync chan0).map (fun r => r.chan.modeReg)) = some (some 0#32) := by
  decide +kernel

/-! ### The device registers -/

/-- A write of each kind: a batch read, a batch write, a dirty field, a forced resync. -/
theorem test_witness_WritesComeOnlyFromDirtyFields :
    ((one .tramRead chan0).map (fun r => r.events.length)) = some 1 ∧
    ((one .tramWrite chan0).map (fun r => r.events.length)) = some 1 ∧
    ((one (.syncSteptype 0#16) chan0).map (fun r => r.events.length)) = some 1 ∧
    ((one .forcedResync chan0).map (fun r => r.events.length)) = some 6 := by decide +kernel

/-- The bytes on both sides of a written register, and the register itself. -/
theorem test_witness_OtherDeviceBytesAreUnchanged :
    pair.cfg.base.toNat % 4 = 0 ∧ pair.cfg.stride.toNat % 4 = 0 ∧
    (∃ t, exec (.syncSteplen 0#16) pair = .next t) ∧
    (∀ r ∈ storedAt (.syncSteplen 0#16) pair, 0x14FF < r ∨ r + 4 ≤ 0x14FF) ∧
    (∀ r ∈ storedAt (.syncSteplen 0#16) pair, 0x1504 < r ∨ r + 4 ≤ 0x1504) ∧
    ¬ (∀ r ∈ storedAt (.syncSteplen 0#16) pair, 0x1503 < r ∨ r + 4 ≤ 0x1503) :=
  ⟨by decide, by decide, ⟨_, rfl⟩, by decide, by decide, by decide⟩

theorem test_witness_RegisterAddressesAreAlignedAndDistinct :
    configOk { resetConfig with base := 0xFFFFFFD8#32, stride := 4#32 } 1 ∧
    configOk resetConfig 64 ∧ regAddr resetConfig .dirHold 63 = regAddr resetConfig .dirHold 63 := by
  decide

/-- `S = 2 + ceil(log2 N)` with N = 3, and the last channel. -/
theorem test_witness_AddressOffsetBits :
    1 ≤ 3 ∧ ({ resetConfig with stride := 16#32 } : GroupConfig).stride.toNat = 2 ^ 4 ∧
      2 + Nat.clog 2 3 ≤ 4 ∧ 2 < 3 := by
  refine ⟨by decide, by decide, ?_, by decide⟩
  have : Nat.clog 2 3 ≤ 2 := Nat.clog_le_of_le_pow (by norm_num)
  omega

/-! ### DECODE -/

theorem test_witness_DecodeUpdatesPosition :
    pair.channels[(1#16).toNat]? = some { chan0 with rawAcc := 65536#32 } := rfl

/-- The two ends of the range, and a displacement over a wrap (V-D1). -/
theorem test_witness_DecodeRecoversTheTrueDisplacement :
    pair.channels[(1#16).toNat]? = some { chan0 with rawAcc := 65536#32 } ∧
    wrapOk ({ chan0 with rawAcc := 65536#32 } : Channel).prevRaw
      ({ chan0 with rawAcc := 65536#32 } : Channel).rawAcc 65536 ∧
    wrapOk 0#32 0x7FFFFFFF#32 (2 ^ 31 - 1) ∧ wrapOk 0#32 0x80000001#32 (-(2 ^ 31 - 1)) ∧
    wrapOk 0xFFFFFFF0#32 0x10#32 32 := by
  refine ⟨rfl, ?_, ?_, ?_, ?_⟩ <;> decide

theorem test_witness_SecondDecodeAddsNothing :
    ∃ t u c' c'', exec (.decode 1#16) pair = .next t ∧ exec (.decode 1#16) t = .next u ∧
      pair.channels[(1#16).toNat]? = some { chan0 with rawAcc := 65536#32 } ∧
      t.channels[(1#16).toNat]? = some c' ∧ u.channels[(1#16).toNat]? = some c'' ∧
      c'.counts = 1#32 := ⟨_, _, _, _, rfl, rfl, rfl, rfl, rfl, rfl⟩

/-- Each of the three commands, on a channel whose scale is below the limit. -/
theorem test_witness_NoNearZeroScaleIsLeft :
    ∀ i ∈ [Instr.decode 0#16, .control 0#16 ms, .encode 0#16],
      i.chan? = some 0#16 ∧
      (i.op = .decode ∨ (chan0.enable = true ∧ (i.op = .control ∨ i.op = .encode))) ∧
      ((one i { chan0 with positionScale := F64.zero true }).map
        (fun r => (r.chan.positionScale, r.diags))) =
        some (F64.one, [⟨.scaleCorrected, 0, none⟩]) := by decide +kernel

/-! ### CONTROL and ENCODE -/

theorem test_witness_DisabledChannelIsSkipped :
    (group [{ chan0 with enable := false }]).channels[(0#16).toNat]? =
      some { chan0 with enable := false } ∧
    ({ chan0 with enable := false } : Channel).enable = false ∧
    F64.zeroLit.lt ms = true ∧ ms.lt (F64.inf false) = true := by decide

theorem test_witness_ControlInVelocityMode :
    (group [{ chan0 with controlType := .velocity }]).channels[(0#16).toNat]? =
      some { chan0 with controlType := .velocity } ∧
    ({ chan0 with controlType := .velocity } : Channel).enable = true ∧
    ({ chan0 with controlType := .velocity } : Channel).controlType = .velocity ∧
    F64.zeroLit.lt ms = true ∧ ms.lt (F64.inf false) = true := by decide

theorem test_witness_ControlInPositionMode :
    (group [chan0]).channels[(0#16).toNat]? = some chan0 ∧ chan0.enable = true ∧
    chan0.controlType = .position ∧ F64.zeroLit.lt ms = true ∧ ms.lt (F64.inf false) = true := by
  decide

/-- V-C1: no limit, a velocity error of -1000, a period of 0.001. -/
theorem test_witness_UnlimitedMatchAcceleration :
    F64.zeroLit.feq F64.zeroLit = true ∧ (f 0xC08F400000000000#64).isNaN = false ∧
    (f 0xC08F400000000000#64).feq F64.zeroLit = false ∧ F64.zeroLit.lt ms = true ∧
    ms.lt (F64.inf false) = true := by decide

/-- V-C10: a commanded velocity of 10 under a maxvel of -3, which becomes 3. -/
theorem test_witness_VelocityIsBoundedByMaxvel :
    ∃ t c', exec (.control 0#16 ms) (group [{ chan0 with
        controlType := .velocity, velocityCmd := f 0x4024000000000000#64,
        maxvel := f 0xC008000000000000#64 }]) = .next t ∧
      t.refused = none ∧ t.channels[(0#16).toNat]? = some c' ∧
      (newVel (maxaccelCheck 0 { chan0 with
        controlType := .velocity, velocityCmd := f 0x4024000000000000#64,
        maxvel := f 0xC008000000000000#64 }).1 ms).isNaN = false ∧
      F64.zeroLit.lt c'.maxvel = true := by
  refine ⟨_, _, rfl, rfl, rfl, ?_, ?_⟩ <;> decide +kernel

/-- The same channel: maxvel was below 0. -/
theorem test_witness_LimitsAreCorrectedByControl :
    ∃ t c', exec (.control 0#16 ms) (group [{ chan0 with
        maxvel := f 0xC008000000000000#64, maxaccel := f 0xC008000000000000#64 }]) = .next t ∧
      t.refused = none ∧ t.channels[(0#16).toNat]? = some c' :=
  ⟨_, _, rfl, rfl, rfl⟩

/-- A finite increment (V-E1) and one that is not: a velocity of infinity. -/
theorem test_witness_EncodeWritesThePhaseIncrement :
    (group [chan0]).channels[(0#16).toNat]? = some chan0 ∧ chan0.enable = true ∧
    (phaseIncrement resetConfig { chan0 with velocityFb := f 0x408F400000000000#64 }).isFinite = true ∧
    (phaseIncrement resetConfig { chan0 with velocityFb := F64.inf false }).isFinite = false := by
  decide +kernel

/-- V-E1. -/
theorem test_witness_NegatedScaleReversesTheRegister :
    (group [{ chan0 with velocityFb := f 0x408F400000000000#64 }]).channels[(0#16).toNat]? =
      some { chan0 with velocityFb := f 0x408F400000000000#64 } ∧
    ({ chan0 with velocityFb := f 0x408F400000000000#64 } : Channel).enable = true ∧
    ({ chan0 with velocityFb := f 0x408F400000000000#64 } : Channel).positionScale.abs.lt
      F64.micro = false ∧
    (phaseIncrement resetConfig { chan0 with velocityFb := f 0x408F400000000000#64 }).isFinite = true := by
  decide +kernel

/-! ### SYNC and the HOST agent's commands -/

theorem test_witness_SyncCommitsExactlyADirtyField :
    (group [chan0]).channels[(0#16).toNat]? = some chan0 ∧
    chan0.shadow (.dur .steplen) ≠ some (chan0.param (.dur .steplen)) ∧
    (group [synced]).channels[(0#16).toNat]? = some synced ∧
    synced.shadow (.dur .steplen) = some (synced.param (.dur .steplen)) := by decide

/-- Step types 2, 3 and the greatest, dirty. -/
theorem test_witness_StepTypeIsValidated :
    ∀ p ∈ [2#32, 3#32, 0xFFFFFFFF#32],
      (group [{ chan0 with stepType := p }]).channels[(0#16).toNat]? =
        some { chan0 with stepType := p } ∧
      ({ chan0 with stepType := p } : Channel).writtenStepType ≠ some p := by
  intro p _
  exact ⟨rfl, fun h => by cases h⟩

/-- The last parameter below the clamp at 50 MHz and the first above it are dirty alike (V-T7, V-T8). -/
theorem test_witness_SyncOfADirtyFieldIsExact :
    ∀ p ∈ [327669#32, 327670#32, 0xFFFFFFFF#32],
      (group [{ chan0 with stepspace := p }]).channels[(0#16).toNat]? =
        some { chan0 with stepspace := p } ∧
      ({ chan0 with stepspace := p } : Channel).shadow (.dur .stepspace) ≠ some p := by
  intro p _
  exact ⟨rfl, fun h => by cases h⟩

theorem test_witness_SyncTwiceWritesOnce :
    (group [chan0]).channels[(0#16).toNat]? = some chan0 ∧
    (∃ t, exec (syncInstr (.dur .steplen) 0#16) (group [chan0]) = .next t) ∧
    chan0.shadow (.dur .steplen) ≠ some (chan0.param (.dur .steplen)) ∧
    (group [synced]).channels[(0#16).toNat]? = some synced ∧
    (∃ t, exec (syncInstr (.dur .steplen) 0#16) (group [synced]) = .next t) ∧
    synced.shadow (.dur .steplen) = some (synced.param (.dur .steplen)) :=
  ⟨rfl, ⟨_, rfl⟩, by decide, rfl, ⟨_, rfl⟩, rfl⟩

theorem test_witness_RtCommandsKeepCleanFieldsClean :
    Instr.forcedResync.op.agent = .rt ∧
    ∃ t c', exec .forcedResync (group [synced]) = .next t ∧
      (group [synced]).channels[0]? = some synced ∧ t.channels[0]? = some c' ∧
      synced.shadow (.dur .steplen) = some (synced.param (.dur .steplen)) :=
  ⟨rfl, _, _, rfl, rfl, rfl, rfl⟩

theorem test_witness_ForcedResyncReachesTheDevice :
    pair.configOk ∧ ∃ t, exec .forcedResync pair = .next t := ⟨by decide, _, rfl⟩

theorem test_witness_HostSetsStoreTheirValue :
    pair.channels[(1#16).toNat]? = some { chan0 with rawAcc := 65536#32 } := rfl

/-- The first selector and the last. -/
theorem test_witness_HostReadReturnsTheItem :
    (one (.hostRead 0#16 0#8) chan0).map (fun r => r.hpc) = some 1 ∧
    (one (.hostRead 0#16 16#8) chan0).map (fun r => r.hpc) = some 1 ∧
    itemOf 16#8 = some .stepType ∧ itemOf 17#8 = none := by decide

/-! ### Arithmetic -/

/-- Finite operands: the greatest value twice (the sum overflows), the least, and a divisor not 0. -/
theorem test_witness_OperationsAreCorrectlyRounded :
    (f 0x7FEFFFFFFFFFFFFF#64).isFinite = true ∧ (f 1#64).isFinite = true ∧
    (f 0x7FEFFFFFFFFFFFFF#64).add (f 0x7FEFFFFFFFFFFFFF#64) = F64.inf false ∧
    F64.one.add F64.one.neg = F64.zero false ∧
    (F64.zero true).add (F64.zero true) = F64.zero true ∧ F64.one.isFinite = true ∧
    F64.one.mant ≠ 0 := by decide +kernel

/-- R168's `1e9 / 0.0`, a divisor of -0.0, `0.0 / 0.0`, a NaN operand, and infinities. -/
theorem test_witness_OperationsAreCorrectlyRounded_special :
    F64.giga.div F64.zeroLit = F64.inf false ∧ F64.giga.div (F64.zero true) = F64.inf true ∧
    (F64.zeroLit.div F64.zeroLit).isNaN = true ∧ (f 0x7FF8000000000000#64).isNaN = true ∧
    (F64.inf false).add F64.giga = F64.inf false ∧ (F64.inf false).mul F64.half = F64.inf false ∧
    ((F64.inf false).sub (F64.inf false)).isNaN = true := by decide +kernel

theorem test_witness_ComparisonsAreThoseOfTheValues :
    (f 0x8000000000000000#64).isFinite = true ∧ (f 0x8000000000000000#64).feq F64.zeroLit = true ∧
    (f 0x7FF8000000000000#64).isNaN = true := by decide

/-- The ends of the exact range, and a half. -/
theorem test_witness_ConversionsAreThoseOfTheRule :
    |(2 ^ 53 : Int)| ≤ 2 ^ 53 ∧ |(-(2 ^ 53) : Int)| ≤ 2 ^ 53 ∧ F64.half.isFinite = true ∧
    F64.half.neg.isFinite = true := by decide

theorem test_witness_ClampStaysBetweenItsBounds :
    (f 0x7FF8000000000000#64).isNaN = true ∧ F64.two.isNaN = false ∧ F64.zeroLit.isNaN = false ∧
    F64.one.isNaN = false ∧ F64.one.lt F64.zeroLit = false ∧
    F64.half.lt F64.zeroLit = false ∧ F64.one.lt F64.half = false ∧
    F64.one.lt F64.two = true ∧ F64.half.neg.lt F64.zeroLit = true := by decide

end Sys2Proof.Tests
end

section
/-! PROOFS of the statements about the scope rules (00_scope.md): which records and fields a command
writes (R16), the register map (R10, R11), and the arithmetic (R14, R15, R19). -/

namespace Sys2Proof.Machine

/-! ## What a command leaves of a channel's record (R16) -/

/-- A command that names a channel is refused or does on that channel what `afterChan` says. -/
theorem exec_chan_cases {i : Instr} {ch : ChanIdx} {s t : State} (hi : i.chan? = some ch)
    (h : exec i s = .next t) :
    (∃ r, t = s.refuse r) ∨
      ∃ c, s.channels[ch.toNat]? = some c ∧ t = afterChan i ch.toNat c s := by
  cases hr : refusalOf s.n i with
  | some r =>
    rw [exec_channel_refused hi hr] at h
    exact .inl ⟨r, (Host.Outcome.next.inj h).symm⟩
  | none =>
    obtain ⟨c, hc⟩ := channel_of_not_refused hi hr
    rw [exec_channel hi hc hr] at h
    exact .inr ⟨c, hc, (Host.Outcome.next.inj h).symm⟩

/-- Settles O24: a refusal writes no record, and a completed command writes the one it names. -/
theorem otherChannelsAreUnchanged : Obligations.OtherChannelsAreUnchanged := by
  intro i ch s t j hi h hj
  obtain ⟨r, rfl⟩ | ⟨c, -, rfl⟩ := exec_chan_cases hi h
  · rw [State.refuse_channels]
  · rw [afterChan_channels, List.getElem?_set_ne hj.symm]

section Writers
variable {s t : State} {k : Nat} {c c' : Channel}

/-- After a command that names a channel a record is the one before it, or what the command leaves of
it on the channel named. -/
theorem exec_chan_record {i : Instr} {ch : ChanIdx} (hi : i.chan? = some ch)
    (h : exec i s = .next t) (hc : s.channels[k]? = some c) (hc' : t.channels[k]? = some c') :
    c' = c ∨ c' = (chanOut s.cfg i k c).chan := by
  by_cases hk : k = ch.toNat
  · subst hk
    obtain ⟨r, rfl⟩ | ⟨d, hd, rfl⟩ := exec_chan_cases hi h
    · exact .inl (Option.some.inj (hc'.symm.trans hc))
    · obtain rfl : c = d := Option.some.inj (hc.symm.trans hd)
      rw [afterChan_channels, List.getElem?_set_self (State.lt_n hc)] at hc'
      exact .inr (Option.some.inj hc').symm
  · rw [otherChannelsAreUnchanged i ch s t k hi h hk, hc] at hc'
    exact .inl (Option.some.inj hc').symm

theorem tramRead_record (h : exec .tramRead s = .next t) (hc : s.channels[k]? = some c)
    (hc' : t.channels[k]? = some c') : c' = { c with rawAcc := c'.rawAcc } := by
  obtain rfl : (tramReadState s).advance .rt = t := Host.Outcome.next.inj h
  rw [State.advance_channels, tramReadState_channels] at hc'
  obtain ⟨d, v, hd, -, rfl⟩ := latchRaw_getElem? hc'
  obtain rfl : c = d := Option.some.inj (hc.symm.trans hd)
  rfl

theorem tramWrite_record (h : exec .tramWrite s = .next t) (hc : s.channels[k]? = some c)
    (hc' : t.channels[k]? = some c') : c' = c := by
  obtain rfl := Host.Outcome.next.inj h
  rw [State.advance_channels, State.emit_channels, hc] at hc'
  exact (Option.some.inj hc').symm

theorem forcedResync_record (h : exec .forcedResync s = .next t) (hc : s.channels[k]? = some c)
    (hc' : t.channels[k]? = some c') : c' = (resyncChan s.cfg k c).chan := by
  obtain rfl : (resyncState s).masterEnable.advance .rt = t := Host.Outcome.next.inj h
  rw [State.advance_channels, State.masterEnable_channels] at hc'
  obtain ⟨d, hd, rfl⟩ := resyncState_channel hc'
  obtain rfl : c = d := Option.some.inj (hc.symm.trans hd)
  rfl

/-- The forced sync of a channel writes the fifteen items of its five timing fields. -/
theorem resyncChan_frame (cfg : GroupConfig) (k : Nat) (c : Channel) :
    ∃ ds dh sl ss st wds wdh wsl wss wst m rds rdh rpw rpi, (resyncChan cfg k c).chan = { c with
      dirsetup := ds, dirhold := dh, steplen := sl, stepspace := ss, stepType := st,
      writtenDirsetup := wds, writtenDirhold := wdh, writtenSteplen := wsl,
      writtenStepspace := wss, writtenStepType := wst, modeReg := m, dirSetupReg := rds,
      dirHoldReg := rdh, pulseWidthReg := rpw, pulseIdleWidthReg := rpi } := by
  rw [resyncChan_chan, commitFields_eq (fun F => (transform cfg F k (c.param F)).param)
    (fun F => (transform cfg F k (c.param F)).reg)]
  exact ⟨_, _, _, _, _, _, _, _, _, _, _, _, _, _, _, rfl⟩

/-- A sync of a field leaves the record or commits the field. -/
theorem syncField_record (cfg : GroupConfig) (F : TimingField) (force : Bool) (k : Nat)
    (c : Channel) : (syncField cfg F force k c).chan = c ∨
      ∃ p r, (syncField cfg F force k c).chan = c.commitField F p r := by
  unfold syncField
  split
  · exact .inr ⟨_, _, rfl⟩
  · exact .inl rfl

end Writers

/-- Settles O28: a record after a command is the one before it or what the command's unit leaves of
it, and each unit's frame names the fields it writes. -/
theorem fieldsHaveTheWritersOfTheTable : Obligations.FieldsHaveTheWritersOfTheTable := by
  intro i s t k c c' h hc hc'
  refine ⟨?tramRead, ?decode, ?control, ?encode, ?tramWrite, ?sync, ?resync⟩
  case tramRead =>
    rintro rfl
    exact tramRead_record h hc hc'
  case decode =>
    intro hop
    cases i <;> cases hop
    obtain rfl | rfl := exec_chan_record rfl h hc hc'
    · rfl
    · obtain ⟨_, _, _, _, _, hv⟩ := decodeChan_frame k c
      simp only [chanOut, hv]
  case control =>
    intro hop
    cases i <;> cases hop
    next ch T =>
      obtain rfl | rfl := exec_chan_record rfl h hc hc'
      · rfl
      · obtain ⟨_, _, _, _, _, _, _, _, _, _, hv⟩ := controlChan_frame T k c
        simp only [chanOut, hv]
  case encode =>
    intro hop
    cases i <;> cases hop
    obtain rfl | rfl := exec_chan_record rfl h hc hc'
    · rfl
    · obtain ⟨_, _, _, _, hv⟩ := encodeChan_frame s.cfg k c
      simp only [chanOut, hv]
  case tramWrite =>
    rintro rfl
    exact tramWrite_record h hc hc'
  case sync =>
    rintro F ch rfl
    obtain h' | h' := exec_chan_record (syncInstr_chan? F ch) h hc hc'
    · exact .inl h'
    · rw [h', chanOut_syncInstr]
      exact syncField_record s.cfg F false k c
  case resync =>
    rintro rfl
    obtain ⟨_, _, _, _, _, _, _, _, _, _, _, _, _, _, _, hv⟩ := resyncChan_frame s.cfg k c
    rw [forcedResync_record h hc hc', hv]

/-! ## The register map (R10, R11) -/

/-- The last register of a group has the highest address. -/
theorem regAddr_le {n i : Nat} (cfg : GroupConfig) (k : Kind) (hi : i < n) :
    regAddr cfg k i ≤ cfg.base.toNat + 9 * cfg.stride.toNat + 4 * (n - 1) := by
  have hk := Nat.mul_le_mul_right cfg.stride.toNat k.num_le
  unfold regAddr
  omega

/-- Settles O31: base and stride are multiples of 4, the highest address is in range, and a stride
holds one register of every channel. -/
theorem registerAddressesAreAlignedAndDistinct :
    Obligations.RegisterAddressesAreAlignedAndDistinct := by
  rintro cfg n ⟨-, -, -, hbase, hstride, hroom, htop⟩
  refine ⟨fun k i hi => ⟨regAddr_mod_four hbase hstride k i, ?_⟩,
    fun k l i j hi hj => regAddr_inj hroom hi hj⟩
  have := regAddr_le cfg k hi
  omega

end Sys2Proof.Machine

namespace Sys2Proof

/-! ## Infinities and NaNs (R14) -/

@[simp] theorem F64.inf_isNaN (a : Bool) : (F64.inf a).isNaN = false := rfl
@[simp] theorem F64.inf_isInf (a : Bool) : (F64.inf a).isInf = true := rfl
@[simp] theorem F64.inf_isZero (a : Bool) : (F64.inf a).isZero = false := by
  cases a <;> decide
@[simp] theorem F64.inf_sign (a : Bool) : (F64.inf a).sign = a := rfl
@[simp] theorem F64.neg_inf (a : Bool) : (F64.inf a).neg = F64.inf (!a) := rfl

/-- Every operation on a NaN makes a NaN. -/
theorem F64.ops_isNaN {x y : F64} (h : (x.isNaN || y.isNaN) = true) :
    (x.add y).isNaN = true ∧ (x.sub y).isNaN = true ∧
    (x.mul y).isNaN = true ∧ (x.div y).isNaN = true := by
  simp only [F64.add, F64.sub, F64.addAs, F64.mul, F64.div, F64.neg_isNaN, h, if_true,
    F64.nanOf_isNaN, and_self]

section InfinityAndFinite
variable {x : F64} (a : Bool) (hx : x.isFinite = true)
include hx

theorem F64.sum_inf_finite :
    (F64.inf a).add x = F64.inf a ∧ x.add (F64.inf a) = F64.inf a ∧
    (F64.inf a).sub x = F64.inf a ∧ x.sub (F64.inf a) = F64.inf (!a) := by
  simp [F64.add, F64.sub, F64.addAs, F64.not_isNaN_of_isFinite hx, F64.isInf_of_isFinite hx]

theorem F64.div_inf_finite :
    (F64.inf a).div x = F64.inf (a != x.sign) ∧ x.div (F64.inf a) = F64.zero (x.sign != a) := by
  simp [F64.div, F64.not_isNaN_of_isFinite hx, F64.isInf_of_isFinite hx]

theorem F64.mul_inf_finite (h0 : x.val ≠ 0) :
    (F64.inf a).mul x = F64.inf (a != x.sign) ∧ x.mul (F64.inf a) = F64.inf (x.sign != a) := by
  rw [Ne, F64.val_eq_zero_iff] at h0
  simp [F64.mul, F64.not_isNaN_of_isFinite hx, h0]

theorem F64.mul_inf_zero (h0 : x.val = 0) :
    ((F64.inf a).mul x).isNaN = true ∧ (x.mul (F64.inf a)).isNaN = true := by
  rw [F64.val_eq_zero_iff] at h0
  simp [F64.mul, F64.not_isNaN_of_isFinite hx, h0, F64.nanOf_isNaN]

end InfinityAndFinite

theorem F64.ops_inf_inf (a b : Bool) :
    (F64.inf a).mul (F64.inf b) = F64.inf (a != b) ∧ ((F64.inf a).div (F64.inf b)).isNaN = true ∧
    (F64.inf a).add (F64.inf a) = F64.inf a ∧ ((F64.inf a).add (F64.inf (!a))).isNaN = true ∧
    (F64.inf a).sub (F64.inf (!a)) = F64.inf a ∧ ((F64.inf a).sub (F64.inf a)).isNaN = true := by
  simp [F64.add, F64.sub, F64.addAs, F64.mul, F64.div, F64.nanOf_isNaN]

/-! ## Sums of finite values (R14) -/

/-- An integer multiple of a power of two is rounded once by its sign and its magnitude. -/
theorem F64.round_int_rounded {m : Int} (hm : m ≠ 0) (e : Int) :
    F64.rounded ((m : ℚ) * 2 ^ e) (F64.round (decide (m < 0)) m.natAbs e) := by
  have h := F64.round_rounded (decide (m < 0)) (Int.natAbs_ne_zero.mpr hm) e
  have hv : signed (decide (m < 0)) ((m.natAbs : ℚ) * 2 ^ e) = (m : ℚ) * 2 ^ e := by
    rw [Nat.cast_natAbs, signed]
    rcases lt_or_gt_of_ne hm with hneg | hpos
    · simp [hneg, abs_of_neg hneg]
    · simp [not_lt.mpr hpos.le, abs_of_pos hpos]
  rwa [hv] at h

/-- A value is an integer multiple of every power of two up to its own. -/
theorem F64.val_eq_of_le_expo {x : F64} {e : Int} (h : e ≤ x.expo) :
    x.val = ((let m : Int := (x.mant * 2 ^ (x.expo - e).toNat : Nat)
      if x.sign then -m else m : Int) : ℚ) * 2 ^ e := by
  unfold F64.val
  rw [zpow_split h]
  cases x.sign <;> simp <;> ring

/-- The exact sum, at an exponent that neither operand's is below. -/
theorem F64.sumAt_val {x y : F64} {e : Int} (hx : e ≤ x.expo) (hy : e ≤ y.expo) :
    (x.sumAt y e : ℚ) * 2 ^ e = x.val + y.val := by
  rw [F64.val_eq_of_le_expo hx, F64.val_eq_of_le_expo hy, ← add_mul, ← Int.cast_add]
  rfl

theorem F64.sumAt_min_val (x y : F64) :
    (x.sumAt y (min x.expo y.expo) : ℚ) * 2 ^ min x.expo y.expo = x.val + y.val :=
  F64.sumAt_val (min_le_left _ _) (min_le_right _ _)

/-- An exact sum of 0 is -0.0 only where both terms have the sign. -/
theorem F64.addFinite_of_sum_zero {x y : F64} (h : x.val + y.val = 0) :
    x.addFinite y = F64.zero (x.sign && y.sign) := by
  have h0 : x.sumAt y (min x.expo y.expo) = 0 := by
    rw [← F64.sumAt_min_val, mul_eq_zero, or_iff_left (by positivity)] at h
    exact_mod_cast h
  simp [F64.addFinite, h0]

/-- A sum of finite values is the exact one rounded once. -/
theorem F64.addFinite_rounded (x y : F64) : F64.rounded (x.val + y.val) (x.addFinite y) := by
  by_cases h : x.val + y.val = 0
  · rw [h, F64.addFinite_of_sum_zero h]
    exact F64.zero_rounded _
  · rw [← F64.sumAt_min_val] at h ⊢
    have hm : x.sumAt y (min x.expo y.expo) ≠ 0 := fun h0 => h (by rw [h0]; simp)
    simp only [F64.addFinite, if_neg hm]
    exact F64.round_int_rounded hm _

section FiniteOperands
variable {x y : F64} (hx : x.isFinite = true) (hy : y.isFinite = true)
include hx hy

theorem F64.add_eq_addFinite : x.add y = x.addFinite y := by
  simp [F64.add, F64.addAs, F64.not_isNaN_of_isFinite hx, F64.not_isNaN_of_isFinite hy,
    F64.isInf_of_isFinite hx, F64.isInf_of_isFinite hy]

theorem F64.sub_eq_addFinite : x.sub y = x.addFinite y.neg := by
  simp [F64.sub, F64.addAs, F64.not_isNaN_of_isFinite hx, F64.not_isNaN_of_isFinite hy,
    F64.isInf_of_isFinite hx, F64.isInf_of_isFinite hy]

theorem F64.add_rounded : F64.rounded (x.val + y.val) (x.add y) ∧
    (x.val + y.val = 0 → x.add y = F64.zero (x.sign && y.sign)) := by
  rw [F64.add_eq_addFinite hx hy]
  exact ⟨F64.addFinite_rounded x y, F64.addFinite_of_sum_zero⟩

theorem F64.sub_rounded : F64.rounded (x.val - y.val) (x.sub y) ∧
    (x.val - y.val = 0 → x.sub y = F64.zero (x.sign && !y.sign)) := by
  rw [F64.sub_eq_addFinite hx hy, sub_eq_add_neg, ← F64.neg_val]
  exact ⟨F64.addFinite_rounded x y.neg, F64.addFinite_of_sum_zero⟩

/-- A value other than 0 by 0 is an infinity (41_controller.md R168). -/
theorem F64.div_zero_eq_inf (hy0 : y.val = 0) (hx0 : x.val ≠ 0) :
    x.div y = F64.inf (x.sign != y.sign) := by
  rw [Ne, F64.val_eq_zero_iff] at hx0
  rw [F64.val_eq_zero_iff] at hy0
  simp [F64.div, F64.not_isNaN_of_isFinite hx, F64.not_isNaN_of_isFinite hy,
    F64.isInf_of_isFinite hx, hx0, hy0]

theorem F64.zero_div_zero_isNaN (hy0 : y.val = 0) (hx0 : x.val = 0) : (x.div y).isNaN = true := by
  rw [F64.val_eq_zero_iff] at hx0 hy0
  simp [F64.div, F64.not_isNaN_of_isFinite hx, F64.not_isNaN_of_isFinite hy, hx0, hy0,
    F64.nanOf_isNaN]

end FiniteOperands

/-- Settles O57: the four operations on finite values, then a NaN operand, an infinity with a finite
value, and two infinities. -/
theorem operationsAreCorrectlyRounded : Obligations.OperationsAreCorrectlyRounded := by
  refine ⟨fun x y hx hy => ⟨F64.add_rounded hx hy, F64.sub_rounded hx hy,
      ⟨F64.mul_rounded hx hy, F64.mul_sign hx hy⟩,
      fun h0 => ⟨F64.div_rounded hx hy h0, F64.div_sign hx hy h0⟩,
      F64.div_zero_eq_inf hx hy, F64.zero_div_zero_isNaN hx hy⟩,
    fun x y h => F64.ops_isNaN (by simpa using h), fun x a hx => ?_, F64.ops_inf_inf⟩
  obtain ⟨hadd, hadd', hsub, hsub'⟩ := F64.sum_inf_finite a hx
  obtain ⟨hdiv, hdiv'⟩ := F64.div_inf_finite a hx
  exact ⟨hadd, hadd', hsub, hsub', hdiv, hdiv', F64.mul_inf_finite a hx, F64.mul_inf_zero a hx⟩

/-! ## Comparisons (R14) -/

theorem F64.feq_iff_val {x y : F64} (hx : x.isNaN = false) (hy : y.isNaN = false) :
    x.feq y = true ↔ x.val = y.val := by
  rw [← F64.key_eq_iff]
  simp [F64.feq, hx, hy]

theorem F64.fne_iff_val {x y : F64} (hx : x.isNaN = false) (hy : y.isNaN = false) :
    x.fne y = true ↔ x.val ≠ y.val := by
  rw [Ne, ← F64.feq_iff_val hx hy]
  simp [F64.fne]

/-- `<` and `==` are false with a NaN. -/
theorem F64.lt_feq_of_isNaN {x y : F64} (h : (x.isNaN || y.isNaN) = true) :
    x.lt y = false ∧ y.lt x = false ∧ x.feq y = false := by
  rw [Bool.or_eq_true] at h
  rcases h with h | h <;> simp [F64.lt, F64.feq, h]

/-- Every finite value lies between the infinities. -/
theorem F64.finite_between_infinities {x : F64} (hx : x.isFinite = true) :
    (F64.inf true).lt x = true ∧ x.lt (F64.inf false) = true := by
  have hk := abs_lt.mp (F64.abs_key_lt_of_isFinite hx)
  have hn := F64.not_isNaN_of_isFinite hx
  simp only [F64.lt_iff_key, F64.inf_isNaN, hn, true_and]
  exact hk

/-- Settles O58: patterns order as values do, and NaN operands are tested first. -/
theorem comparisonsAreThoseOfTheValues : Obligations.ComparisonsAreThoseOfTheValues := by
  refine ⟨fun x y hx hy => ?_, fun x y h => ?_, fun x hx => F64.finite_between_infinities hx⟩
  · have nx := F64.not_isNaN_of_isFinite hx
    have ny := F64.not_isNaN_of_isFinite hy
    exact ⟨F64.lt_iff_val nx ny, F64.lt_iff_val ny nx, F64.feq_iff_val nx ny,
      F64.fne_iff_val nx ny⟩
  · obtain ⟨hlt, hgt, heq⟩ := F64.lt_feq_of_isNaN (x := x) (y := y) (by simpa using h)
    exact ⟨hlt, hgt, heq, by rw [F64.fne, heq]; rfl⟩

/-! ## Conversions (R15) -/

theorem F64.ofInt_rounded (n : Int) : F64.rounded (n : ℚ) (F64.ofInt n) := by
  by_cases h : n = 0
  · subst h
    exact_mod_cast F64.ofNat_rounded 0
  · simpa [F64.ofInt] using F64.round_int_rounded h 0

/-- An integer of magnitude at most 2^53 is kept. -/
theorem F64.ofInt_exact {n : Int} (h : |n| ≤ 2 ^ 53) :
    (F64.ofInt n).isFinite = true ∧ (F64.ofInt n).val = n := by
  have hle : n.natAbs ≤ 2 ^ 53 := by rw [Int.abs_eq_natAbs] at h; omega
  obtain ⟨hfin, hval, -⟩ := F64.ofNat_exact hle
  rcases lt_or_ge n 0 with hneg | hpos
  · obtain ⟨k, hk, rfl⟩ : ∃ k : Nat, k ≠ 0 ∧ n = -(k : Int) := ⟨n.natAbs, by omega, by omega⟩
    rw [Int.natAbs_neg, Int.natAbs_natCast] at hfin hval
    rw [F64.ofInt_neg k hk, F64.neg_isFinite, F64.neg_val, hval]
    exact ⟨hfin, by push_cast; rfl⟩
  · obtain ⟨k, rfl⟩ := Int.eq_ofNat_of_zero_le hpos
    rw [Int.natAbs_natCast] at hfin hval
    rw [F64.ofInt_natCast, hval]
    exact ⟨hfin, by push_cast; rfl⟩

/-- The exponent of a finite value is at most that of the largest. -/
theorem F64.expo_le {x : F64} (hx : x.isFinite = true) : x.expo ≤ 971 := by
  have h1 := x.isFinite_iff.mp hx
  have h2 := x.mag_eq
  have h3 := x.mant_ge
  rw [F64.infMag_eq] at h1
  omega

/-- A finite value is below the bound at which rounding gives an infinity: rounding keeps it. -/
theorem F64.abs_val_lt {x : F64} (hx : x.isFinite = true) :
    |x.val| < ((2 : ℚ) ^ 54 - 1) * 2 ^ 970 := by
  rw [F64.abs_val]
  by_cases h0 : x.mant = 0
  · norm_num [h0]
  · have hkept := (F64.round_exact x.sign x.mant_lt x.expo_ge (F64.expo_le hx)).1
    rwa [F64.round_eq_atPlace x.sign h0, (atPlace_lastInt h0 x.expo).finite_iff,
      zpow_ofNat] at hkept

/-- `f64(n)` keeps an integer that is some finite value. -/
theorem F64.ofInt_of_val {x : F64} (hx : x.isFinite = true) {n : Int} (h : x.val = n) :
    (F64.ofInt n).isFinite = true ∧ (F64.ofInt n).val = n := by
  have hr := F64.ofInt_rounded n
  rw [← h] at hr ⊢
  have hn := F64.nearest_of_rounded hr (F64.abs_val_lt hx)
  exact ⟨hn.1, F64.nearest_exact hn hx⟩

/-- A value whose exponent is not negative is an integer. -/
theorem F64.exists_int_val {x : F64} (h : 0 ≤ x.expo) : ∃ n : Int, x.val = n := by
  obtain ⟨k, hk⟩ := Int.eq_ofNat_of_zero_le h
  refine ⟨(if x.sign then -1 else 1) * x.mant * 2 ^ k, ?_⟩
  unfold F64.val
  rw [hk, zpow_natCast]
  push_cast
  rfl

/-- A value whose exponent is negative lies within 2^52. -/
theorem F64.abs_val_lt_of_expo_neg {x : F64} (h : x.expo < 0) : |x.val| < 2 ^ 52 := by
  have hm : (x.mant : ℚ) < 2 ^ 53 := by exact_mod_cast x.mant_lt
  rw [F64.abs_val]
  calc (x.mant : ℚ) * 2 ^ x.expo ≤ x.mant * 2 ^ (-1 : Int) := by
        gcongr
        · norm_num
        · omega
    _ < 2 ^ 53 * 2 ^ (-1 : Int) := by gcongr
    _ = 2 ^ 52 := by norm_num

/-- `floor(x + 1/2)` is the floor of x, or one more where the rest is at least a half. -/
theorem floor_add_half (v : ℚ) :
    ⌊v + 1 / 2⌋ = ⌊v⌋ + (if 1 / 2 ≤ v - ⌊v⌋ then 1 else 0) := by
  have hlo := Int.floor_le v
  have hhi := Int.lt_floor_add_one v
  rw [Int.floor_eq_iff]
  split
  next => push_cast; constructor <;> linarith
  next => push_cast; constructor <;> linarith

/-- `round_half_away` is exact: its integer is the value itself, or at most 2^52 in magnitude. -/
theorem F64.roundHalfAway_exact {x : F64} (hx : x.isFinite = true) :
    x.roundHalfAway.isFinite = true ∧ x.roundHalfAway.val = x.roundHalfInt := by
  rcases lt_or_ge x.expo 0 with h | h
  · obtain ⟨hlo, hhi⟩ := abs_lt.mp (F64.abs_val_lt_of_expo_neg h)
    refine F64.ofInt_exact (abs_le.mpr ?_)
    rw [F64.roundHalfInt_eq]
    constructor
    · rw [Int.le_floor]
      push_cast
      linarith
    · rw [← Int.lt_add_one_iff, Int.floor_lt]
      push_cast
      linarith
  · obtain ⟨n, hn⟩ := F64.exists_int_val h
    have hint : x.roundHalfInt = n := by
      rw [F64.roundHalfInt_eq, hn, Int.floor_intCast_add]
      norm_num
    rw [F64.roundHalfAway, hint]
    exact F64.ofInt_of_val hx hn

/-- `trunc` of a value with the sign is its ceiling. -/
theorem F64.trunc_of_sign_true {x : F64} (h : x.sign = true) : x.trunc = ⌈x.val⌉ := by
  unfold F64.trunc
  rw [F64.val_eq_signed, h, F64.magFloor_eq]
  simp [signed, Int.ceil_neg]

theorem F64.val_nonneg_of_sign_false {x : F64} (h : x.sign = false) : 0 ≤ x.val := by
  rw [F64.val_eq_signed, h]
  simp only [signed, Bool.false_eq_true, if_false, one_mul]
  positivity

theorem F64.val_nonpos_of_sign_true {x : F64} (h : x.sign = true) : x.val ≤ 0 := by
  have := F64.val_nonneg_of_sign_false (x := x.neg) (by rw [F64.neg_sign, h]; rfl)
  rw [F64.neg_val] at this
  linarith

/-- `trunc` is the integer nearest toward zero; the sign of a zero makes no difference. -/
theorem F64.trunc_eq (x : F64) : x.trunc = if 0 ≤ x.val then ⌊x.val⌋ else ⌈x.val⌉ := by
  cases h : x.sign with
  | false => rw [if_pos (F64.val_nonneg_of_sign_false h), F64.trunc_of_sign_false h]
  | true =>
    rw [F64.trunc_of_sign_true h]
    split
    next h0 =>
      rw [le_antisymm (F64.val_nonpos_of_sign_true h) h0, Int.ceil_zero, Int.floor_zero]
    next => rfl

/-- Settles O59, conversion by conversion. -/
theorem conversionsAreThoseOfTheRule : Obligations.ConversionsAreThoseOfTheRule := by
  refine ⟨F64.ofInt_rounded, fun n => F64.ofInt_exact, fun n => (F64.ofInt_natCast n).symm,
    fun x hx => ⟨F64.trunc_eq x, ?_⟩⟩
  rw [← floor_add_half, ← F64.roundHalfInt_eq]
  exact F64.roundHalfAway_exact hx

/-! ## clamp (R19) -/

theorem F64.clamp_eq (v lo hi : F64) :
    v.clamp lo hi = if hi.lt v then hi else if v.lt lo then lo else v := rfl

theorem F64.lt_self (x : F64) : x.lt x = false := by simp [F64.lt]

/-- A value that neither bound excludes is kept. -/
theorem F64.clamp_of_not_lt {v lo hi : F64} (h1 : hi.lt v = false) (h2 : v.lt lo = false) :
    v.clamp lo hi = v := by
  simp [F64.clamp_eq, h1, h2]

/-- Between ordered bounds: a value above `hi` becomes `hi`, one below `lo` becomes `lo`. -/
theorem F64.clamp_between {v lo hi : F64} (hv : v.isNaN = false) (hlo : lo.isNaN = false)
    (hhi : hi.isNaN = false) (hord : hi.lt lo = false) :
    (v.clamp lo hi).isNaN = false ∧ (v.clamp lo hi).lt lo = false ∧
      hi.lt (v.clamp lo hi) = false := by
  rw [F64.clamp_eq]
  split
  next => exact ⟨hhi, hord, F64.lt_self hi⟩
  next h1 =>
    split
    next => exact ⟨hlo, F64.lt_self lo, hord⟩
    next h2 => exact ⟨hv, Bool.eq_false_of_not_eq_true h2, Bool.eq_false_of_not_eq_true h1⟩

/-- Settles O60: the three branches of R19's definition, and comparisons with a NaN are false. -/
theorem clampStaysBetweenItsBounds : Obligations.ClampStaysBetweenItsBounds := by
  intro v lo hi
  refine ⟨fun h => ?_, fun h1 h2 => ?_, F64.clamp_of_not_lt, fun h => ?_, fun hl hh => ?_,
    F64.clamp_between⟩
  · simp [F64.clamp_eq, h]
  · simp [F64.clamp_eq, h1, h2]
  · exact F64.clamp_of_not_lt (F64.lt_feq_of_isNaN (by simp [h])).1
      (F64.lt_feq_of_isNaN (by simp [h])).1
  · exact F64.clamp_of_not_lt (F64.lt_feq_of_isNaN (by simp [hh])).1
      (F64.lt_feq_of_isNaN (by simp [hl])).1

end Sys2Proof
end

section
/-! PROOFS of the statements about the state (10_state.md): what a step keeps of the configuration
and the logs, the shadows and the cache registers, the device image, and the corrections of
CONTROL. -/

namespace Sys2Proof.Machine

/-! ## Configuration and logs (R30 to R33) -/

/-- The configuration, the size of the group, the lists and the schedule of `t` are those of `s`,
and its logs begin with those of `s`. -/
structure State.ContinuedBy (s t : State) : Prop where
  cfg : t.cfg = s.cfg
  n : t.n = s.n
  rtList : t.rtList = s.rtList
  hostList : t.hostList = s.hostList
  schedule : t.schedule = s.schedule
  wlog : s.wlog <+: t.wlog
  diag : s.diag <+: t.diag

theorem State.ContinuedBy.refl (s : State) : s.ContinuedBy s :=
  ⟨rfl, rfl, rfl, rfl, rfl, List.prefix_rfl, List.prefix_rfl⟩

theorem refuse_continuedBy (r : RefuseReason) (s : State) : s.ContinuedBy (s.refuse r) :=
  ⟨rfl, rfl, rfl, rfl, rfl, List.prefix_rfl, List.prefix_rfl⟩

theorem exec_continuedBy {i : Instr} {s t : State} (h : exec i s = .next t) : s.ContinuedBy t := by
  obtain ⟨r, -, rfl⟩ | ⟨-, ⟨-, rfl⟩ | ⟨-, rfl⟩ | ⟨-, rfl⟩ | ⟨ch, c, -, -, rfl⟩⟩ := exec_cases h
  case inl => exact refuse_continuedBy r s
  case inr.inl => constructor <;> simp <;> rfl
  case inr.inr.inl => constructor <;> simp
  case inr.inr.inr.inl => constructor <;> simp <;> rfl
  case inr.inr.inr.inr => constructor <;> simp

/-- What holds before a step, survives a change of the refusal, and holds after every command,
holds after the step. -/
theorem step_keeps {P : State → Prop} {s t : State} (hs : P s) (href : ∀ r, P (s.refuse r))
    (hexec : ∀ i u, exec i s = .next u → P u) (h : step s = .next t) : P t := by
  obtain ⟨-, ⟨-, rfl⟩ | ⟨a, -, rfl | ⟨i, _, -, -, hi⟩⟩⟩ := step_cases h
  · exact hs
  · exact href _
  · exact hexec i t hi

theorem step_continuedBy {s t : State} (h : step s = .next t) : s.ContinuedBy t :=
  step_keeps (.refl s) (fun r => refuse_continuedBy r s) (fun _ _ => exec_continuedBy) h

/-- Settles O21: `ContinuedBy` is what the statement says, and every step keeps to it. -/
theorem configurationIsFixedAndLogsOnlyGrow : Obligations.ConfigurationIsFixedAndLogsOnlyGrow := by
  intro s t h
  obtain ⟨hcfg, hn, hrt, hhost, hsched, hw, hd⟩ := step_continuedBy h
  exact ⟨hcfg, hn, hrt, hhost, hsched, hw, hd⟩

/-! ## Completion and refusal (R31) -/

/-- `exec` answers every command in every state with a next state. -/
theorem exec_next (i : Instr) (s : State) : ∃ t, exec i s = .next t := by
  cases hi : i.chan? with
  | none => cases i <;> first | exact ⟨_, rfl⟩ | cases hi
  | some ch =>
    cases hr : refusalOf s.n i with
    | some r => exact ⟨_, exec_channel_refused hi hr⟩
    | none =>
      obtain ⟨c, hc⟩ := channel_of_not_refused hi hr
      exact ⟨_, exec_channel hi hc hr⟩

/-- Settles O22: a refusal changes `refused` alone, and whatever completes ends with `advance` of
the command's own agent. -/
theorem everyCommandCompletesOrIsRefused : Obligations.EveryCommandCompletesOrIsRefused := by
  intro i s
  obtain ⟨t, h⟩ := exec_next i s
  refine ⟨t, h, ?_⟩
  obtain ⟨r, -, rfl⟩ | ⟨-, ⟨rfl, rfl⟩ | ⟨rfl, rfl⟩ | ⟨rfl, rfl⟩ | ⟨ch, c, -, -, rfl⟩⟩ :=
    exec_cases h
  case inl => exact .inl ⟨r, rfl⟩
  case inr.inr.inr.inr =>
    obtain ⟨hrt, hhost⟩ := afterChan_counters i ch.toNat c s
    exact .inr ⟨afterChan_refused .., hrt, hhost⟩
  all_goals exact .inr ⟨rfl, fun _ => ⟨rfl, rfl⟩, fun ha => by cases ha⟩

/-! ## Shadows, cache registers and the history (R50 to R54) -/

/-- Every record of `t` has the shadows and the cache registers of the record before it. -/
def State.SyncedAs (s t : State) : Prop :=
  ∀ (k : Nat) (c' : Channel), t.channels[k]? = some c' → ∃ c, s.channels[k]? = some c ∧
    ∀ F, c'.shadow F = c.shadow F ∧ c'.cache F = c.cache F

theorem State.SyncedAs.of_channels_eq {s t : State} (h : t.channels = s.channels) : s.SyncedAs t :=
  fun _ c' hc' => ⟨c', h ▸ hc', fun _ => ⟨rfl, rfl⟩⟩

theorem syncedAs_tramRead (s : State) : s.SyncedAs ((tramReadState s).advance .rt) := by
  intro k c' hc'
  rw [State.advance_channels, tramReadState_channels] at hc'
  obtain ⟨c, v, hc, -, rfl⟩ := latchRaw_getElem? hc'
  exact ⟨c, hc, by rintro (⟨_ | _ | _ | _⟩ | _) <;> exact ⟨rfl, rfl⟩⟩

/-- A record after a change of record `k`. -/
theorem set_getElem?_cases {α : Type} {l : List α} {k j : Nat} {d c : α}
    (h : (l.set k d)[j]? = some c) : (j = k ∧ c = d) ∨ (j ≠ k ∧ l[j]? = some c) := by
  rw [List.getElem?_set] at h
  grind

/-- A command on a channel that makes no event and keeps its shadows and cache registers. -/
theorem afterChan_quiet {i : Instr} {s : State} {k : Nat} {c : Channel}
    (hc : s.channels[k]? = some c) (hev : (chanOut s.cfg i k c).events = [])
    (hF : ∀ F, (chanOut s.cfg i k c).chan.shadow F = c.shadow F ∧
      (chanOut s.cfg i k c).chan.cache F = c.cache F) :
    (afterChan i k c s).wlog = s.wlog ∧ s.SyncedAs (afterChan i k c s) := by
  refine ⟨by rw [afterChan_wlog, hev, List.append_nil], fun j c' hc' => ?_⟩
  rw [afterChan_channels] at hc'
  obtain ⟨rfl, rfl⟩ | ⟨-, hj⟩ := set_getElem?_cases hc'
  · exact ⟨c, hc, hF⟩
  · exact ⟨c', hj, fun _ => ⟨rfl, rfl⟩⟩

/-- What a command does to the history, the shadows and the cache registers. -/
theorem exec_sync_cases {i : Instr} {s t : State} (h : exec i s = .next t) :
    (i ≠ .tramWrite ∧ i ≠ .forcedResync ∧ t.wlog = s.wlog ∧ s.SyncedAs t) ∨
    (i = .tramRead ∧ s.SyncedAs t ∧
      t.wlog = s.wlog ++ [.batchRead (batchEntries s.cfg .accumulator (s.answers s.n))]) ∨
    (i = .tramWrite ∧ s.SyncedAs t ∧ t.wlog = s.wlog ++
      [.batchWrite (batchEntries s.cfg .stepRate (s.channels.map Channel.stepRateReg))]) ∨
    (i = .forcedResync ∧ t = (resyncState s).masterEnable.advance .rt) ∨
    ∃ F ch c, i = syncInstr F ch ∧ s.channels[ch.toNat]? = some c ∧
      c.shadow F ≠ some (c.param F) ∧
      t.channels = s.channels.set ch.toNat
        (c.commitField F (transform s.cfg F ch.toNat (c.param F)).param
          (transform s.cfg F ch.toNat (c.param F)).reg) ∧
      t.wlog = s.wlog ++
        [.write (regAddr s.cfg F.kind ch.toNat) (transform s.cfg F ch.toNat (c.param F)).reg] := by
  obtain ⟨r, hr, rfl⟩ | ⟨-, ⟨rfl, rfl⟩ | ⟨rfl, rfl⟩ | ⟨rfl, rfl⟩ | ⟨ch, c, hi, hc, rfl⟩⟩ :=
    exec_cases h
  case inl =>
    refine .inl ⟨?_, ?_, rfl, .of_channels_eq rfl⟩ <;> (rintro rfl; cases hr)
  case inr.inl => exact .inr (.inl ⟨rfl, syncedAs_tramRead s, rfl⟩)
  case inr.inr.inl => exact .inr (.inr (.inl ⟨rfl, .of_channels_eq rfl, rfl⟩))
  case inr.inr.inr.inl => exact .inr (.inr (.inr (.inl ⟨rfl, rfl⟩)))
  case inr.inr.inr.inr =>
    have hne : i ≠ .tramWrite ∧ i ≠ .forcedResync := by
      constructor <;> (rintro rfl; cases hi)
    obtain ⟨F, ch', rfl⟩ | hno := syncInstr_or_not i
    · obtain rfl : ch' = ch := by simpa using hi
      by_cases hd : c.shadow F = some (c.param F)
      · have hout : chanOut s.cfg (syncInstr F ch') ch'.toNat c = ChanOut.of c := by
          rw [chanOut_syncInstr, syncField_clean hd]
        exact .inl ⟨hne.1, hne.2, afterChan_quiet hc (by rw [hout]; rfl)
          (fun G => by rw [hout]; exact ⟨rfl, rfl⟩)⟩
      · refine .inr (.inr (.inr (.inr ⟨F, ch', c, rfl, hc, hd, ?_, ?_⟩)))
        · rw [afterChan_channels, chanOut_syncInstr, syncField_dirty hd, syncField_force]
        · rw [afterChan_wlog, chanOut_syncInstr, syncField_dirty hd, syncField_force]
    · obtain ⟨hev, hF⟩ := chanOut_of_not_sync hno s.cfg ch.toNat c
      exact .inl ⟨hne.1, hne.2, afterChan_quiet hc hev hF⟩

/-- After a command a field's shadow and cache register are as they were, or both are what the
transform of some parameter gives. -/
theorem exec_field {i : Instr} {s t : State} {k : Nat} {c' : Channel} (h : exec i s = .next t)
    (hc' : t.channels[k]? = some c') (F : TimingField) :
    (∃ c, s.channels[k]? = some c ∧ c'.shadow F = c.shadow F ∧ c'.cache F = c.cache F) ∨
    ∃ p, c'.shadow F = some (transform s.cfg F k p).param ∧
      c'.cache F = some (transform s.cfg F k p).reg := by
  have kept (hst : s.SyncedAs t) :
      ∃ c, s.channels[k]? = some c ∧ c'.shadow F = c.shadow F ∧ c'.cache F = c.cache F := by
    obtain ⟨c, hc, hF⟩ := hst k c' hc'
    exact ⟨c, hc, hF F⟩
  obtain ⟨-, -, -, hst⟩ | ⟨-, hst, -⟩ | ⟨-, hst, -⟩ | ⟨-, rfl⟩ | ⟨G, ch, c, -, hc, -, hch, -⟩ :=
    exec_sync_cases h
  · exact .inl (kept hst)
  · exact .inl (kept hst)
  · exact .inl (kept hst)
  · rw [State.advance_channels, State.masterEnable_channels] at hc'
    obtain ⟨c, -, rfl⟩ := resyncState_channel hc'
    exact .inr ⟨c.param F, (resyncChan_field s.cfg k c F).2⟩
  · rw [hch] at hc'
    obtain ⟨rfl, rfl⟩ | ⟨-, hk⟩ := set_getElem?_cases hc'
    · by_cases hFG : F = G
      · subst hFG
        exact .inr ⟨c.param F, c.commitField_shadow F _ _, c.commitField_cache F _ _⟩
      · exact .inl ⟨c, hc, c.commitField_shadow_ne G F _ _ hFG, c.commitField_cache_ne G F _ _ hFG⟩
    · exact .inl ⟨c', hk, rfl, rfl⟩

/-- A property of each field's shadow and cache register that every transform gives is kept by
every step. -/
theorem step_keeps_fields {s t : State} {Q : Nat → TimingField → Option Word → Option Word → Prop}
    (htr : ∀ k F p, Q k F (some (transform s.cfg F k p).param) (some (transform s.cfg F k p).reg))
    (hs : ∀ (k : Nat) (c : Channel) F, s.channels[k]? = some c → Q k F (c.shadow F) (c.cache F))
    (h : step s = .next t) :
    ∀ (k : Nat) (c : Channel) F, t.channels[k]? = some c → Q k F (c.shadow F) (c.cache F) := by
  refine step_keeps (P := fun u => ∀ (k : Nat) (c : Channel) F, u.channels[k]? = some c →
    Q k F (c.shadow F) (c.cache F)) hs (fun _ => hs) (fun i u hi k c' F hc' => ?_) h
  obtain ⟨c, hc, hsh, hca⟩ | ⟨p, hsh, hca⟩ := exec_field hi hc' F
  · rw [hsh, hca]
    exact hs k c F hc
  · rw [hsh, hca]
    exact htr k F p

/-- Settles O15: a transform's register is in range, and shadow and register are written together.
-/
theorem cacheRegistersStayInRange : Obligations.CacheRegistersStayInRange := by
  intro s t hs h c hc F
  obtain ⟨k, hk⟩ := List.mem_iff_getElem?.mp hc
  refine step_keeps_fields (Q := fun _ F shadow cache => shadow.isSome = cache.isSome ∧
    (∀ r ∈ cache, r.toNat ≤ 0x3FFF) ∧ (F = .stepType → ∀ r ∈ cache, r.toNat ≤ 2))
    (fun k F p => ?_) (fun k c F hc => hs c (List.mem_of_getElem? hc) F) h k c F hk
  obtain ⟨hle, hmode⟩ := transform_reg_le s.cfg F k p
  simpa using ⟨hle, hmode⟩

/-! ## The transform of a shadow (R51) -/

/-- Below 5e8 Hz the back-computed parameter of a clamped duration is clamped again. -/
theorem backComputed_clamped {clock p : Nat} (hclock : clock < 500000000)
    (hp : 16383 < (2 * (p * clock) + 10 ^ 9) / (2 * 10 ^ 9)) :
    (2 * (16383 * 10 ^ 9 / clock * clock) + 10 ^ 9) / (2 * 10 ^ 9) = 16383 := by
  have hpos : 0 < clock := by
    rcases Nat.eq_zero_or_pos clock with rfl | h0
    · simp at hp
    · exact h0
  have hdiv := Nat.div_add_mod (16383 * 10 ^ 9) clock
  have hmod := Nat.mod_lt (16383 * 10 ^ 9) hpos
  rw [Nat.mul_comm] at hdiv
  omega

/-- The back-computed parameter of a clamped duration is at most the parameter. -/
theorem backComputed_le {clock p : Nat}
    (hp : 16383 < (2 * (p * clock) + 10 ^ 9) / (2 * 10 ^ 9)) : 16383 * 10 ^ 9 / clock ≤ p := by
  refine Nat.div_le_of_le_mul ?_
  rw [Nat.mul_comm clock]
  omega

/-- Below 5e8 Hz the parameter that a transform leaves has that transform's register. -/
theorem exactTiming_again {clock : Nat} (hclock : clock < 500000000) (F : TimingField) (p : Nat) :
    (exactTiming clock F p).1 ≤ p ∧
      (exactTiming clock F (exactTiming clock F p).1).2 = (exactTiming clock F p).2 := by
  cases F with
  | dur f =>
    by_cases hp : (2 * (p * clock) + 10 ^ 9) / (2 * 10 ^ 9) ≤ 16383
    · simp only [exactTiming, if_pos hp, le_refl, true_and]
    · have hp := not_le.mp hp
      simp only [exactTiming, if_neg (not_le.mpr hp), backComputed_clamped hclock hp, le_refl,
        if_true, backComputed_le hp, true_and]
  | stepType =>
    by_cases hp : p ≤ 2
    · simp [exactTiming, hp]
    · simp [exactTiming, hp]

theorem transform_again {cfg : GroupConfig} (hclock : cfg.clockHz.toNat < 500000000)
    (F : TimingField) (i : Nat) (p : Word) :
    (transform cfg F i (transform cfg F i p).param).reg = (transform cfg F i p).reg := by
  obtain ⟨hle, hreg⟩ := exactTiming_again hclock F p.toNat
  obtain ⟨hp1, hp2, -⟩ := transform_eq cfg F i p
  obtain ⟨-, hq2, -⟩ := transform_eq cfg F i (transform cfg F i p).param
  rw [hq2, hp2, hp1, BitVec.toNat_ofNat, Nat.mod_eq_of_lt (lt_of_le_of_lt hle p.isLt), hreg]

/-- Settles O19: a sync leaves the register of its parameter's transform, which is that of the
parameter it leaves in the shadow. -/
theorem registersStayTheTransformOfTheirShadow :
    Obligations.RegistersStayTheTransformOfTheirShadow := by
  intro s t hclock hs h k c F hc
  show shadowHolds t.cfg F k c
  rw [(step_continuedBy h).cfg]
  refine step_keeps_fields (Q := fun k F shadow cache => ∀ p ∈ shadow,
    cache = some (transform s.cfg F k p).reg) (fun k F p => ?_) hs h k c F hc
  simpa using (transform_again hclock F k p).symm

/-! ## The device register image (R57) -/

/-- The events of FORCED_RESYNC on the channels: one write for each field of each. -/
theorem mem_resyncEvents {cfg : GroupConfig} {cs : List Channel} {e : Event} :
    e ∈ (resyncFrom cfg 0 cs).flatMap ChanOut.events ↔
      ∃ (k : Nat) (c : Channel) (F : TimingField), cs[k]? = some c ∧
        e = .write (regAddr cfg F.kind k) (transform cfg F k (c.param F)).reg := by
  simp only [resyncFrom_flatMap, List.mem_flatMap, Prod.exists, List.mem_zipIdx_iff_getElem?,
    resyncChan_events, List.mem_map]
  constructor
  · rintro ⟨c, k, hc, F, -, rfl⟩
    exact ⟨k, c, F, hc, rfl⟩
  · rintro ⟨k, c, F, hc, rfl⟩
    exact ⟨c, k, hc, F, F.mem_all, rfl⟩

theorem devReg_emit_write (l : List Event) (a b : Nat) (v : Word) :
    devReg (l ++ [.write b v]) a = if b = a then some v else devReg l a := by
  simp [devReg_append, lastWrite, writesOf, Event.writes]

/-- No two timing fields share a register. -/
theorem timingAddr_inj {cfg : GroupConfig} {n : Nat} (hroom : 4 * n ≤ cfg.stride.toNat)
    {F G : TimingField} {j k : Nat} (hj : j < n) (hk : k < n)
    (h : regAddr cfg F.kind j = regAddr cfg G.kind k) : F = G ∧ j = k :=
  (regAddr_inj hroom hj hk h).imp_left TimingField.kind_inj

/-- After FORCED_RESYNC the image holds each field's new cache register, whatever it held before.
-/
theorem devReg_forcedResync {s : State} (hcfg : s.configOk) {k : Nat} {c : Channel}
    (hc : s.channels[k]? = some c) (F : TimingField) :
    devReg (resyncState s).masterEnable.wlog (regAddr s.cfg F.kind k) =
      some (transform s.cfg F k (c.param F)).reg := by
  obtain ⟨hn, -, -, -, -, hroom, -⟩ := hcfg
  have hk := State.lt_n hc
  have hme : masterEnableAddr s.cfg ≠ regAddr s.cfg F.kind k := fun h =>
    F.kind_ne_masterEnable (regAddr_inj hroom hn hk h).1.symm
  rw [State.masterEnable_wlog, devReg_emit_write, resyncState_cfg, if_neg hme, resyncState_wlog,
    devReg_append]
  have hmem := writesOf_resync_mem (cfg := s.cfg) (b := 0) hc F
  rw [Nat.zero_add] at hmem
  refine lastWrite_of_unique hmem (fun w hw => ?_) _
  obtain ⟨j, d, G, hd, heq⟩ := mem_writesOf_resync hw
  rw [Nat.zero_add, Prod.mk.injEq] at heq
  obtain ⟨haddr, rfl⟩ := heq
  obtain ⟨rfl, rfl⟩ := timingAddr_inj hroom hk (State.lt_n hd) haddr
  obtain rfl : c = d := Option.some.inj (hc.symm.trans hd)
  rfl

/-- After FORCED_RESYNC every cache register is the device image. -/
theorem forcedResync_deviceInv {s : State} (hcfg : s.configOk) :
    (((resyncState s).masterEnable).advance .rt).deviceInv := by
  intro k c' F hc'
  rw [State.advance_channels, State.masterEnable_channels] at hc'
  obtain ⟨c, hc, rfl⟩ := resyncState_channel hc'
  rw [State.advance_wlog, State.advance_cfg, State.masterEnable_cfg, resyncState_cfg,
    devReg_forcedResync hcfg hc, (resyncChan_field s.cfg k c F).2.2]

/-- Settles O54: the channels' writes go to distinct registers, and the master enable's comes
last. -/
theorem forcedResyncReachesTheDevice : Obligations.ForcedResyncReachesTheDevice := by
  intro s t hcfg h
  obtain rfl : (resyncState s).masterEnable.advance .rt = t := Host.Outcome.next.inj h
  refine ⟨forcedResync_deviceInv hcfg, ?_, ?_⟩
  · simp [State.resynced]
  · rw [State.advance_wlog, State.masterEnable_wlog, devReg_emit_write, resyncState_cfg,
      if_pos (by simp [masterEnableAddr, regAddr, Kind.num])]
    rfl

/-- A batch on the step-rate registers leaves the image of every timing register. -/
theorem devReg_stepRate_batch {s : State} (hcfg : s.configOk) {k : Nat} (hk : k < s.n)
    (F : TimingField) (l : List Event) :
    devReg (l ++ [.batchWrite
      (batchEntries s.cfg .stepRate (s.channels.map Channel.stepRateReg))])
      (regAddr s.cfg F.kind k) = devReg l (regAddr s.cfg F.kind k) := by
  obtain ⟨-, -, -, -, -, hroom, -⟩ := hcfg
  refine devReg_append_other (fun x hx ha => ?_) l
  have hx := List.mem_map_of_mem (f := Prod.fst) (show x ∈ batchEntries s.cfg .stepRate
    (s.channels.map Channel.stepRateReg) by simpa [writesOf, Event.writes] using hx)
  rw [batchEntries_addrs, List.length_map] at hx
  obtain ⟨j, hj, hjx⟩ := List.mem_map.mp hx
  exact F.kind_ne_stepRate (regAddr_inj hroom (List.mem_range.mp hj) hk (hjx.trans ha)).1.symm

/-- A history with the same image of every timing register, and records with the same cache
registers, keep the device invariant. -/
theorem State.deviceInv.of_syncedAs {s t : State} (hs : s.deviceInv) (hcfg : t.cfg = s.cfg)
    (hst : s.SyncedAs t)
    (hdev : ∀ k (F : TimingField), k < s.n →
      devReg t.wlog (regAddr s.cfg F.kind k) = devReg s.wlog (regAddr s.cfg F.kind k)) :
    t.deviceInv := by
  intro k c' F hc'
  obtain ⟨c, hc, hF⟩ := hst k c' hc'
  rw [hcfg, hdev k F (State.lt_n hc), hs k c F hc, (hF F).2]

/-- A commit of one field and the write of its cache register keep the device invariant. -/
theorem State.deviceInv.of_commit {s t : State} (hs : s.deviceInv) (hcfg : s.configOk)
    (hc : t.cfg = s.cfg) {k : Nat} {c : Channel} {F : TimingField} {p r : Word}
    (hk : s.channels[k]? = some c) (hset : t.channels = s.channels.set k (c.commitField F p r))
    (hw : t.wlog = s.wlog ++ [.write (regAddr s.cfg F.kind k) r]) : t.deviceInv := by
  obtain ⟨-, -, -, -, -, hroom, -⟩ := hcfg
  intro j c' G hj
  rw [hset] at hj
  rw [hc, hw, devReg_emit_write]
  obtain ⟨rfl, rfl⟩ | ⟨hne, hj⟩ := set_getElem?_cases hj
  · by_cases hGF : G = F
    · subst hGF
      rw [if_pos rfl, Channel.commitField_cache]
    · rw [if_neg fun ha => hGF (timingAddr_inj hroom (State.lt_n hk) (State.lt_n hk) ha).1.symm,
        hs j c G hk, c.commitField_cache_ne F G p r hGF]
  · rw [if_neg fun ha => hne (timingAddr_inj hroom (State.lt_n hk) (State.lt_n hj) ha).2.symm,
      hs j c' G hj]

/-- Every command keeps the device invariant. -/
theorem exec_keeps_deviceInv {i : Instr} {s t : State} (hcfg : s.configOk) (hs : s.deviceInv)
    (h : exec i s = .next t) : t.deviceInv := by
  have hc := (exec_continuedBy h).cfg
  obtain ⟨-, -, hw, hst⟩ | ⟨-, hst, hw⟩ | ⟨-, hst, hw⟩ | ⟨-, rfl⟩ |
    ⟨F, ch, c, -, hch, -, hset, hw⟩ := exec_sync_cases h
  · exact hs.of_syncedAs hc hst (fun k F _ => by rw [hw])
  · refine hs.of_syncedAs hc hst (fun k F _ => ?_)
    rw [hw, devReg_append_other (by simp [writesOf, Event.writes])]
  · refine hs.of_syncedAs hc hst (fun k F hk => ?_)
    rw [hw, devReg_stepRate_batch hcfg hk]
  · exact forcedResync_deviceInv hcfg
  · exact hs.of_commit hcfg hc hch hset hw

/-- Settles O18: a sync writes its own register and no other field's, a batch none. -/
theorem cacheStaysTheDeviceImage : Obligations.CacheStaysTheDeviceImage := by
  intro s t hcfg hs h
  exact step_keeps hs (fun _ => hs) (fun _ _ => exec_keeps_deviceInv hcfg hs) h

/-- Settles O47: the batch names each step-rate register once, with the channel's value. -/
theorem tramWriteShipsEveryRegister : Obligations.TramWriteShipsEveryRegister := by
  intro s
  have haddr (j : Nat) : regAddr s.cfg .stepRate j = s.cfg.base.toNat + 4 * j := by
    simp [regAddr, Kind.num]
  have hbatch : batchEntries s.cfg .stepRate (s.channels.map Channel.stepRateReg) =
      (List.range s.n).map (fun j => (s.cfg.base.toNat + 4 * j,
        (s.channels.map Channel.stepRateReg).getD j 0#32)) := by
    simp only [batchEntries_eq, List.length_map, haddr, State.n]
  refine ⟨s.channels.map Channel.stepRateReg, by simp [State.n], fun j c hc => by simp [hc],
    fun t h j hj => ?_, ?_⟩
  · obtain rfl := Host.Outcome.next.inj h
    have hget : (s.channels.map Channel.stepRateReg)[j]? =
        some ((s.channels.map Channel.stepRateReg).getD j 0#32) := by
      rw [List.getD_eq_getElem?_getD, List.getElem?_eq_getElem (by simpa [State.n] using hj)]
      rfl
    rw [State.advance_wlog, State.emit_wlog, devReg_append, hbatch, hget]
    simp only [writesOf, List.flatMap_singleton, Event.writes]
    refine lastWrite_of_unique (List.mem_map.mpr ⟨j, List.mem_range.mpr hj, rfl⟩)
      (fun w hw => ?_) _
    obtain ⟨k, -, hk⟩ := List.mem_map.mp hw
    obtain ⟨hkj, rfl⟩ := Prod.mk.inj hk
    rw [show k = j by omega]
  · rw [← hbatch]
    rfl

/-! ## Which registers a command writes (R52) -/

/-- Settles O29: each way in which a command can add to the history names the registers it writes.
-/
theorem writesComeOnlyFromDirtyFields : Obligations.WritesComeOnlyFromDirtyFields := by
  intro i s t h
  obtain ⟨hnw, hnr, hw, -⟩ | ⟨rfl, -, hw⟩ | ⟨rfl, -, hw⟩ | ⟨rfl, rfl⟩ |
    ⟨F, ch, c, rfl, hch, hd, -, hw⟩ := exec_sync_cases h
  · rw [hw, List.drop_length]
    exact ⟨by simp, fun hi => absurd hi hnr, fun hi => absurd hi hnw⟩
  · rw [hw, List.drop_left]
    refine ⟨fun e he => ?_, nofun, nofun⟩
    obtain rfl := List.mem_singleton.mp he
    exact ⟨rfl, by simp⟩
  · rw [hw, List.drop_left]
    refine ⟨fun e he => ?_, nofun, fun _ => ⟨_, List.mem_singleton_self _⟩⟩
    obtain rfl := List.mem_singleton.mp he
    exact ⟨rfl, by simp [State.n]⟩
  · rw [State.advance_wlog, State.masterEnable_wlog, resyncState_wlog, resyncState_cfg,
      List.append_assoc, List.drop_left]
    refine ⟨fun e he => ?_, fun _ F j hj => ?_, nofun⟩
    · obtain he | he := List.mem_append.mp he
      · obtain ⟨k, c, F, hc, rfl⟩ := mem_resyncEvents.mp he
        exact .inl ⟨rfl, .inr ⟨F, k, State.lt_n hc, rfl⟩⟩
      · obtain rfl := List.mem_singleton.mp he
        exact .inl ⟨rfl, .inl rfl⟩
    · exact ⟨_, List.mem_append_left _
        (mem_resyncEvents.mpr ⟨j, s.channels[j], F, List.getElem?_eq_getElem hj, rfl⟩)⟩
  · rw [hw, List.drop_left]
    refine ⟨fun e he => ?_, fun hi => ?_, fun hi => ?_⟩
    · obtain rfl := List.mem_singleton.mp he
      exact .inr ⟨F, ch, c, rfl, rfl, hch, hd⟩
    · rcases F with ⟨_ | _ | _ | _⟩ | _ <;> cases hi
    · rcases F with ⟨_ | _ | _ | _⟩ | _ <;> cases hi

/-! ## Device bytes (R57, 20_memory.md R87) -/

theorem storedAt_syncInstr (F : TimingField) (ch : ChanIdx) (s : State) :
    storedAt (syncInstr F ch) s = [regAddr s.cfg F.kind ch.toNat] := by
  rcases F with ⟨_ | _ | _ | _⟩ | _ <;> rfl

/-- Every register a command writes is one that `storedAt` names, and an aligned one. -/
theorem exec_writes {i : Instr} {s t : State} (hb : s.cfg.base.toNat % 4 = 0)
    (hstr : s.cfg.stride.toNat % 4 = 0) (h : exec i s = .next t) :
    ∃ evs, t.wlog = s.wlog ++ evs ∧ ∀ x ∈ writesOf evs, x.1 ∈ storedAt i s ∧ x.1 % 4 = 0 := by
  have aligned (k : Kind) (j : Nat) : regAddr s.cfg k j % 4 = 0 := regAddr_mod_four hb hstr k j
  obtain ⟨-, -, hw, -⟩ | ⟨-, -, hw⟩ | ⟨rfl, -, hw⟩ | ⟨rfl, rfl⟩ | ⟨F, ch, c, rfl, -, -, -, hw⟩ :=
    exec_sync_cases h
  · exact ⟨[], by rw [hw, List.append_nil], nofun⟩
  · exact ⟨_, hw, by simp [writesOf, Event.writes]⟩
  · refine ⟨_, hw, fun x hx => ?_⟩
    have hx' : x.1 ∈ storedAt .tramWrite s := by
      have hx := List.mem_map_of_mem (f := Prod.fst) hx
      simpa [writesOf, Event.writes, storedAt, State.n] using hx
    obtain ⟨j, -, hj⟩ := List.mem_map.mp hx'
    exact ⟨hx', hj ▸ aligned .stepRate j⟩
  · refine ⟨_, by rw [State.advance_wlog, State.masterEnable_wlog, resyncState_wlog,
      resyncState_cfg, List.append_assoc], fun x hx => ?_⟩
    rw [writesOf_append] at hx
    obtain hx | hx := List.mem_append.mp hx
    · obtain ⟨k, c, F, hc, rfl⟩ := mem_writesOf_resync hx
      rw [Nat.zero_add]
      refine ⟨List.mem_cons_of_mem _ (List.mem_flatMap.mpr ⟨k, ?_, ?_⟩), aligned _ _⟩
      · exact List.mem_range.mpr (State.lt_n hc)
      · exact List.mem_map.mpr ⟨F, F.mem_all, rfl⟩
    · obtain rfl : x = (masterEnableAddr s.cfg, masterEnableValue) := by
        simpa [writesOf, Event.writes] using hx
      exact ⟨List.mem_cons_self .., aligned _ _⟩
  · refine ⟨_, hw, fun x hx => ?_⟩
    obtain ⟨a, v⟩ := x
    obtain ⟨rfl, -⟩ : a = regAddr s.cfg F.kind ch.toNat ∧ _ := by
      simpa [writesOf, Event.writes] using hx
    rw [storedAt_syncInstr]
    exact ⟨List.mem_singleton_self _, aligned _ _⟩

/-- Settles O30: a byte outside the stored registers belongs to a register that is not written. -/
theorem otherDeviceBytesAreUnchanged : Obligations.OtherDeviceBytesAreUnchanged := by
  intro i s t hb hstr h a ha
  obtain ⟨evs, hw, hevs⟩ := exec_writes hb hstr h
  have hreg : devReg t.wlog (a / 4 * 4) = devReg s.wlog (a / 4 * 4) := by
    rw [hw]
    refine devReg_append_other (fun x hx he => ?_) _
    obtain ⟨hmem, hal⟩ := hevs x hx
    have := ha x.1 hmem
    omega
  rw [devByte, devByte, hreg]

/-! ## Scale and limits (R42, R43) -/

/-- The scale that the check leaves is not near zero. -/
theorem fixScale_not_near (k : Nat) (c : Channel) :
    (fixScale k c).1.positionScale.abs.lt F64.micro = false := by
  rw [fixScale_eq]
  dsimp only
  split
  next =>
    split
    · decide
    · decide
  next hnear => exact Bool.eq_false_of_not_eq_true hnear

theorem decodeChan_scale (k : Nat) (c : Channel) :
    (decodeChan k c).chan.positionScale = (fixScale k c).1.positionScale := rfl

theorem encodeEnabled_scale (cfg : GroupConfig) (k : Nat) (c : Channel) :
    (encodeEnabled cfg k c).chan.positionScale = (fixScale k c).1.positionScale := by
  simp only [encodeEnabled, writeRate]

theorem postProcess_scale (k : Nat) (v : F64) (c : Channel) :
    (postProcess k v c).1.positionScale = (fixScale k c).1.positionScale := by
  simp only [postProcess, setVelocity, maxvelChecks, maxvelSign_eq, maxvelLimit_eq]

/-- After an unrefused command on a channel its record is what the command leaves of it. -/
theorem exec_chan_record_eq {i : Instr} {ch : ChanIdx} {s t : State} {c c' : Channel}
    (hi : i.chan? = some ch) (h : exec i s = .next t) (href : t.refused = none)
    (hc : s.channels[ch.toNat]? = some c) (hc' : t.channels[ch.toNat]? = some c') :
    c' = (chanOut s.cfg i ch.toNat c).chan := by
  obtain ⟨r, rfl⟩ | ⟨d, hd, rfl⟩ := exec_chan_cases hi h
  · cases href
  · obtain rfl : c = d := Option.some.inj (hc.symm.trans hd)
    rw [afterChan_channels, List.getElem?_set_self (State.lt_n hc)] at hc'
    exact (Option.some.inj hc').symm

/-- Settles O38: the three commands leave the scale of their check. -/
theorem noNearZeroScaleIsLeft : Obligations.NoNearZeroScaleIsLeft := by
  intro i ch s t c c' hi hop h href hc hc'
  obtain rfl := exec_chan_record_eq hi h href hc hc'
  obtain hop | ⟨hen, hop | hop⟩ := hop
  case inl =>
    cases i <;> cases hop
    simp only [chanOut, decodeChan_scale, fixScale_not_near]
  case inr.inl =>
    cases i <;> cases hop
    simp only [chanOut, controlChan, hen, if_true, controlEnabled, postProcess_scale,
      fixScale_not_near]
  case inr.inr =>
    cases i <;> cases hop
    simp only [chanOut, encodeChan, hen, if_true, encodeEnabled_scale, fixScale_not_near]

/-- A value without the sign is not below 0. -/
theorem lt_zeroLit_of_sign_false {x : F64} (h : x.sign = false) : x.lt F64.zeroLit = false := by
  have hkey : ¬ x.key < 0 := by simp [F64.key, h]
  simp [F64.lt, F64.zeroLit_key, hkey]

/-- What a check that takes the magnitude of a negative value leaves is not below 0. -/
theorem abs_if_negative (x : F64) :
    (if x.lt F64.zeroLit then x.abs else x).lt F64.zeroLit = false := by
  split
  next => exact lt_zeroLit_of_sign_false rfl
  next h => exact Bool.eq_false_of_not_eq_true h

/-- A quotient of two values without the sign is not below 0. -/
theorem div_sign_false {x y : F64} (hx : x.sign = false) (hy : y.sign = false) :
    (x.div y).isNaN = true ∨ (x.div y).sign = false := by
  unfold F64.div
  rw [hx, hy]
  dsimp only
  split_ifs
  · exact .inl (F64.nanOf_isNaN ..)
  · exact .inl (F64.nanOf_isNaN ..)
  all_goals exact .inr rfl

/-- The physical limit is not below 0 (41_controller.md R168). -/
theorem physLimit_not_neg (c : Channel) : (physLimit c).lt F64.zeroLit = false := by
  unfold physLimit
  obtain hn | hs := div_sign_false (x := F64.giga)
    (y := F64.ofNat (c.steplen.toNat + c.stepspace.toNat)) rfl rfl
  · exact (F64.lt_feq_of_isNaN
      (by rw [(F64.ops_isNaN (by rw [hn]; rfl)).2.2.2]; rfl)).1
  · obtain hn | hs := div_sign_false hs (y := c.positionScale.abs) rfl
    · exact (F64.lt_feq_of_isNaN (by rw [hn]; rfl)).1
    · exact lt_zeroLit_of_sign_false hs

/-- A limit that is not negative and is put under `phys` (41_controller.md R169). -/
theorem limited_maxvel {m phys : F64} (hm : m.lt F64.zeroLit = false)
    (hphys : phys.lt F64.zeroLit = false) :
    F64.lt (if m.gt phys then phys else m) F64.zeroLit = false ∧
      phys.lt (if m.gt phys then phys else m) = false := by
  split
  next => exact ⟨hphys, F64.lt_self phys⟩
  next hle => exact ⟨hm, Bool.eq_false_of_not_eq_true hle⟩

/-- Post-processing leaves no negative maxvel, and none above the physical limit of the record
that it leaves (41_controller.md R168, R169). -/
theorem postProcess_maxvel (k : Nat) (v : F64) (c : Channel) :
    (postProcess k v c).1.maxvel.lt F64.zeroLit = false ∧
      (physLimit (postProcess k v c).1).lt (postProcess k v c).1.maxvel = false := by
  have hval : (postProcess k v c).1.maxvel =
      (if F64.gt (if c.maxvel.lt F64.zeroLit then c.maxvel.abs else c.maxvel)
        (physLimit (postProcess k v c).1) then physLimit (postProcess k v c).1
        else if c.maxvel.lt F64.zeroLit then c.maxvel.abs else c.maxvel) := by
    simp only [postProcess, setVelocity, maxvelChecks, maxvelSign_eq, maxvelLimit_eq, fixScale_eq,
      physLimit]
  rw [hval]
  exact limited_maxvel (abs_if_negative _) (physLimit_not_neg _)

theorem postProcess_maxaccel (k : Nat) (v : F64) (c : Channel) :
    (postProcess k v c).1.maxaccel = c.maxaccel := by
  simp only [postProcess, setVelocity, maxvelChecks, maxvelSign_eq, maxvelLimit_eq, fixScale_eq]

theorem modeWrites_maxaccel (c : Channel) (T : F64) : (modeWrites c T).maxaccel = c.maxaccel := by
  obtain ⟨_, _, _, _, _, _, hm⟩ := modeWrites_frame c T
  rw [hm]

/-- CONTROL leaves no negative maxaccel (41_controller.md R151). -/
theorem controlEnabled_maxaccel (T : F64) (k : Nat) (c : Channel) :
    (controlEnabled T k c).chan.maxaccel.lt F64.zeroLit = false := by
  simp only [controlEnabled, postProcess_maxaccel, modeWrites_maxaccel, maxaccelCheck_eq,
    abs_if_negative]

/-- The effective limit is the physical one or a maxvel that is not above it
(41_controller.md R170). -/
theorem effLimit_le {maxvel phys : F64} (h : phys.lt maxvel = false) :
    phys.lt (effLimit maxvel phys) = false := by
  unfold effLimit
  split
  · exact h
  · exact F64.lt_self phys

/-- Settles O44: a negative limit has become its magnitude, and one above the physical limit that
limit. -/
theorem limitsAreCorrectedByControl : Obligations.LimitsAreCorrectedByControl := by
  intro s t ch c c' T hc hen h href hc'
  obtain rfl := exec_chan_record_eq rfl h href hc hc'
  have hchan : (chanOut s.cfg (.control ch T) ch.toNat c).chan =
      (controlEnabled T ch.toNat c).chan := by simp only [chanOut, controlChan, hen, if_true]
  rw [hchan]
  have hmax : (controlEnabled T ch.toNat c).chan.maxvel.lt F64.zeroLit = false ∧
      (physLimit (controlEnabled T ch.toNat c).chan).lt
        (controlEnabled T ch.toNat c).chan.maxvel = false := postProcess_maxvel ..
  exact ⟨hmax.1, controlEnabled_maxaccel .., effLimit_le hmax.2⟩

/-! ## Clean fields (R56) -/

/-- Settles O52: the RT commands write no parameter or shadow (O28's frames), but for the syncs,
which write both of a field at once. -/
theorem rtCommandsKeepCleanFieldsClean : Obligations.RtCommandsKeepCleanFieldsClean := by
  intro i s t k c c' F hrt h hc hc' hclean
  obtain ⟨htr, hdec, hctl, henc, htw, hsync, -⟩ :=
    fieldsHaveTheWritersOfTheTable i s t k c c' h hc hc'
  have synced (G : TimingField) (hc' : c' = c ∨ ∃ p r, c' = c.commitField G p r) :
      c'.shadow F = some (c'.param F) := by
    obtain rfl | ⟨p, r, rfl⟩ := hc'
    · exact hclean
    · by_cases hFG : F = G
      · subst hFG
        rw [Channel.commitField_shadow, Channel.commitField_param]
      · rw [c.commitField_shadow_ne G F p r hFG, c.commitField_param_ne G F p r hFG, hclean]
  cases i
  case tramRead =>
    rw [htr rfl]
    rcases F with ⟨_ | _ | _ | _⟩ | _ <;> exact hclean
  case decode ch =>
    rw [hdec rfl]
    rcases F with ⟨_ | _ | _ | _⟩ | _ <;> exact hclean
  case control ch T =>
    rw [hctl rfl]
    rcases F with ⟨_ | _ | _ | _⟩ | _ <;> exact hclean
  case encode ch =>
    rw [henc rfl]
    rcases F with ⟨_ | _ | _ | _⟩ | _ <;> exact hclean
  case tramWrite => rwa [htw rfl]
  case syncDirsetup ch => exact synced _ (hsync (.dur .dirsetup) ch rfl)
  case syncDirhold ch => exact synced _ (hsync (.dur .dirhold) ch rfl)
  case syncSteplen ch => exact synced _ (hsync (.dur .steplen) ch rfl)
  case syncStepspace ch => exact synced _ (hsync (.dur .stepspace) ch rfl)
  case syncSteptype ch => exact synced _ (hsync .stepType ch rfl)
  case forcedResync =>
    obtain rfl := forcedResync_record h hc hc'
    obtain ⟨hp, hsh, -⟩ := resyncChan_field s.cfg k c F
    rw [hp, hsh]
  all_goals cases hrt

/-! ## Creation (R290 to R295), and a clock at which a clamp breaks R51 -/

/-- A created channel's shadows and cache registers are unwritten (R292). -/
theorem initial_unwritten (c : ChannelInit) (F : TimingField) :
    (Channel.initial c).shadow F = none ∧ (Channel.initial c).cache F = none := by
  rcases F with ⟨_ | _ | _ | _⟩ | _ <;> exact ⟨rfl, rfl⟩

theorem fresh_unwritten {cfg : GroupConfig} {init : List ChannelInit} {c : Channel}
    (hc : c ∈ (State.fresh cfg init).channels) (F : TimingField) :
    c.shadow F = none ∧ c.cache F = none := by
  obtain ⟨c0, -, rfl⟩ := List.mem_map.mp hc
  exact initial_unwritten c0 F

/-- Settles O14: nothing is written yet, neither shadow, cache register nor history. -/
theorem createdGroupMeetsTheInvariants : Obligations.CreatedGroupMeetsTheInvariants := by
  intro cfg init t h
  unfold State.create at h
  split at h
  case isFalse => cases h
  case isTrue hok =>
    obtain rfl := Host.Outcome.next.inj h
    refine ⟨by simpa [State.configOk, State.n, State.fresh] using hok, fun c hc F => ?_, nofun,
      nofun, fun k c F hc => ?_, fun k c F hc => ?_, fun _ => rfl⟩
    · obtain ⟨hsh, hca⟩ := fresh_unwritten hc F
      simp [hsh, hca]
    · exact (fresh_unwritten (List.mem_of_getElem? hc) F).2.symm
    · simp [shadowHolds, (fresh_unwritten (List.mem_of_getElem? hc) F).1]

/-- At 2e9 Hz a duration of at least 8192 ns is clamped, with 8191 for its parameter. -/
theorem exactTiming_clamped_at_2e9 {p : Nat} (hp : 8192 ≤ p) (f : DurField) :
    exactTiming 2000000000 (.dur f) p = (8191, 16383) := by
  have hlarge : ¬ (2 * (p * 2000000000) + 10 ^ 9) / (2 * 10 ^ 9) ≤ 16383 := by omega
  simp only [exactTiming, if_neg hlarge]
  rfl

/-- Settles O20: the dirty field is clamped to 8191 ns, which at this clock is 16382 periods. -/
theorem shadowInvariantFailsAtAHighClock : Obligations.ShadowInvariantFailsAtAHighClock := by
  intro s ch c f hclock hc hd hp
  have hC : s.cfg.clockHz.toNat = 2000000000 := by rw [hclock]; rfl
  obtain ⟨hpar, hreg, -⟩ := transform_eq s.cfg (.dur f) ch.toNat (c.param (.dur f))
  rw [hC, exactTiming_clamped_at_2e9 hp] at hpar hreg
  have hagain : (transform s.cfg (.dur f) ch.toNat 8191#32).reg = 16382#32 := by
    rw [(transform_eq s.cfg (.dur f) ch.toNat 8191#32).2.1, hC]
    rfl
  have hexec := exec_syncInstr (.dur f) ch s
  rw [syncCommand, chanCommand_some hc, syncField_dirty hd, syncField_force, hpar, hreg] at hexec
  refine ⟨_, _, hexec, by
    rw [State.advance_channels, State.commit_channels, List.getElem?_set_self (State.lt_n hc)],
    Channel.commitField_shadow .., Channel.commitField_cache .., ?_, fun hsh => ?_⟩
  · rw [State.advance_cfg, State.commit_cfg, hagain]
  · have := hsh _ (Channel.commitField_shadow ..)
    rw [State.advance_cfg, State.commit_cfg, Channel.commitField_cache] at this
    rw [show BitVec.ofNat 32 8191 = 8191#32 from rfl, hagain] at this
    exact absurd this (by decide)

end Sys2Proof.Machine
end

section
/-! PROOFS of the statements about memory (20_memory.md): every transport event is an access of the
register map, and TRAM_READ latches the accumulators. -/

namespace Sys2Proof.Machine

/-! ## The history (R83, R90) -/

/-- A sync of a field of a channel of the group writes what the field's register may hold. -/
theorem eventOk_transform {n k : Nat} (cfg : GroupConfig) (F : TimingField) (hk : k < n) (p : Word) :
    eventOk cfg n (.write (regAddr cfg F.kind k) (transform cfg F k p).reg) :=
  .inr ⟨F, k, hk, rfl, transform_reg_le cfg F k p⟩

/-- A batch read of one answer for each of `n` channels is an access of the accumulators. -/
theorem eventOk_batchRead (cfg : GroupConfig) {n : Nat} {vs : List Word} (h : vs.length = n) :
    eventOk cfg n (.batchRead (batchEntries cfg .accumulator vs)) := by
  subst h
  exact batchEntries_addrs ..

/-- A batch write of one value for each of `n` channels is an access of the step-rate registers. -/
theorem eventOk_batchWrite (cfg : GroupConfig) {n : Nat} {vs : List Word} (h : vs.length = n) :
    eventOk cfg n (.batchWrite (batchEntries cfg .stepRate vs)) := by
  subst h
  exact batchEntries_addrs ..

/-- The events a command appends to the history are accesses of the register map. -/
theorem exec_appends_eventOk {i : Instr} {s t : State} (h : exec i s = .next t) :
    ∃ evs, t.wlog = s.wlog ++ evs ∧ ∀ e ∈ evs, eventOk s.cfg s.n e := by
  obtain ⟨-, -, hw, -⟩ | ⟨-, -, hw⟩ | ⟨-, -, hw⟩ | ⟨-, rfl⟩ | ⟨F, ch, c, -, hc, -, -, hw⟩ :=
    exec_sync_cases h
  case inl => exact ⟨[], by rw [hw, List.append_nil], nofun⟩
  case inr.inl =>
    exact ⟨_, hw, List.forall_mem_singleton.mpr
      (eventOk_batchRead s.cfg (State.answers_length s.n s))⟩
  case inr.inr.inl =>
    exact ⟨_, hw, List.forall_mem_singleton.mpr (eventOk_batchWrite s.cfg (List.length_map _))⟩
  case inr.inr.inr.inl =>
    refine ⟨(resyncFrom s.cfg 0 s.channels).flatMap ChanOut.events ++
      [.write (masterEnableAddr s.cfg) masterEnableValue], by simp, fun e he => ?_⟩
    obtain he | he := List.mem_append.mp he
    · obtain ⟨k, c, F, hc, rfl⟩ := mem_resyncEvents.mp he
      exact eventOk_transform s.cfg F (State.lt_n hc) _
    · obtain rfl := List.mem_singleton.mp he
      exact .inl ⟨rfl, rfl⟩
  case inr.inr.inr.inr =>
    exact ⟨_, hw, List.forall_mem_singleton.mpr (eventOk_transform s.cfg F (State.lt_n hc) _)⟩

/-- Settles O16: the events before the step are in order by assumption, those it appends by what a
command can append, and the configuration and the size of the group are fixed. -/
theorem historyStaysInTheRegisterMap : Obligations.HistoryStaysInTheRegisterMap := by
  intro s t hs h
  refine step_keeps (P := State.logInv) hs (fun _ => hs) (fun i u hi => ?_) h
  have hcont := exec_continuedBy hi
  obtain ⟨evs, hw, hevs⟩ := exec_appends_eventOk hi
  rw [State.logInv, hcont.cfg, hcont.n, hw]
  exact List.forall_mem_append.mpr ⟨hs, hevs⟩

/-! ## TRAM_READ (R83, R84, 40_decoder.md R130) -/

/-- The answers supplied come before the free values. -/
theorem answers_take_supplied (n : Nat) (s : State) :
    (s.answers n).take s.acc.length = s.acc.take n := by
  unfold State.answers
  rcases le_total n s.acc.length with h | h
  · rw [Nat.sub_eq_zero_of_le h, List.range_zero, List.map_nil, List.append_nil, List.take_take,
      min_eq_right h]
  · rw [List.take_of_length_le h, List.take_left]

/-- The address of a channel's accumulator, register kind 1 (30_encoding.md R103). -/
theorem regAddr_accumulator (cfg : GroupConfig) (j : Nat) :
    regAddr cfg .accumulator j = cfg.base.toNat + cfg.stride.toNat + 4 * j := by
  simp [regAddr, Kind.num]

/-- Settles O33: the list latched and named in the event is the oracle's next N answers. -/
theorem tramReadLatchesEveryAccumulator : Obligations.TramReadLatchesEveryAccumulator := by
  intro s
  refine ⟨s.answers s.n, State.answers_length s.n s, answers_take_supplied s.n s, ?_⟩
  have hentries := batchEntries_eq s.cfg .accumulator (s.answers s.n)
  simp only [State.answers_length, regAddr_accumulator] at hentries
  rw [← hentries]
  rfl

end Sys2Proof.Machine
end

section
/-! PROOFS of the statements about the encoding (30_encoding.md): decoding and encoding, the legal
words, command lists, the assembler's lines, and how a step fetches its command. -/

namespace Sys2Proof

/-! ## The operands of a command (R113 to R116) -/

/-- The selector of a command, 0 outside format CS. -/
def Instr.selector : Instr → Byte
  | .hostRead _ sel => sel
  | _ => 0#8

/-- The binary64 payload of a command, 0 outside format CF. -/
def Instr.f64Payload : Instr → F64
  | .control _ v | .setPositionScale _ v | .setMaxvel _ v | .setMaxaccel _ v
  | .setPositionCmd _ v | .setVelocityCmd _ v => v
  | _ => F64.ofBits 0#64

/-- The u32 payload of a command, 0 outside format CU. -/
def Instr.u32Payload : Instr → Word
  | .setSteplen _ v | .setStepspace _ v | .setDirsetup _ v | .setDirhold _ v | .setStepType _ v
  | .setEnable _ v | .setControlType _ v => v
  | _ => 0#32

/-- The payload words of a format (R115). -/
def payloadWords : Format → F64 → Word → List Word
  | .g, _, _ | .c, _, _ | .cs, _, _ => []
  | .cu, _, u => [u]
  | .cf, f, _ => [f.loWord, f.hiWord]

/-- A command is built from its operation and its operands. -/
theorem Instr.build_operands (i : Instr) :
    i.op.build (i.chan?.getD 0#16) i.selector i.f64Payload i.u32Payload = i := by
  cases i <;> rfl

/-- A command is encoded as its command word, with its operands in their fields, and its payload. -/
theorem encode_eq (i : Instr) :
    encode i = commandWord i.op.code (i.chan?.getD 0#16) i.selector ::
      payloadWords i.op.format i.f64Payload i.u32Payload := by
  cases i <;> rfl

/-- The command built from operands that its format has is encoded with these operands. -/
theorem encode_build {o : Op} {ch : ChanIdx} {sel : Byte} (f : F64) (u : Word)
    (hch : o.format = .g → ch = 0#16) (hsel : o.format ≠ .cs → sel = 0#8) :
    encode (o.build ch sel f u) = commandWord o.code ch sel :: payloadWords o.format f u := by
  cases o
  case hostRead => rfl
  all_goals obtain rfl := hsel nofun
  case tramRead | tramWrite | forcedResync => obtain rfl := hch rfl; rfl
  all_goals rfl

theorem Op.build_wellFormed (o : Op) (ch : ChanIdx) (sel : Byte) (f : F64) (u : Word) :
    (o.build ch sel f u).wellFormed = true ↔ (o.format = .cs → sel.toNat ≤ 16) := by
  cases o <;> simp [Op.build, Instr.wellFormed, Op.format]

theorem Instr.chan_of_format_g {i : Instr} (h : i.op.format = .g) : i.chan?.getD 0#16 = 0#16 := by
  cases i <;> cases h <;> rfl

theorem Instr.selector_of_format {i : Instr} (h : i.op.format ≠ .cs) : i.selector = 0#8 := by
  cases i
  case hostRead => exact absurd rfl h
  all_goals rfl

theorem Instr.selector_le {i : Instr} (hwf : i.wellFormed = true) : i.selector.toNat ≤ 16 := by
  cases i
  case hostRead => exact of_decide_eq_true hwf
  all_goals exact Nat.zero_le 16

theorem payloadWords_length (fmt : Format) (f : F64) (u : Word) :
    (payloadWords fmt f u).length + 1 = fmt.words := by
  cases fmt <;> rfl

/-! ## The decoder's parts (R115, R117, R125) -/

theorem checkWord_eq_none_iff (fmt : Format) (w : Word) :
    checkWord fmt w = none ↔
      (fmt = .g → chField w = 0#16) ∧ (fmt ≠ .cs → selField w = 0#8) ∧
        (fmt = .cs → (selField w).toNat ≤ 16) := by
  cases fmt
  case g =>
    by_cases hch : chField w = 0#16 <;> by_cases hsel : selField w = 0#8 <;>
      simp [checkWord, hch, hsel]
  all_goals simp [checkWord]

/-- A word whose opcode is in the table is never called unassigned. -/
theorem checkWord_ne_unassignedOp (fmt : Format) (w : Word) :
    checkWord fmt w ≠ some .unassignedOp := by
  unfold checkWord
  cases fmt <;> simp only <;> split_ifs <;> simp

/-- The payload taken and the words left make up the list. -/
theorem takePayload_eq_some {fmt : Format} {ws rest : List Word} {f : F64} {u : Word}
    (h : takePayload fmt ws = some (f, u, rest)) : ws = payloadWords fmt f u ++ rest := by
  unfold takePayload at h
  split at h <;> cases h <;> simp [payloadWords, F64.loWord_ofWords, F64.hiWord_ofWords]

/-- From a command's payload words its own payload is taken. -/
theorem takePayload_operands (i : Instr) (rest : List Word) :
    takePayload i.op.format (payloadWords i.op.format i.f64Payload i.u32Payload ++ rest) =
      some (i.f64Payload, i.u32Payload, rest) := by
  cases i <;>
    simp [takePayload, payloadWords, Instr.op, Op.format, Instr.f64Payload, Instr.u32Payload,
      F64.ofWords_words]

theorem takePayload_isSome_iff (fmt : Format) (ws : List Word) :
    (∃ p, takePayload fmt ws = some p) ↔ fmt.words ≤ ws.length + 1 := by
  cases fmt <;> rcases ws with _ | ⟨a, _ | ⟨b, ws⟩⟩ <;> simp [takePayload, Format.words]

section Branches
variable {w : Word} {ws : List Word} {o : Op}

theorem decode_of_unassigned (ho : Op.ofCode (opField w) = none) :
    decode (w :: ws) = .error .unassignedOp := by
  simp only [decode, ho]

theorem decode_of_badField {e : DecodeError} (ho : Op.ofCode (opField w) = some o)
    (hw : checkWord o.format w = some e) : decode (w :: ws) = .error e := by
  simp only [decode, ho, hw]

theorem decode_of_cutOff (ho : Op.ofCode (opField w) = some o) (hw : checkWord o.format w = none)
    (hp : takePayload o.format ws = none) : decode (w :: ws) = .error .payloadCutOff := by
  simp only [decode, ho, hw, hp]

theorem decode_of_legal {f : F64} {u : Word} {rest : List Word}
    (ho : Op.ofCode (opField w) = some o) (hw : checkWord o.format w = none)
    (hp : takePayload o.format ws = some (f, u, rest)) :
    decode (w :: ws) = .ok (o.build (chField w) (selField w) f u, rest) := by
  simp only [decode, ho, hw, hp]

end Branches

/-- What is decoded is an operation of the table with legal fields, and its payload is there. -/
theorem legal_of_decode {w : Word} {ws rest : List Word} {i : Instr}
    (h : decode (w :: ws) = .ok (i, rest)) :
    ∃ o f u, Op.ofCode (opField w) = some o ∧ checkWord o.format w = none ∧
      takePayload o.format ws = some (f, u, rest) ∧ i = o.build (chField w) (selField w) f u := by
  cases ho : Op.ofCode (opField w) with
  | none => cases (decode_of_unassigned ho).symm.trans h
  | some o =>
    cases hw : checkWord o.format w with
    | some e => cases (decode_of_badField ho hw).symm.trans h
    | none =>
      cases hp : takePayload o.format ws with
      | none => cases (decode_of_cutOff ho hw hp).symm.trans h
      | some p =>
        cases (decode_of_legal ho hw hp).symm.trans h
        exact ⟨o, p.1, p.2.1, rfl, hw, hp, rfl⟩

/-! ## Decode and encode (R113 to R117) -/

/-- Settles O1: the fields of the command word and the payload words give back the operands that the
command is built from. -/
theorem decodeOfEncode : Obligations.DecodeOfEncode := by
  intro i rest hwf
  have hw : checkWord i.op.format
      (commandWord i.op.code (i.chan?.getD 0#16) i.selector) = none := by
    rw [checkWord_eq_none_iff, chField_commandWord, selField_commandWord]
    exact ⟨Instr.chan_of_format_g, Instr.selector_of_format, fun _ => Instr.selector_le hwf⟩
  rw [encode_eq, List.cons_append,
    decode_of_legal (by rw [opField_commandWord, Op.ofCode_code]) hw (takePayload_operands i rest),
    chField_commandWord, selField_commandWord, Instr.build_operands]

/-- Settles O2: a word is put together from its fields, and the payload taken from the words that
encode it. -/
theorem encodeOfDecode : Obligations.EncodeOfDecode := by
  intro ws rest i h
  cases ws with
  | nil => cases h
  | cons w ws =>
    obtain ⟨o, f, u, ho, hw, hp, rfl⟩ := legal_of_decode h
    obtain ⟨hch, hsel, hle⟩ := (checkWord_eq_none_iff ..).mp hw
    refine ⟨(Op.build_wellFormed ..).mpr hle, ?_⟩
    rw [encode_build f u hch hsel, Op.code_of_ofCode ho, commandWord_fields, takePayload_eq_some hp,
      List.cons_append]

/-! ## The legal words (R117) -/

theorem opField_toNat (w : Word) : (opField w).toNat = w.toNat / 2 ^ 24 := by
  have := w.isLt
  simp only [opField, BitVec.extractLsb'_toNat, Nat.shiftRight_eq_div_pow]
  omega

theorem chField_toNat (w : Word) : (chField w).toNat = w.toNat / 2 ^ 8 % 2 ^ 16 := by
  simp only [chField, BitVec.extractLsb'_toNat, Nat.shiftRight_eq_div_pow]

theorem selField_toNat (w : Word) : (selField w).toNat = w.toNat % 2 ^ 8 := by
  simp only [selField, BitVec.extractLsb'_toNat, Nat.shiftRight_zero]

theorem chField_eq_zero_iff (w : Word) : chField w = 0#16 ↔ w.toNat / 2 ^ 8 % 2 ^ 16 = 0 := by
  rw [← chField_toNat, ← BitVec.toNat_inj]
  rfl

theorem selField_eq_zero_iff (w : Word) : selField w = 0#8 ↔ w.toNat % 2 ^ 8 = 0 := by
  rw [← selField_toNat, ← BitVec.toNat_inj]
  rfl

/-- The operation of a word is the one whose code is its highest byte. -/
theorem Op.ofCode_opField_iff (w : Word) (o : Op) :
    Op.ofCode (opField w) = some o ↔ w.toNat / 2 ^ 24 = o.code.toNat := by
  rw [← opField_toNat, BitVec.toNat_inj]
  exact ⟨fun h => (Op.code_of_ofCode h).symm, fun h => by rw [h, Op.ofCode_code]⟩

/-- The unassigned codes, by their ranges (R117). -/
theorem Op.ofCode_eq_none_iff_ranges (b : Byte) :
    Op.ofCode b = none ↔
      b.toNat = 0 ∨ (6 ≤ b.toNat ∧ b.toNat ≤ 0x0F) ∨ (0x15 ≤ b.toNat ∧ b.toNat ≤ 0x18) ∨
        (0x1A ≤ b.toNat ∧ b.toNat ≤ 0x1F) ∨ (0x2C ≤ b.toNat ∧ b.toNat ≤ 0x2F) ∨
        0x31 ≤ b.toNat := by
  revert b
  decide

theorem decode_cons_eq_unassignedOp_iff (w : Word) (ws : List Word) :
    decode (w :: ws) = .error .unassignedOp ↔ Op.ofCode (opField w) = none := by
  cases ho : Op.ofCode (opField w) with
  | none => exact iff_of_true (decode_of_unassigned ho) rfl
  | some o =>
    refine iff_of_false (fun h => ?_) nofun
    cases hw : checkWord o.format w with
    | some e =>
      cases (decode_of_badField ho hw).symm.trans h
      exact checkWord_ne_unassignedOp o.format w hw
    | none =>
      cases hp : takePayload o.format ws with
      | none => cases (decode_of_cutOff ho hw hp).symm.trans h
      | some p => cases (decode_of_legal ho hw hp).symm.trans h

/-- The decoder accepts a list that begins with a word exactly where the word's fields are legal and
its payload is there. -/
theorem decode_cons_isOk_iff (w : Word) (ws : List Word) :
    (∃ i r, decode (w :: ws) = .ok (i, r)) ↔
      ∃ o, Op.ofCode (opField w) = some o ∧ checkWord o.format w = none ∧
        o.format.words ≤ ws.length + 1 := by
  constructor
  · rintro ⟨i, r, h⟩
    obtain ⟨o, f, u, ho, hw, hp, -⟩ := legal_of_decode h
    exact ⟨o, ho, hw, (takePayload_isSome_iff ..).mp ⟨_, hp⟩⟩
  · rintro ⟨o, ho, hw, hlen⟩
    obtain ⟨⟨f, u, r⟩, hp⟩ := (takePayload_isSome_iff ..).mpr hlen
    exact ⟨_, r, decode_of_legal ho hw hp⟩

/-- Settles O3: the decoder's checks, with the fields read as numbers. -/
theorem legalWordsAreThoseOfTheTable : Obligations.LegalWordsAreThoseOfTheTable := by
  intro w rest
  constructor
  · simp only [decode_cons_isOk_iff, checkWord_eq_none_iff, Op.ofCode_opField_iff,
      chField_eq_zero_iff, selField_eq_zero_iff, selField_toNat, and_assoc]
  · rw [decode_cons_eq_unassignedOp_iff, Op.ofCode_eq_none_iff_ranges, opField_toNat]

end Sys2Proof

namespace Sys2Proof.Machine

/-! ## Command lists (R115, R125) -/

/-- The words after a command word that belong to its command are its payload. -/
theorem drop_payload (i : Instr) (ws : List Word) :
    (payloadWords i.op.format i.f64Payload i.u32Payload ++ ws).drop
      (wordsAt (commandWord i.op.code (i.chan?.getD 0#16) i.selector) - 1) = ws := by
  simp only [wordsAt, opField_commandWord, Op.ofCode_code,
    ← payloadWords_length i.op.format i.f64Payload i.u32Payload, Nat.add_sub_cancel,
    List.drop_left]

/-- One command further is past the words of the first command. -/
theorem afterCommands_encode_append (n : Nat) (i : Instr) (ws : List Word) :
    afterCommands (n + 1) (encode i ++ ws) = afterCommands n ws := by
  rw [encode_eq, List.cons_append, afterCommands_succ, drop_payload]

/-- The words of a command count as one command. -/
theorem commandCount_encode_append (i : Instr) (ws : List Word) :
    commandCount (encode i ++ ws) = commandCount ws + 1 := by
  rw [encode_eq, List.cons_append, commandCount_cons, drop_payload]

theorem listOf_cons (i : Instr) (is : List Instr) : listOf (i :: is) = encode i ++ listOf is :=
  List.flatMap_cons

theorem commandCount_listOf (is : List Instr) : commandCount (listOf is) = is.length := by
  induction is with
  | nil => rfl
  | cons i is ih => rw [listOf_cons, commandCount_encode_append, ih, List.length_cons]

theorem afterCommands_listOf (n : Nat) (is : List Instr) :
    afterCommands n (listOf is) = listOf (is.drop n) := by
  induction is generalizing n with
  | nil => rw [List.drop_nil]; exact afterCommands_nil n
  | cons i is ih =>
    cases n with
    | zero => rfl
    | succ n => rw [listOf_cons, afterCommands_encode_append, ih, List.drop_succ_cons]

/-- Settles O8: after n commands the list is that of the commands left, whose first is decoded from
its words. -/
theorem commandListReadsBack : Obligations.CommandListReadsBack := by
  intro is hwf
  refine ⟨commandCount_listOf is, fun n i hi => ?_⟩
  obtain ⟨hn, rfl⟩ := List.getElem?_eq_some_iff.mp hi
  rw [afterCommands_listOf, List.drop_eq_getElem_cons hn, listOf_cons]
  exact decodeOfEncode _ _ (hwf _ (List.getElem_mem hn))

/-! ## The address offset (R102) -/

/-- A group of n channels has room for one 4-byte register of each in `2^S` bytes. -/
theorem four_mul_lt_two_pow {n S i : Nat} (hS : 2 + Nat.clog 2 n ≤ S) (hi : i < n) :
    4 * i < 2 ^ S := by
  have hn : n ≤ 2 ^ Nat.clog 2 n := Nat.le_pow_clog Nat.one_lt_two n
  have hpow : 2 ^ (2 + Nat.clog 2 n) ≤ 2 ^ S := Nat.pow_le_pow_right Nat.two_pos hS
  rw [Nat.pow_add] at hpow
  omega

/-- Settles O32: the offset is the kind times `2^S` and four times the channel, which is below
`2^S`. -/
theorem addressOffsetBits : Obligations.AddressOffsetBits := by
  intro cfg n S k i _ hstride hS hi off
  have hroom := four_mul_lt_two_pow hS hi
  have hk := k.num_le
  have hoff : off = 2 ^ S * k.num + 4 * i := by
    simp only [off, regAddr, hstride, Nat.mul_comm k.num]
    omega
  have hfour : 2 ^ 2 * 2 ^ (S - 2) = 2 ^ S := pow_mul_pow_sub 2 (by omega)
  refine ⟨?chan, ?kind, ?low, ?top⟩
  case chan =>
    rw [hoff, Nat.mul_add_mod, Nat.mod_eq_of_lt hroom]
    omega
  case kind =>
    rw [hoff, Nat.mul_add_div (Nat.two_pow_pos S), Nat.div_eq_of_lt hroom]
    omega
  case low =>
    rw [hoff, ← hfour, Nat.mul_assoc]
    omega
  case top =>
    rw [hoff, Nat.pow_add]
    have := Nat.mul_le_mul_left (2 ^ S) hk
    omega

/-! ## A step's command (R125, R309) -/

theorem fetch_of_mover {s : State} {a : Agent} (hm : s.mover = some a) :
    fetch s = fetchFrom a (s.ahead a) := by
  simp only [fetch, hm]

theorem step_of_run {s : State} {i : Instr} (hr : s.refused = none) (hf : fetch s = .run i) :
    step s = exec i s := by
  simp only [step, hr, hf]

theorem step_of_illegal {s : State} (hr : s.refused = none) (hf : fetch s = .illegal) :
    step s = .next (s.refuse .illegalCommand) := by
  simp only [step, hr, hf]

/-- Settles O6: what is fetched is the command. -/
theorem stepRunsNextCommand : Obligations.StepRunsNextCommand := by
  intro s a i rest hr hm hd ha
  refine step_of_run hr ?_
  simp only [fetch_of_mover hm, fetchFrom, hd, if_pos ha]

/-- Settles O7: nothing that can be run is fetched, and a refusal changes only `refused`. -/
theorem illegalCommandIsRefused : Obligations.IllegalCommandIsRefused := by
  intro s a hr hm h
  refine step_of_illegal hr ?_
  obtain ⟨e, hd⟩ | ⟨i, rest, hd, ha⟩ := h
  · simp only [fetch_of_mover hm, fetchFrom, hd]
  · simp only [fetch_of_mover hm, fetchFrom, hd, if_neg ha]

/-! ## HOST_READ (R116) -/

/-- The items in the order of their selectors (R116). -/
def Item.all : List Item :=
  [.positionFb, .velocityFb, .counts, .dbgFfVel, .dbgVelError, .dbgSToMatch, .dbgErrAtMatch,
   .dbgStepRate, .dbgPosMinusPrevCmd, .positionScale, .maxvel, .maxaccel, .steplen, .stepspace,
   .dirsetup, .dirhold, .stepType]

theorem itemOf_eq_getElem? (sel : Byte) : itemOf sel = Item.all[sel.toNat]? := by
  revert sel
  decide

/-- HOST_READ of a selector that names an item returns the channel's item. -/
theorem exec_hostRead {s : State} {ch : ChanIdx} {c : Channel} {sel : Byte} {it : Item}
    (hc : s.channels[ch.toNat]? = some c) (hit : itemOf sel = some it) :
    exec (.hostRead ch sel) s = .next ((s.giveHost (c.item it)).advance .host) := by
  simp only [exec, execHostRead, hit, onChannel_some hc]

/-- Settles O56: the values listed are those of the items, in the order of the selectors. -/
theorem hostReadReturnsTheItem : Obligations.HostReadReturnsTheItem := by
  intro s ch c sel v hc hv
  replace hv : (Item.all.map c.item)[sel.toNat]? = some v := hv
  rw [List.getElem?_map, ← itemOf_eq_getElem?, Option.map_eq_some_iff] at hv
  obtain ⟨it, hit, rfl⟩ := hv
  exact exec_hostRead hc hit

/-! ## The assembler's lines (R119 to R122) -/

/-- A text that holds none of the characters looked for is not cut. -/
theorem cut_eq_self {stops cs : List Char} (h : ∀ c ∈ cs, c ∉ stops) :
    cut stops cs = (cs, none) := by
  induction cs with
  | nil => rfl
  | cons c cs ih =>
    obtain ⟨hc, hcs⟩ := List.forall_mem_cons.mp h
    simp only [cut, if_neg hc, ih hcs]

theorem dropWhile_isBlank_append {v : List Char} (hv : v ≠ []) (hb : ∀ c ∈ v, isBlank c = false)
    (w : List Char) : (v ++ w).dropWhile isBlank = v ++ w := by
  cases v with
  | nil => exact absurd rfl hv
  | cons c v =>
    exact List.dropWhile_cons_of_neg (Bool.not_eq_true _ ▸ hb c List.mem_cons_self)

/-- A text with no blank to drop at its front, and none at its end, is kept whole. -/
theorem trim_append {pre v : List Char} (hpre : (pre ++ v).dropWhile isBlank = pre ++ v)
    (hv : v ≠ []) (hb : ∀ c ∈ v, isBlank c = false) : trim (pre ++ v) = pre ++ v := by
  rw [trim, hpre, List.reverse_append, dropWhile_isBlank_append (by simpa using hv)
    (by simpa using hb), ← List.reverse_append, List.reverse_reverse]

/-- One operand after the blank behind a mnemonic. -/
theorem operands_blank_cons {v : List Char} (hv : v ≠ [])
    (hb : ∀ c ∈ v, isBlank c = false ∧ c ≠ ',') : operands (' ' :: v) = [v] := by
  have hcut : cut [','] (' ' :: v) = (' ' :: v, none) :=
    cut_eq_self (List.forall_mem_cons.mpr ⟨by decide, fun c hc => by simpa using (hb c hc).2⟩)
  have hb' : ∀ c ∈ v, isBlank c = false := fun c hc => (hb c hc).1
  have htrim : trim (' ' :: v) = v := by
    have hfront := dropWhile_isBlank_append hv hb' []
    rw [List.append_nil] at hfront
    calc trim (' ' :: v) = trim ([] ++ v) := rfl
      _ = v := trim_append hfront hv hb'
  simp only [operands, hcut, htrim, if_neg hv]

/-- A PERIOD_WRITE line stands for its expansion with the period its operand is read as (R121). -/
theorem assembleLine_periodWrite (n : Nat) {v : List Char} {T : F64} (hv : v ≠ [])
    (hb : ∀ c ∈ v, isBlank c = false ∧ c ≠ ',' ∧ c ≠ ';') (hT : parseF64 v = some T) :
    assembleLine n ("PERIOD_WRITE ".toList ++ v) = some (periodWrite n T) := by
  have hcut : cut [';'] ("PERIOD_WRITE ".toList ++ v) = ("PERIOD_WRITE ".toList ++ v, none) :=
    cut_eq_self (List.forall_mem_append.mpr
      ⟨by simp, fun c hc => by simpa using (hb c hc).2.2⟩)
  have htrim : trim ("PERIOD_WRITE ".toList ++ v) = "PERIOD_WRITE ".toList ++ v :=
    trim_append rfl hv fun c hc => (hb c hc).1
  have hword : ("PERIOD_WRITE ".toList ++ v).takeWhile (fun c => !isBlank c) =
      "PERIOD_WRITE".toList := rfl
  have hrest : ("PERIOD_WRITE ".toList ++ v).dropWhile (fun c => !isBlank c) = ' ' :: v := rfl
  have hargs := operands_blank_cons hv fun c hc => ⟨(hb c hc).1, (hb c hc).2.1⟩
  simp only [assembleLine, hcut, htrim, hword, hrest, hargs, hT, Option.map_some]
  rw [if_neg (by simp), if_neg (by decide), if_neg (by decide), if_pos trivial]

/-- Settles O5: the three lines stand for `periodRead`, `syncAll` and `periodWrite`, which list the
channels in ascending order. -/
theorem pseudoInstructionsExpand : Obligations.PseudoInstructionsExpand := by
  intro n
  refine ⟨?read, ?sync, fun v T hv hb hT => ?write⟩
  case read =>
    have hline : assembleLine n "PERIOD_READ".toList = some (periodRead n) := rfl
    rw [hline, periodRead, allChannels, List.map_map]
    rfl
  case sync =>
    have hline : assembleLine n "SYNC_ALL".toList = some (syncAll n) := rfl
    rw [hline, syncAll, allChannels, List.flatMap_map]
    rfl
  case write =>
    rw [assembleLine_periodWrite n hv hb hT, periodWrite, allChannels, List.flatMap_map]

/-- Settles O4: closed words and lines, evaluated one by one. -/
theorem sampleWordsAndLines : Obligations.SampleWordsAndLines := by
  refine ⟨?_, ?_, ?_, ?_, ?_, ?_, ?_, ?_, ?_, ?_, ?_⟩ <;> decide

end Sys2Proof.Machine
end

section
/-! PROOFS of the statements about the accumulator decoder (40_decoder.md), CONTROL in velocity mode
(41_controller.md) and ENCODE (42_encoder.md): the state that each of these commands leaves. -/

namespace Sys2Proof.Machine

/-! ## The displacement (R132, R133) -/

/-- The two adjustments by 2^32 read the wrapped difference as two's complement. -/
theorem displacement_eq (raw prev : Word) : displacement raw prev = (raw - prev).toInt := by
  have hraw := raw.isLt
  have hprev := prev.isLt
  rw [BitVec.toInt_eq_toNat_cond, BitVec.toNat_sub, displacement]
  split_ifs <;> omega

theorem displacement_self (raw : Word) : displacement raw raw = 0 := by
  rw [displacement_eq, BitVec.sub_self, BitVec.toInt_zero]

/-- A displacement of magnitude below 2^31 is recovered from the counter that it moved, wherever that
wrapped (R134). -/
theorem displacement_of_wrapOk {first second : Word} {d : Int} (h : wrapOk first second d) :
    displacement second first = d := by
  obtain ⟨hlo, hhi, rfl⟩ := h
  have hdiff : BitVec.ofInt 32 ((first.toNat : Int) + d) - first = BitVec.ofInt 32 d := by
    rw [BitVec.ofInt_add, BitVec.ofInt_natCast, BitVec.ofNat_toNat, BitVec.setWidth_eq,
      add_sub_cancel_left]
  rw [displacement_eq, hdiff, BitVec.toInt_ofInt]
  exact Int.bmod_eq_of_le (by omega) (by omega)

/-- Settles O35: the value is `displacement_eq`, and the corners are the definition's branches. -/
theorem displacementIsTheWrappedDifference : Obligations.DisplacementIsTheWrappedDifference := by
  intro raw prev d
  have hval := displacement_eq raw prev
  have hlo := (raw - prev).le_toInt
  have hhi := (raw - prev).toInt_lt
  rw [← hval] at hlo hhi
  refine ⟨hval, by omega, by omega, by omega, fun hd => ?_, fun hd => ?_, fun hd => ?_⟩ <;>
    simp only [displacement, d] at hd ⊢ <;> omega

/-! ## DECODE (R132 to R138) -/

theorem newSubcounts_eq (c : Channel) :
    newSubcounts c = c.subcounts + (c.rawAcc - c.prevRaw).signExtend 64 := by
  rw [newSubcounts, displacement_eq, BitVec.ofInt_add, BitVec.ofInt_toInt, BitVec.signExtend]

/-- The low word of an integer taken to 64 bits is that of the integer. -/
theorem setWidth_ofInt (x : Int) : (BitVec.ofInt 64 x).setWidth 32 = BitVec.ofInt 32 x := by
  apply BitVec.eq_of_toNat_eq
  rw [BitVec.toNat_setWidth, BitVec.toNat_ofInt, BitVec.toNat_ofInt]
  omega

theorem countsOf_eq (sub : DWord) : countsOf sub = (sub.sshiftRight 16).setWidth 32 := by
  rw [BitVec.sshiftRight, setWidth_ofInt, Int.shiftRight_eq_div_pow, countsOf]
  rfl

theorem exec_decode {s : State} {ch : ChanIdx} {c : Channel}
    (hc : s.channels[ch.toNat]? = some c) :
    exec (.decode ch) s = .next ((s.commit ch.toNat (decodeChan ch.toNat c)).advance .rt) :=
  chanCommand_some hc _ _

/-- The record of the channel named, after a DECODE that has found one. -/
theorem decode_record {s t : State} {ch : ChanIdx} {c c' : Channel}
    (h : exec (.decode ch) s = .next t) (hc : s.channels[ch.toNat]? = some c)
    (hc' : t.channels[ch.toNat]? = some c') : c' = (decodeChan ch.toNat c).chan := by
  obtain rfl := Host.Outcome.next.inj ((exec_decode hc).symm.trans h)
  rw [State.advance_channels, State.commit_channels, List.getElem?_set_self (State.lt_n hc)] at hc'
  exact (Option.some.inj hc').symm

/-- The fields that DECODE takes from the counter do not depend on the scale check. -/
theorem decodeChan_position (k : Nat) (c : Channel) :
    (decodeChan k c).chan.rawAcc = c.rawAcc ∧ (decodeChan k c).chan.prevRaw = c.rawAcc ∧
      (decodeChan k c).chan.subcounts = newSubcounts c ∧
      (decodeChan k c).chan.counts = countsOf (newSubcounts c) := by
  rw [decodeChan, fixScale_eq]
  exact ⟨rfl, rfl, rfl, rfl⟩

/-- DECODE in bit vectors: the wrapped difference sign-extended, and the arithmetic shift. -/
theorem decodeChan_eq (k : Nat) (c : Channel) :
    let f := fixScale k c
    let sub := c.subcounts + (c.rawAcc - c.prevRaw).signExtend 64
    decodeChan k c = {
      chan := { f.1 with
        subcounts := sub, prevRaw := c.rawAcc, counts := (sub.sshiftRight 16).setWidth 32,
        positionFb := positionOf sub f.1.positionScale }
      diags := f.2
      events := [] } := by
  intro f sub
  have hsub : newSubcounts c = sub := newSubcounts_eq c
  rw [← countsOf_eq, ← hsub]
  simp only [f, decodeChan, fixScale_eq]
  rfl

/-- Settles O34: the record is `decodeChan_eq`'s, with the scale that the check leaves. -/
theorem decodeUpdatesPosition : Obligations.DecodeUpdatesPosition := by
  intro s ch c hc near scale sub
  rw [exec_decode hc, decodeChan_eq, fixScale_eq, State.commit, List.append_nil]
  rfl

/-- Settles O36: the displacement is the true one (R134), and DECODE adds it. -/
theorem decodeRecoversTheTrueDisplacement : Obligations.DecodeRecoversTheTrueDisplacement := by
  intro s ch c d hc hwrap
  obtain ⟨-, hprev, hsub, -⟩ := decodeChan_position ch.toNat c
  refine ⟨_, (decodeChan ch.toNat c).chan, exec_decode hc, ?_, ?_, hprev⟩
  · exact List.getElem?_set_self (State.lt_n hc)
  · rw [hsub, newSubcounts, displacement_of_wrapOk hwrap]

/-- Where the counter has not moved since the last DECODE, DECODE adds nothing. -/
theorem newSubcounts_of_prevRaw {c : Channel} (h : c.prevRaw = c.rawAcc) :
    newSubcounts c = c.subcounts := by
  rw [newSubcounts, h, displacement_self, Int.add_zero, BitVec.ofInt_toInt]

/-- Settles O37: the first DECODE latches `raw_acc`, which stays, so the second has no displacement. -/
theorem secondDecodeAddsNothing : Obligations.SecondDecodeAddsNothing := by
  intro s t u ch c c' c'' hst htu hc hc' hc''
  obtain ⟨hraw, hprev, hsub, hcnt⟩ := decodeChan_position ch.toNat c
  obtain ⟨-, hprev', hsub', hcnt'⟩ := decodeChan_position ch.toNat c'
  rw [← decode_record hst hc hc'] at hraw hprev hsub hcnt
  rw [← decode_record htu hc' hc''] at hprev' hsub' hcnt'
  have hlatched : c'.prevRaw = c'.rawAcc := hprev.trans hraw.symm
  rw [newSubcounts_of_prevRaw hlatched] at hsub' hcnt'
  refine ⟨hprev, ?_, hsub', ?_, hprev'.trans hlatched.symm⟩
  · rw [hlatched, displacement_self]
  · rw [hcnt', hcnt, hsub]

/-! ## CONTROL in velocity mode (41_controller.md R150, R151, R165 to R172) -/

/-- What post-processing writes: the scale, maxvel and the velocity, each once. -/
theorem postProcess_eq (k : Nat) (v : F64) (c : Channel) :
    let a := (fixScale k c).1
    let phys := physLimit a
    let m := if c.maxvel.lt F64.zeroLit then c.maxvel.abs else c.maxvel
    let mv := if m.gt phys then phys else m
    let lim := effLimit mv phys
    postProcess k v c =
      ({ a with maxvel := mv, velocityFb := v.clamp lim.neg lim },
        (fixScale k c).2 ++
          ((if c.maxvel.lt F64.zeroLit then [⟨.maxvelNegative, k, none⟩] else []) ++
            if m.gt phys then [⟨.maxvelLimited, k, none⟩] else [])) := by
  simp only [postProcess, maxvelChecks, maxvelSign_eq, maxvelLimit_eq, setVelocity, fixScale_eq]

/-- In velocity mode nothing is written between the maxaccel check and post-processing. -/
theorem controlEnabled_of_velocity {c : Channel} (h : c.controlType = .velocity) (T : F64)
    (k : Nat) :
    controlEnabled T k c =
      let a := maxaccelCheck k c
      let p := postProcess k (velocityVel a.1 T) a.1
      { chan := p.1, diags := a.2 ++ p.2, events := [] } := by
  have hmode : (maxaccelCheck k c).1.controlType = .velocity := by
    rw [maxaccelCheck_eq]
    exact h
  simp only [controlEnabled, newVel, modeWrites, hmode]

/-- Settles O40: the corrections and the clamp of post-processing, on the record that the maxaccel
check leaves. -/
theorem controlInVelocityMode : Obligations.ControlInVelocityMode := by
  intro s ch c T hc hen hmode h1 h2
  rw [exec_control hc h1 h2, controlChan, if_pos hen, controlEnabled_of_velocity hmode]
  simp only [postProcess_eq, maxaccelCheck_eq, fixScale_eq, State.commit, List.append_nil,
    List.append_assoc]
  rfl

/-! ## ENCODE (42_encoder.md R190 to R194) -/

theorem exec_encode {s : State} {ch : ChanIdx} {c : Channel}
    (hc : s.channels[ch.toNat]? = some c) :
    exec (.encode ch) s = .next ((s.commit ch.toNat (encodeChan s.cfg ch.toNat c)).advance .rt) :=
  chanCommand_some hc _ _

theorem toReg32_of_finite {ph : F64} (h : ph.isFinite = true) (drawn : Word) :
    toReg32 ph drawn = BitVec.ofInt 32 ph.trunc := if_pos h

/-- Settles O45: the word written is `ToReg32` of the increment, with the channel's next draw for one
that is not finite. -/
theorem encodeWritesThePhaseIncrement : Obligations.EncodeWritesThePhaseIncrement := by
  intro s ch c hc hen near scale ph
  refine ⟨toReg32 ph (Config.freeStepRate ch.toNat c.rateDraws),
    fun hfin => toReg32_of_finite hfin _, ?_⟩
  rw [exec_encode hc, encodeChan, if_pos hen, encodeEnabled, fixScale_eq, State.commit,
    List.append_nil]
  rfl

end Sys2Proof.Machine
end

section
/-! PROOFS of the statements about CONTROL (41_controller.md): what it leaves of a disabled channel
and in position mode, the match acceleration and the velocity bound; and when a command is refused
(60_exceptions.md R273). -/

namespace Sys2Proof.Machine

/-! ## Refusal (60_exceptions.md R270 to R273) -/

/-- Settles O23: `exec_cases` tells a refused command from one that completes, and each completion
keeps `refused`. -/
theorem commandsAreRefusedExactlyWhen : Obligations.CommandsAreRefusedExactlyWhen := by
  intro i s
  obtain ⟨t, h⟩ := exec_next i s
  obtain ⟨r, hr, rfl⟩ | ⟨hr, ⟨-, rfl⟩ | ⟨-, rfl⟩ | ⟨-, rfl⟩ | ⟨ch, c, -, -, rfl⟩⟩ := exec_cases h
  case inl =>
    refine ⟨fun r' hr' => ?_, fun hnone => by cases hr.symm.trans hnone⟩
    obtain rfl := Option.some.inj (hr.symm.trans hr')
    exact h
  all_goals refine ⟨fun r' hr' => (by cases hr.symm.trans hr'), fun _ => ⟨_, h, ?_⟩⟩
  case inr.inr.inr.inr => exact afterChan_refused ..
  all_goals rfl

/-! ## A disabled channel (41_controller.md R152, 42_encoder.md R191) -/

/-- Committing the record that stands on a channel changes nothing. -/
theorem State.commit_of_self {s : State} {k : Nat} {c : Channel} (h : s.channels[k]? = some c) :
    s.commit k (ChanOut.of c) = s := by
  simp only [State.commit, ChanOut.of, set_getElem?_self h, List.append_nil]

/-- Settles O39: CONTROL commits the record as it stands, ENCODE the one with its register at 0. -/
theorem disabledChannelIsSkipped : Obligations.DisabledChannelIsSkipped := by
  intro s ch c T hc hdis h1 h2
  have hen : ¬ c.enable = true := by rw [hdis]; exact Bool.false_ne_true
  constructor
  · rw [exec_control hc h1 h2, controlChan, if_neg hen, State.commit_of_self hc]
    rfl
  · rw [exec_encode hc, encodeChan, if_neg hen, State.commit, ChanOut.of, List.append_nil,
      List.append_nil]
    rfl

/-! ## CONTROL in position mode (41_controller.md R153 to R172) -/

/-- In position mode the telemetry is written between the maxaccel check and post-processing. -/
theorem controlEnabled_of_position {c : Channel} (h : c.controlType = .position) (T : F64)
    (k : Nat) :
    controlEnabled T k c =
      let a := maxaccelCheck k c
      let p := postProcess k (positionVel a.1 T) (positionTelemetry a.1 T)
      { chan := p.1, diags := a.2 ++ p.2, events := [] } := by
  have hmode : (maxaccelCheck k c).1.controlType = .position := by
    rw [maxaccelCheck_eq]
    exact h
  simp only [controlEnabled, newVel, modeWrites, hmode]

/-- Settles O41: the corrections and the clamp of post-processing, on the record that the maxaccel
check and the telemetry leave. -/
theorem controlInPositionMode : Obligations.ControlInPositionMode := by
  intro s ch c T hc hen hmode h1 h2
  rw [exec_control hc h1 h2, controlChan, if_pos hen, controlEnabled_of_position hmode]
  simp only [postProcess_eq, maxaccelCheck_eq, fixScale_eq, State.commit, List.append_nil,
    List.append_assoc]
  rfl

end Sys2Proof.Machine

namespace Sys2Proof

/-! ## Sign and magnitude (R14) -/

theorem F64.abs_of_sign_false {x : F64} (h : x.sign = false) : x.abs = x :=
  F64.ext_mag h.symm rfl

theorem F64.abs_of_sign_true {x : F64} (h : x.sign = true) : x.abs = x.neg :=
  F64.ext_mag (by rw [F64.neg_sign, h]; rfl) rfl

/-- A value above 0 is its own magnitude. -/
theorem F64.abs_of_zeroLit_lt {x : F64} (h : F64.zeroLit.lt x = true) : x.abs = x := by
  obtain ⟨-, -, hkey⟩ := (F64.lt_iff_key ..).mp h
  rw [F64.zeroLit_key, F64.key] at hkey
  cases hs : x.sign
  · exact F64.abs_of_sign_false hs
  · simp only [hs, if_true] at hkey
    omega

/-- The magnitude of a value below 0 is its negation. -/
theorem F64.abs_of_lt_zeroLit {x : F64} (h : x.lt F64.zeroLit = true) : x.abs = x.neg := by
  cases hs : x.sign
  · rw [Machine.lt_zeroLit_of_sign_false hs] at h
    cases h
  · exact F64.abs_of_sign_true hs

/-- A value that is not NaN and not 0 lies on one side of 0. -/
theorem F64.lt_zeroLit_of_not_gt {x : F64} (hn : x.isNaN = false) (h0 : x.feq F64.zeroLit = false)
    (hgt : F64.zeroLit.lt x = false) : x.lt F64.zeroLit = true := by
  simp only [F64.lt, F64.feq, hn, F64.zeroLit_isNaN, F64.zeroLit_key, Bool.not_false,
    Bool.true_and, decide_eq_false_iff_not, decide_eq_true_eq] at h0 hgt ⊢
  omega

/-- Negation passes through a quotient by a divisor that is finite and not 0: both are rounded from
the same magnitudes. -/
theorem F64.neg_div {x y : F64} (hx : x.isNaN = false) (hy : y.isFinite = true)
    (hy0 : y.isZero = false) : x.neg.div y = (x.div y).neg := by
  have hsign : ((!x.sign) != y.sign) = !(x.sign != y.sign) := Bool.not_bne ..
  simp only [F64.div, F64.neg_sign, F64.neg_isNaN, F64.neg_isInf, F64.neg_isZero, F64.neg_mant,
    F64.neg_expo, hsign, hx, F64.not_isNaN_of_isFinite hy, F64.isInf_of_isFinite hy, hy0,
    Bool.or_false, Bool.false_or, Bool.and_false, Bool.false_eq_true, if_false]
  split_ifs <;> rfl

/-- A value put between a positive limit and its negation has at most the limit's magnitude. -/
theorem F64.clamp_neg_abs_le {v m : F64} (hv : v.isNaN = false) (hm : F64.zeroLit.lt m = true) :
    (v.clamp m.neg m).isNaN = false ∧ m.lt (v.clamp m.neg m).abs = false := by
  obtain ⟨-, hmn, hkey⟩ := (F64.lt_iff_key ..).mp hm
  rw [F64.zeroLit_key] at hkey
  have hord : m.lt m.neg = false := by
    simp only [F64.lt, F64.neg_isNaN, F64.neg_key, hmn, Bool.not_false, Bool.true_and,
      decide_eq_false_iff_not]
    omega
  obtain ⟨hn, hlo, hhi⟩ := F64.clamp_between hv (lo := m.neg) hmn hmn hord
  refine ⟨hn, ?_⟩
  simp only [F64.lt, F64.neg_isNaN, F64.abs_isNaN, F64.neg_key, F64.abs_key, hn, hmn,
    Bool.not_false, Bool.true_and, decide_eq_false_iff_not, not_lt] at hlo hhi ⊢
  exact abs_le.mpr ⟨hlo, hhi⟩

end Sys2Proof

namespace Sys2Proof.Machine

/-! ## The match acceleration (41_controller.md R157) -/

/-- An accepted period is finite and not 0 (R150). -/
theorem period_finite_nonzero {T : F64} (h1 : F64.zeroLit.lt T = true)
    (h2 : T.lt (F64.inf false) = true) : T.isFinite = true ∧ T.isZero = false := by
  have hok : periodOk T = true := by rw [periodOk, F64.gt, h1, h2]; rfl
  rw [periodOk_eq] at hok
  simp only [Bool.and_eq_true, Bool.not_eq_true'] at hok
  obtain ⟨⟨hfin, -⟩, hnz⟩ := hok
  exact ⟨hfin, hnz⟩

/-- Settles O42: above 0 the negation of `ve / T` is the quotient of `-ve`, below 0 the magnitude of
`ve` is `-ve`. -/
theorem unlimitedMatchAcceleration : Obligations.UnlimitedMatchAcceleration := by
  intro ve A T hA hn h0 h1 h2
  obtain ⟨hfin, hnz⟩ := period_finite_nonzero h1 h2
  unfold matchAccel
  rw [if_pos hA, if_pos hA, F64.gt]
  split
  next hgt => rw [F64.abs_of_zeroLit_lt hgt, F64.neg_div hn hfin hnz]
  next hgt =>
    have hlt := F64.lt_zeroLit_of_not_gt hn h0 (Bool.eq_false_of_not_eq_true hgt)
    rw [if_pos hlt, F64.abs_of_lt_zeroLit hlt]

/-! ## The velocity bound (41_controller.md R169 to R173) -/

/-- A maxvel above 0 is the effective limit (R170). -/
theorem effLimit_of_pos {m : F64} (hm : F64.zeroLit.lt m = true) (phys : F64) :
    effLimit m phys = m := by
  obtain ⟨-, -, hkey⟩ := (F64.lt_iff_key ..).mp hm
  rw [F64.zeroLit_key] at hkey
  have hne : m.fne F64.zeroLit = true := by
    simp only [F64.fne, F64.feq, F64.zeroLit_key, hkey.ne', decide_false, Bool.and_false,
      Bool.not_false]
  rw [effLimit, if_pos hne]

/-- Post-processing puts the new velocity between the effective limit of the record that it leaves
and that limit's negation (R170 to R172). -/
theorem postProcess_velocity (k : Nat) (v : F64) (c : Channel) :
    let p := (postProcess k v c).1
    p.velocityFb = v.clamp (effLimit p.maxvel (physLimit p)).neg
      (effLimit p.maxvel (physLimit p)) := by
  simp only [postProcess_eq, fixScale_eq, physLimit]

/-- Settles O43: with a maxvel above 0 post-processing clamps between it and its negation. -/
theorem velocityIsBoundedByMaxvel : Obligations.VelocityIsBoundedByMaxvel := by
  intro s t ch c c' T hc hen h href hc' hv hpos
  obtain rfl := exec_chan_record_eq rfl h href hc hc'
  have hchan : (chanOut s.cfg (.control ch T) ch.toNat c).chan =
      (postProcess ch.toNat (newVel (maxaccelCheck ch.toNat c).1 T)
        (modeWrites (maxaccelCheck ch.toNat c).1 T)).1 := by
    simp only [chanOut, controlChan, hen, if_true, controlEnabled]
  rw [hchan] at hpos ⊢
  rw [postProcess_velocity, effLimit_of_pos hpos]
  exact F64.clamp_neg_abs_le hv hpos

end Sys2Proof.Machine
end

section
/-! PROOFS of the statement about range and sign of ENCODE (42_encoder.md R193 to R195): a negated
scale negates the phase increment, and with it the word that is written. -/

namespace Sys2Proof

/-! ## Sign symmetry of products and of truncation (R14, R15) -/

/-- Negating either factor negates a product that is not NaN: the magnitude is computed from the same
magnitudes, and the sign is the operands' exclusive or. -/
theorem F64.neg_factor_of_mul {x y : F64} (h : (x.mul y).isNaN = false) :
    x.mul y.neg = (x.mul y).neg ∧ x.neg.mul y = (x.mul y).neg := by
  have hright : (x.sign != !y.sign) = !(x.sign != y.sign) := Bool.bne_not ..
  have hleft : ((!x.sign) != y.sign) = !(x.sign != y.sign) := Bool.not_bne ..
  simp only [F64.mul, F64.neg_sign, F64.neg_isNaN, F64.neg_isInf, F64.neg_isZero, F64.neg_mant,
    F64.neg_expo, hright, hleft] at h ⊢
  split_ifs at h ⊢
  case pos => cases h
  case pos => cases h
  all_goals exact ⟨rfl, rfl⟩

theorem F64.isNaN_left_of_mul {x y : F64} (h : (x.mul y).isNaN = false) : x.isNaN = false := by
  by_contra hx
  obtain ⟨-, -, hmul, -⟩ := F64.ops_isNaN (x := x) (y := y)
    (by rw [Bool.eq_true_of_not_eq_false hx, Bool.true_or])
  cases h.symm.trans hmul

@[simp] theorem F64.neg_magFloor (x : F64) : x.neg.magFloor = x.magFloor := rfl

/-- Truncation is toward zero on either side of it (R15). -/
@[simp] theorem F64.neg_trunc (x : F64) : x.neg.trunc = -x.trunc := by
  rw [F64.trunc, F64.trunc, F64.neg_sign, F64.neg_magFloor]
  cases x.sign <;> simp

end Sys2Proof

namespace Sys2Proof.Machine

/-! ## ENCODE of a negated scale (42_encoder.md R195) -/

/-- Negation passes through both products of the phase increment (R192, R193). -/
theorem phaseIncrement_neg_scale {cfg : GroupConfig} {c : Channel}
    (h : (phaseIncrement cfg c).isNaN = false) :
    phaseIncrement cfg { c with positionScale := c.positionScale.neg } =
      (phaseIncrement cfg c).neg := by
  obtain ⟨hscale, -⟩ := F64.neg_factor_of_mul (F64.isNaN_left_of_mul h)
  obtain ⟨-, hproduct⟩ := F64.neg_factor_of_mul h
  simp only [phaseIncrement, hscale, hproduct]

/-- ENCODE where neither the scale is corrected nor a word drawn: the truncated increment goes to the
register and its telemetry (R190, R194). -/
theorem exec_encode_of_finite {s : State} {ch : ChanIdx} {c : Channel}
    (hc : s.channels[ch.toNat]? = some c) (hen : c.enable = true)
    (hs : c.positionScale.abs.lt F64.micro = false)
    (hf : (phaseIncrement s.cfg c).isFinite = true) :
    exec (.encode ch) s = .next { s with
      channels := s.channels.set ch.toNat
        (writeRate (BitVec.ofInt 32 (phaseIncrement s.cfg c).trunc) c),
      pc := s.pc + 1 } := by
  rw [exec_encode hc, encodeChan_finite hen hs hf ch.toNat 0#32, toReg32_of_finite hf, State.commit,
    ChanOut.of, List.append_nil, List.append_nil]
  rfl

/-- Settles O46: the negated increment truncates to the negated integer, whose low word is the two's
complement of the other's. -/
theorem negatedScaleReversesTheRegister : Obligations.NegatedScaleReversesTheRegister := by
  intro s ch c hc hen hs hf negated
  have hph : phaseIncrement s.cfg negated = (phaseIncrement s.cfg c).neg :=
    phaseIncrement_neg_scale (F64.not_isNaN_of_isFinite hf)
  have hword : BitVec.ofInt 32 (phaseIncrement s.cfg negated).trunc =
      -BitVec.ofInt 32 (phaseIncrement s.cfg c).trunc := by
    rw [hph, F64.neg_trunc, BitVec.ofInt_neg]
  have hc' : (s.channels.set ch.toNat negated)[ch.toNat]? = some negated :=
    List.getElem?_set_self (State.lt_n hc)
  have hf' : (phaseIncrement s.cfg negated).isFinite = true := by rw [hph, F64.neg_isFinite, hf]
  refine ⟨BitVec.ofInt 32 (phaseIncrement s.cfg c).trunc, exec_encode_of_finite hc hen hs hf, ?_⟩
  rw [exec_encode_of_finite (s := { s with channels := s.channels.set ch.toNat negated })
    hc' hen hs hf', List.set_set, hword]
  rfl

end Sys2Proof.Machine
end

section
/-! PROOFS of the statements about the timing manager (43_timing.md): what a SYNC of a clean and of a
dirty field does, in exact integers, and what FORCED_RESYNC rewrites. -/

namespace Sys2Proof.Machine

/-! ## SYNC of one field (R213 to R217) -/

/-- A forced sync commits the exact parameter and register, reports as the exact integers say and makes
the one write (R214 to R217). -/
theorem syncField_force_exact (cfg : GroupConfig) (F : TimingField) (i : Nat) (c : Channel) :
    syncField cfg F true i c =
      { chan := c.commitField F
          (BitVec.ofNat 32 (exactTiming cfg.clockHz.toNat F (c.param F).toNat).1)
          (BitVec.ofNat 32 (exactTiming cfg.clockHz.toNat F (c.param F).toNat).2),
        diags := exactReport cfg.clockHz.toNat F i (c.param F).toNat,
        events := [.write (regAddr cfg F.kind i)
          (BitVec.ofNat 32 (exactTiming cfg.clockHz.toNat F (c.param F).toNat).2)] } := by
  obtain ⟨hparam, hreg, hdiag⟩ := transform_eq cfg F i (c.param F)
  rw [syncField_force, hparam, hreg, hdiag]

theorem exec_sync {s : State} {ch : ChanIdx} {c : Channel} (hc : s.channels[ch.toNat]? = some c)
    (F : TimingField) : exec (syncInstr F ch) s =
      .next ((s.commit ch.toNat (syncField s.cfg F false ch.toNat c)).advance .rt) :=
  (exec_syncInstr F ch s).trans (chanCommand_some hc ..)

theorem exec_sync_clean {s : State} {ch : ChanIdx} {c : Channel} {F : TimingField}
    (hc : s.channels[ch.toNat]? = some c) (hclean : c.shadow F = some (c.param F)) :
    exec (syncInstr F ch) s = .next { s with pc := s.pc + 1 } := by
  rw [exec_sync hc, syncField_clean hclean, State.commit_of_self hc]
  rfl

/-- Settles O50: a dirty field is committed as by a forced sync. -/
theorem syncOfADirtyFieldIsExact : Obligations.SyncOfADirtyFieldIsExact := by
  intro s ch c F hc hdirty
  rw [exec_sync hc, syncField_dirty hdirty, syncField_force_exact]
  rfl

/-- Settles O49: the exact timing of a step type is its validation. -/
theorem stepTypeIsValidated : Obligations.StepTypeIsValidated := by
  intro s ch c hc hdirty p
  have hexact : exactTiming s.cfg.clockHz.toNat .stepType c.stepType.toNat = (p.toNat, p.toNat) := by
    by_cases h : 2 < c.stepType.toNat
    · simp only [exactTiming, p, if_pos h, if_neg (Nat.not_le.mpr h)]
      rfl
    · simp only [exactTiming, p, if_neg h, if_pos (Nat.not_lt.mp h)]
  have hexec := syncOfADirtyFieldIsExact s ch c .stepType hc hdirty
  simp only [Channel.param, hexact, BitVec.ofNat_toNat, BitVec.setWidth_eq] at hexec
  exact hexec

/-- The result of a sync that commits is its write (R217). -/
theorem syncResult_of_commit {cfg : GroupConfig} {F : TimingField} {force : Bool} {c : Channel}
    (h : force = true ∨ c.shadow F ≠ some (c.param F)) (i : Nat) :
    syncResult cfg F force i c = some (regAddr cfg F.kind i,
      BitVec.ofNat 32 (exactTiming cfg.clockHz.toNat F (c.param F).toNat).2) := by
  rw [syncResult, if_pos (by simpa [Channel.dirty, dirtyShadow] using h), (transform_eq ..).2.1]

theorem syncResult_clean {c : Channel} {F : TimingField} (h : c.shadow F = some (c.param F))
    (cfg : GroupConfig) (i : Nat) : syncResult cfg F false i c = none := by
  simp [syncResult, Channel.dirty, dirtyShadow, h]

/-- Settles O48: a clean field stops the sync early; a dirty one, and a forced sync in either case,
commits the exact parameter and register. -/
theorem syncCommitsExactlyADirtyField : Obligations.SyncCommitsExactlyADirtyField := by
  intro s ch c F hc
  refine ⟨fun hclean => ⟨exec_sync_clean hc hclean, syncResult_clean hclean ..⟩,
    fun hdirty => ?dirty, ?forced⟩
  case dirty =>
    exact ⟨_, _, _, _, syncOfADirtyFieldIsExact s ch c F hc hdirty,
      List.getElem?_set_self (State.lt_n hc), c.commitField_param .., c.commitField_shadow ..,
      c.commitField_cache .., rfl, rfl, syncResult_of_commit (.inr hdirty) _⟩
  case forced =>
    rw [syncField_force_exact]
    exact ⟨_, _, c.commitField_shadow .., c.commitField_param .., c.commitField_cache .., rfl,
      syncResult_of_commit (.inl rfl) _⟩

/-- Settles O51: whichever way the first sync goes, it leaves the field clean. -/
theorem syncTwiceWritesOnce : Obligations.SyncTwiceWritesOnce := by
  intro s t ch c F hc h
  by_cases hclean : c.shadow F = some (c.param F)
  · obtain rfl := Host.Outcome.next.inj ((exec_sync_clean hc hclean).symm.trans h)
    exact ⟨fun hdirty => absurd hclean hdirty, fun _ => rfl, exec_sync_clean hc hclean⟩
  · obtain rfl := Host.Outcome.next.inj ((syncOfADirtyFieldIsExact s ch c F hc hclean).symm.trans h)
    exact ⟨fun _ => rfl, fun h => absurd h hclean,
      exec_sync_clean (List.getElem?_set_self (State.lt_n hc))
        (by rw [Channel.commitField_shadow, Channel.commitField_param])⟩

/-! ## FORCED_RESYNC (R212, R224, R225) -/

theorem resyncFrom_map_chan {cfg : GroupConfig} {f : Channel → Channel}
    (h : ∀ i c, (resyncChan cfg i c).chan = f c) (i : Nat) (cs : List Channel) :
    (resyncFrom cfg i cs).map ChanOut.chan = cs.map f := by
  induction cs generalizing i with
  | nil => rfl
  | cons c cs ih => rw [resyncFrom, List.map_cons, List.map_cons, h, ih]

/-- Settles O53: each channel's forced sync is the commit of its five fields at the exact values, and
the logs of the channels follow each other. -/
theorem forcedResyncRewritesEverything : Obligations.ForcedResyncRewritesEverything := by
  intro s clock p r writes reports after
  have hchan (i : Nat) (c : Channel) : (resyncChan s.cfg i c).chan = after c := by
    simp only [resyncChan_chan, transform_eq]
    exact commitFields_eq (p · c) (r · c) c
  have hevents : (resyncFrom s.cfg 0 s.channels).flatMap ChanOut.events = writes := by
    rw [resyncFrom_flatMap]
    refine List.flatMap_congr fun (c, j) _ => ?_
    simp only [resyncChan_events, transform_eq]
    rfl
  have hdiags : (resyncFrom s.cfg 0 s.channels).flatMap ChanOut.diags = reports := by
    rw [resyncFrom_flatMap]
    refine List.flatMap_congr fun (c, j) _ => ?_
    simp only [resyncChan_diags, transform_eq]
    rfl
  refine ⟨?next, ?count, fun c F => ?clean⟩
  case next =>
    rw [← hevents, ← hdiags, ← resyncFrom_map_chan hchan 0, ← List.append_assoc]
    rfl
  case count =>
    simp [writes, List.length_flatMap, TimingField.all, State.n, Nat.mul_comm]
  case clean =>
    rcases F with ⟨_ | _ | _ | _⟩ | _ <;> rfl

end Sys2Proof.Machine
end

section
/-! PROOFS of the statements about the HOST agent's commands (44_host.md): what the SET commands
store, and that no host command writes anything else (R240). -/

namespace Sys2Proof.Machine

/-! ## The SET commands (R241 to R252) -/

/-- A host command that leaves record `c'` on channel `k` reports nothing and sends nothing. -/
theorem State.commit_of_advance_host (k : Nat) (c' : Channel) (s : State) :
    (s.commit k (ChanOut.of c')).advance .host =
      { s with channels := s.channels.set k c', hpc := s.hpc + 1 } := by
  simp only [State.commit, ChanOut.of, State.advance, List.append_nil]

section Set
variable {s : State} {ch : ChanIdx} {c : Channel} (hc : s.channels[ch.toNat]? = some c)
include hc

theorem hostSet_some (f : Channel → Channel) : hostSet ch s f =
    .next { s with channels := s.channels.set ch.toNat (f c), hpc := s.hpc + 1 } := by
  rw [hostSet, chanCommand_some hc, State.commit_of_advance_host]

variable {v : Word} (hv : v.toNat ≤ 1)
include hv

theorem hostSetBit_some (f : Bool → Channel → Channel) :
    hostSetBit ch v s f =
      .next { s with channels := s.channels.set ch.toNat (f (v == 1#32) c), hpc := s.hpc + 1 } := by
  rw [hostSetBit, onChannel_some hc, if_neg (Nat.not_lt.mpr hv), State.commit_of_advance_host]

theorem exec_setEnable : exec (.setEnable ch v) s = .next { s with
    channels := s.channels.set ch.toNat { c with enable := v == 1#32 }, hpc := s.hpc + 1 } := by
  rw [exec, execSetEnable, hostSetBit_some hc hv]

theorem exec_setControlType : exec (.setControlType ch v) s = .next { s with
    channels := s.channels.set ch.toNat
      { c with controlType := if v == 1#32 then .velocity else .position },
    hpc := s.hpc + 1 } := by
  rw [exec, execSetControlType, hostSetBit_some hc hv]

end Set

/-- Settles O55: ten commands are a `hostSet` of their field, and two a `hostSetBit`. -/
theorem hostSetsStoreTheirValue : Obligations.HostSetsStoreTheirValue := by
  intro s ch c hc put
  refine ⟨fun v => ?f64, fun v => ?u32, ?enable0, ?enable1, ?position, ?velocity⟩
  case f64 =>
    exact ⟨hostSet_some hc _, hostSet_some hc _, hostSet_some hc _, hostSet_some hc _,
      hostSet_some hc _⟩
  case u32 =>
    exact ⟨hostSet_some hc _, hostSet_some hc _, hostSet_some hc _, hostSet_some hc _,
      hostSet_some hc _⟩
  case enable0 => exact exec_setEnable (v := 0#32) hc (by decide)
  case enable1 => exact exec_setEnable (v := 1#32) hc (by decide)
  case position => exact exec_setControlType (v := 0#32) hc (by decide)
  case velocity => exact exec_setControlType (v := 1#32) hc (by decide)

/-! ## What a host command writes (R240) -/

/-- The record `c'` differs from `c` at most in the items that the host writes (R241 to R252). -/
def Channel.HostWritten (c c' : Channel) : Prop :=
  c' = { c with
    positionScale := c'.positionScale, maxvel := c'.maxvel, maxaccel := c'.maxaccel,
    steplen := c'.steplen, stepspace := c'.stepspace, dirsetup := c'.dirsetup,
    dirhold := c'.dirhold, stepType := c'.stepType, positionCmd := c'.positionCmd,
    velocityCmd := c'.velocityCmd, enable := c'.enable, controlType := c'.controlType }

/-- A host command leaves a record, without reports and events, that differs at most in the items
the host writes; HOST_READ leaves the record as it was. -/
theorem chanOut_of_host {i : Instr} (ha : i.op.agent = .host) (cfg : GroupConfig) (k : Nat)
    (c : Channel) : ∃ c', chanOut cfg i k c = ChanOut.of c' ∧ c.HostWritten c' ∧
      (i.op = .hostRead → c' = c) := by
  cases i
  case hostRead => exact ⟨c, rfl, rfl, fun _ => rfl⟩
  case tramRead | tramWrite | forcedResync | decode | control | encode | syncDirsetup | syncDirhold
    | syncSteplen | syncStepspace | syncSteptype => cases ha
  all_goals exact ⟨_, rfl, rfl, fun hop => by cases hop⟩

/-- HOST_READ, where it is not refused, returns one value (R253). -/
theorem chanReads_length_of_hostRead {i : Instr} (hop : i.op = .hostRead) {n : Nat}
    (hr : refusalOf n i = none) (c : Channel) : (chanReads i c).length = 1 := by
  cases i <;> cases hop
  next ch sel =>
    have hle : sel.toNat ≤ 16 := by
      by_contra hgt
      simp [refusalOf, Nat.not_le.mp hgt] at hr
    obtain ⟨it, hit⟩ : ∃ it, itemOf sel = some it := by
      rw [← Option.isSome_iff_exists, itemOf_isSome, decide_eq_true hle]
    simp only [chanReads, hit, Option.map_some, Option.toList_some, List.length_singleton]

/-- Only HOST_READ returns a value (R253). -/
theorem chanReads_of_ne_hostRead {i : Instr} (hop : i.op ≠ .hostRead) (c : Channel) :
    chanReads i c = [] := by
  cases i
  case hostRead => exact absurd rfl hop
  all_goals rfl

/-- Settles O27: a command of the host that completes names a channel, and leaves there what
`chanOut_of_host` says. -/
theorem hostWritesOnlyItsItems : Obligations.HostWritesOnlyItsItems := by
  intro i s t ha h
  obtain ⟨r, -, rfl⟩ | ⟨hr, ⟨rfl, -⟩ | ⟨rfl, -⟩ | ⟨rfl, -⟩ | ⟨ch, c, hi, hc, rfl⟩⟩ := exec_cases h
  case inl => exact .inl ⟨r, rfl⟩
  case inr.inr.inr.inr =>
    obtain ⟨c', hout, hwritten, hread⟩ := chanOut_of_host ha s.cfg ch.toNat c
    refine .inr ⟨ch, c, c', chanReads i c, hi, hc, hwritten,
      fun hop => ⟨hread hop, chanReads_length_of_hostRead hop hr c⟩,
      fun hop => chanReads_of_ne_hostRead hop c, ?_⟩
    rw [afterChan, hout, ha, State.commit_of_advance_host]
  all_goals cases ha

end Sys2Proof.Machine
end

section
/-! PROOFS of the statements about diagnostics, refusals and the independence of channels
(60_exceptions.md): the form of every report (R262), the configurations refused (R268), the end of a
run (R270, R281), and what commands on one channel and on two have to do with each other (R279). -/

namespace Sys2Proof.Machine

/-! ## The form of a report (R262) -/

/-- The report names channel `k`, and a field exactly where it is TIMING_CLAMPED. -/
def Diag.NamedAt (k : Nat) (d : Diag) : Prop :=
  d.channel = k ∧ (d.field.isSome = true ↔ d.code = .timingClamped)

/-- What a check without a field reports, for any code but the clamp's. -/
theorem namedAt_of_check {code : DiagCode} (hcode : code ≠ .timingClamped) (k : Nat)
    (found : Prop) [Decidable found] :
    ∀ d ∈ (if found then [(⟨code, k, none⟩ : Diag)] else []), d.NamedAt k := by
  split
  · exact List.forall_mem_singleton.mpr ⟨rfl, by simp [hcode]⟩
  · nofun

theorem fixScale_namedAt (k : Nat) (c : Channel) : ∀ d ∈ (fixScale k c).2, d.NamedAt k := by
  rw [fixScale_eq]
  exact namedAt_of_check (by decide) k _

theorem maxaccelCheck_namedAt (k : Nat) (c : Channel) :
    ∀ d ∈ (maxaccelCheck k c).2, d.NamedAt k := by
  rw [maxaccelCheck_eq]
  exact namedAt_of_check (by decide) k _

theorem maxvelChecks_namedAt (phys : F64) (k : Nat) (c : Channel) :
    ∀ d ∈ (maxvelChecks phys k c).2, d.NamedAt k := by
  simp only [maxvelChecks, maxvelSign_eq, maxvelLimit_eq]
  exact List.forall_mem_append.mpr ⟨namedAt_of_check (by decide) k _, namedAt_of_check (by decide) k _⟩

theorem controlChan_namedAt (T : F64) (k : Nat) (c : Channel) :
    ∀ d ∈ (controlChan T k c).diags, d.NamedAt k := by
  unfold controlChan
  split
  · exact List.forall_mem_append.mpr ⟨maxaccelCheck_namedAt k c,
      List.forall_mem_append.mpr ⟨fixScale_namedAt k _, maxvelChecks_namedAt _ k _⟩⟩
  · nofun

theorem encodeChan_namedAt (cfg : GroupConfig) (k : Nat) (c : Channel) :
    ∀ d ∈ (encodeChan cfg k c).diags, d.NamedAt k := by
  unfold encodeChan
  split
  · exact fixScale_namedAt k c
  · nofun

theorem transform_namedAt (cfg : GroupConfig) (F : TimingField) (k : Nat) (p : Word) :
    ∀ d ∈ (transform cfg F k p).diag.toList, d.NamedAt k := by
  rw [(transform_eq cfg F k p).2.2]
  cases F with
  | dur f =>
    simp only [exactReport]
    split
    · exact List.forall_mem_singleton.mpr ⟨rfl, by simp⟩
    · nofun
  | stepType => exact namedAt_of_check (by decide) k _

theorem syncField_namedAt (cfg : GroupConfig) (F : TimingField) (force : Bool) (k : Nat)
    (c : Channel) : ∀ d ∈ (syncField cfg F force k c).diags, d.NamedAt k := by
  unfold syncField
  split
  · exact transform_namedAt cfg F k _
  · nofun

theorem chanOut_namedAt (cfg : GroupConfig) (i : Instr) (k : Nat) (c : Channel) :
    ∀ d ∈ (chanOut cfg i k c).diags, d.NamedAt k := by
  cases i
  case decode => exact fixScale_namedAt k c
  case control ch T => exact controlChan_namedAt T k c
  case encode => exact encodeChan_namedAt cfg k c
  case syncDirsetup | syncDirhold | syncSteplen | syncStepspace | syncSteptype =>
    exact syncField_namedAt _ _ _ k c
  all_goals nofun

theorem resyncChan_namedAt (cfg : GroupConfig) (k : Nat) (c : Channel) :
    ∀ d ∈ (resyncChan cfg k c).diags, d.NamedAt k := by
  intro d hd
  rw [resyncChan_diags] at hd
  obtain ⟨F, -, hd⟩ := List.mem_flatMap.mp hd
  exact transform_namedAt cfg F k _ d hd

/-- The reports a command appends are each of a channel of the group. -/
theorem exec_appends_reports {i : Instr} {s t : State} (h : exec i s = .next t) :
    ∃ ds, t.diag = s.diag ++ ds ∧ ∀ d ∈ ds, ∃ k < s.n, d.NamedAt k := by
  obtain ⟨r, -, rfl⟩ | ⟨-, ⟨-, rfl⟩ | ⟨-, rfl⟩ | ⟨-, rfl⟩ | ⟨ch, c, -, hc, rfl⟩⟩ := exec_cases h
  case inr.inr.inr.inl =>
    refine ⟨(resyncFrom s.cfg 0 s.channels).flatMap ChanOut.diags, by simp, fun d hd => ?_⟩
    obtain ⟨o, ho, hd⟩ := List.mem_flatMap.mp hd
    obtain ⟨k, hk⟩ := List.mem_iff_getElem?.mp ho
    rw [resyncFrom_getElem?, Nat.zero_add] at hk
    obtain ⟨c, hc, rfl⟩ := Option.map_eq_some_iff.mp hk
    exact ⟨k, State.lt_n hc, resyncChan_namedAt s.cfg k c d hd⟩
  case inr.inr.inr.inr =>
    exact ⟨_, afterChan_diag .., fun d hd => ⟨_, State.lt_n hc, chanOut_namedAt _ _ _ _ d hd⟩⟩
  all_goals exact ⟨[], by simp, nofun⟩

/-- Settles O17: the reports before the step are in order by assumption, those it appends by what
each check reports, and the size of the group is fixed. -/
theorem diagnosticsStayWellFormed : Obligations.DiagnosticsStayWellFormed := by
  intro s t hs h
  refine step_keeps (P := State.diagInv) hs (fun _ => hs) (fun i u hi => ?_) h
  obtain ⟨ds, hd, hds⟩ := exec_appends_reports hi
  rw [State.diagInv, (exec_continuedBy hi).n, hd]
  refine List.forall_mem_append.mpr ⟨hs, fun d hmem => ?_⟩
  obtain ⟨k, hk, rfl, hfield⟩ := hds d hmem
  exact ⟨hk, hfield⟩

/-! ## Independence of channels (R279) -/

/-- The record that a command leaves on its channel. -/
theorem afterChan_record {s : State} {k : Nat} {c : Channel} (hc : s.channels[k]? = some c)
    (i : Instr) : (afterChan i k c s).channels[k]? = some (chanOut s.cfg i k c).chan := by
  rw [afterChan_channels]
  exact List.getElem?_set_self (State.lt_n hc)

/-- Settles O25: the group's size and the command decide the refusal, and `afterChan` writes what
`chanOut` makes of the configuration and the record. -/
theorem commandsReadOnlyTheirChannel : Obligations.CommandsReadOnlyTheirChannel := by
  intro i ch s u s' u' hi hcfg hn hch hs hu
  cases hr : refusalOf s.n i with
  | some r =>
    cases hs.symm.trans (exec_channel_refused hi hr)
    cases hu.symm.trans (exec_channel_refused hi (hn ▸ hr))
    simp [hch]
  | none =>
    obtain ⟨c, hc⟩ := channel_of_not_refused hi hr
    have hcu : u.channels[ch.toNat]? = some c := hch.symm.trans hc
    cases hs.symm.trans (exec_channel hi hc hr)
    cases hu.symm.trans (exec_channel hi hcu (hn ▸ hr))
    rw [afterChan_record hc, afterChan_record hcu]
    simp [hcfg]

/-- A command on a channel after which the run is not refused was not refused, nor was the run before
it, and it has done what `afterChan` says. -/
theorem exec_chan_completed {i : Instr} {ch : ChanIdx} {s t : State} (hi : i.chan? = some ch)
    (h : exec i s = .next t) (ht : t.refused = none) :
    s.refused = none ∧ refusalOf s.n i = none ∧
      ∃ c, s.channels[ch.toNat]? = some c ∧ t = afterChan i ch.toNat c s := by
  cases hr : refusalOf s.n i with
  | some r =>
    cases h.symm.trans (exec_channel_refused hi hr)
    cases ht
  | none =>
    obtain ⟨c, hc⟩ := channel_of_not_refused hi hr
    cases h.symm.trans (exec_channel hi hc hr)
    exact ⟨by simpa using ht, rfl, c, hc, rfl⟩

/-- A completed command advances its own agent's counter (R20). -/
theorem afterChan_counter (a : Agent) (i : Instr) (k : Nat) (c : Channel) (s : State) :
    (afterChan i k c s).counter a = s.counter a + if i.op.agent = a then 1 else 0 := by
  simp only [afterChan]
  cases i.op.agent <;> cases a <;> rfl

theorem afterChan_counter_comm (a : Agent) (i j : Instr) (k l : Nat) (c d : Channel) (s : State) :
    (afterChan j l d (afterChan i k c s)).counter a =
      (afterChan i k c (afterChan j l d s)).counter a := by
  simp only [afterChan_counter]
  exact Nat.add_right_comm ..

/-- Settles O26: neither command is refused, in either order, so each does what `afterChan` says of
its own record, which the other leaves. -/
theorem commandsOnDifferentChannelsCommute : Obligations.CommandsOnDifferentChannelsCommute := by
  intro i j a b s s1 t1 s2 t2 hi hj hab _ h1 h1' ht1 h2 h2'
  have hne : a.toNat ≠ b.toNat := fun h => hab (BitVec.eq_of_toNat_eq h)
  obtain ⟨hs1, hrj, d, hd, rfl⟩ := exec_chan_completed hj h1' ht1
  obtain ⟨hs, hri, c, hc, rfl⟩ := exec_chan_completed hi h1 hs1
  rw [afterChan_n] at hrj
  rw [afterChan_channels, List.getElem?_set_ne hne] at hd
  obtain rfl := Host.Outcome.next.inj ((exec_channel hj hd hrj).symm.trans h2)
  have hc' : (afterChan j b.toNat d s).channels[a.toNat]? = some c := by
    rw [afterChan_channels, List.getElem?_set_ne hne.symm, hc]
  obtain rfl := Host.Outcome.next.inj
    ((exec_channel hi hc' (by rwa [afterChan_n])).symm.trans h2')
  refine ⟨?_, by simp, afterChan_counter_comm .rt .., afterChan_counter_comm .host ..,
    by simpa using hs, by simp, by simp, ?_, ?_, ?_⟩
  · simpa using List.set_comm _ _ hne
  all_goals
    simp only [afterChan_wlog, afterChan_diag, afterChan_hostReads, afterChan_cfg,
      List.append_assoc]
    exact List.perm_append_comm.append_left _

/-! ## The end of a run (R270, R281, R309) -/

/-- Settles O10: `step` looks for a refusal first, and both lists of an ended run are used up. -/
theorem refusedRunStopsAndEndedRunKeepsItsState :
    Obligations.RefusedRunStopsAndEndedRunKeepsItsState := by
  refine ⟨fun s r => step_refused, fun s ⟨hpc, hhpc, hr⟩ => step_idle hr ?_⟩
  rw [State.mover_eq_none_iff, State.ahead_eq_nil_iff, State.ahead_eq_nil_iff]
  exact ⟨hpc.ge, hhpc.ge⟩

/-! ## Configurations (R268) -/

/-- A configuration is accepted where no clause of R268 refuses it. -/
theorem configOk_iff (cfg : GroupConfig) (n : Nat) :
    configOk cfg n ↔ ¬ (n = 0 ∨ 65536 < n ∨ cfg.clockHz = 0#32 ∨ cfg.base.toNat % 4 ≠ 0 ∨
      cfg.stride.toNat % 4 ≠ 0 ∨ cfg.stride.toNat < 4 * n ∨
      2 ^ 32 ≤ cfg.base.toNat + 9 * cfg.stride.toNat + 4 * (n - 1) + 3) := by
  simp only [configOk, not_or, not_lt, not_le, not_not, Nat.one_le_iff_ne_zero, ne_eq]

/-- Settles O12: `State.create` tests `configOk`. -/
theorem creationIsRefusedExactly : Obligations.CreationIsRefusedExactly := by
  intro cfg init bad
  refine ⟨fun hbad => if_neg ?_, fun hgood => ⟨_, if_pos ((configOk_iff ..).mpr hgood)⟩⟩
  rw [configOk_iff]
  exact not_not.mpr hbad

end Sys2Proof.Machine
end

section
/-! PROOFS of the statements about creation and runs (70_reset_and_hazards.md): the state a group is
created in (R291, R292), which agent the schedule lets move, and that every run comes to its end
(R309). -/

namespace Sys2Proof.Machine

/-! ## The reset state (R291, R292) -/

theorem eq_fresh_of_create {cfg : GroupConfig} {init : List ChannelInit} {t : State}
    (h : State.create cfg init = .next t) : t = State.fresh cfg init := by
  unfold State.create at h
  split at h
  case isTrue => exact (Host.Outcome.next.inj h).symm
  case isFalse => cases h

theorem fresh_getElem? (cfg : GroupConfig) {init : List ChannelInit} {i : Nat} {c : ChannelInit}
    (h : init[i]? = some c) : (State.fresh cfg init).channels[i]? = some (Channel.initial c) := by
  simp [State.fresh, h]

/-- Settles O13: a created group is `State.fresh`, and its channels are the `Channel.initial` of
their INIT records. -/
theorem createdGroupIsInItsResetState : Obligations.CreatedGroupIsInItsResetState := by
  intro cfg init t h
  obtain rfl := eq_fresh_of_create h
  refine ⟨rfl, rfl, rfl, rfl, rfl, rfl, List.length_map .., fun i c0 hc => ?_⟩
  refine ⟨Channel.initial c0, fresh_getElem? cfg hc, ?_, initial_unwritten c0, ?_⟩
  all_goals and_intros <;> rfl

/-! ## Who moves (R309) -/

theorem State.ahead_ne_nil_iff (a : Agent) (s : State) :
    s.ahead a ≠ [] ↔ s.counter a < commandCount (s.list a) := by
  rw [ne_eq, State.ahead_eq_nil_iff, not_le]

theorem State.scheduled_of_getElem? {s : State} {a : Agent}
    (h : s.schedule[s.pc + s.hpc]? = some a) : s.scheduled = a := by
  simp [State.scheduled, List.getD_eq_getElem?_getD, h]

theorem State.mover_eq_scheduled {s : State} (h : s.ahead s.scheduled ≠ []) :
    s.mover = some s.scheduled :=
  if_pos h

theorem State.mover_eq_other {s : State} (h : s.ahead s.scheduled = [])
    (ho : s.ahead (otherAgent s.scheduled) ≠ []) : s.mover = some (otherAgent s.scheduled) :=
  (if_neg (not_not.mpr h)).trans (if_pos ho)

/-- No agent moves exactly when both counters have reached the ends of their lists. -/
theorem State.mover_eq_none_iff_counters (s : State) :
    s.mover = none ↔ commandCount s.rtList ≤ s.pc ∧ commandCount s.hostList ≤ s.hpc := by
  rw [State.mover_eq_none_iff, State.ahead_eq_nil_iff, State.ahead_eq_nil_iff]
  rfl

/-- Settles O9: an agent has a command left exactly where its counter is below its list's length. -/
theorem scheduleChoosesTheMover : Obligations.ScheduleChoosesTheMover := by
  refine fun s => ⟨s.mover_eq_none_iff_counters, fun a ha => ?_⟩
  obtain rfl := State.scheduled_of_getElem? ha
  simp only [← State.ahead_ne_nil_iff, ← State.ahead_eq_nil_iff]
  exact ⟨State.mover_eq_scheduled, State.mover_eq_other⟩

/-! ## Every run comes to its end (R309) -/

/-- How many commands an agent has left. -/
def State.left (a : Agent) (s : State) : Nat := commandCount (s.list a) - s.counter a

/-- How many commands are left in both lists: the measure of a run. -/
def State.commandsLeft (s : State) : Nat := s.left .rt + s.left .host

/-- Both counters are within their lists. -/
def State.withinLists (s : State) : Prop := ∀ a, s.counter a ≤ commandCount (s.list a)

/-- `t` has come from `s` by one completed command of agent `a`. -/
def State.AdvancedBy (a : Agent) (s t : State) : Prop :=
  ∀ b, t.list b = s.list b ∧ t.counter b = s.counter b + if b = a then 1 else 0

/-- A command after which the run is not refused has advanced its own agent's counter, and no list
has changed. -/
theorem exec_advancedBy {i : Instr} {s t : State} (h : exec i s = .next t)
    (ht : t.refused = none) : s.AdvancedBy i.op.agent t := by
  have hcont := exec_continuedBy h
  obtain ⟨u, hu, hcase⟩ := everyCommandCompletesOrIsRefused i s
  obtain rfl := Host.Outcome.next.inj (h.symm.trans hu)
  obtain ⟨r, rfl⟩ | ⟨-, hrt, hhost⟩ := hcase
  case inl => cases ht
  case inr =>
    have hlist : ∀ b, t.list b = s.list b
      | .rt => hcont.rtList
      | .host => hcont.hostList
    refine fun b => ⟨hlist b, ?_⟩
    cases ha : i.op.agent with
    | rt => cases b <;> simp [State.counter, hrt ha]
    | host => cases b <;> simp [State.counter, hhost ha]

/-- Every step of a run that is not refused has a next state. -/
theorem step_next {s : State} (hr : s.refused = none) : ∃ t, step s = .next t := by
  cases hf : fetch s with
  | idle => exact ⟨s, by simp only [step, hr, hf]⟩
  | illegal => exact ⟨_, step_of_illegal hr hf⟩
  | run i => exact step_of_run hr hf ▸ exec_next i s

/-- A step after which the run is not refused has completed a command of the agent that could
move. -/
theorem step_advancedBy {s t : State} {a : Agent} (h : step s = .next t) (hm : s.mover = some a)
    (ht : t.refused = none) : s.AdvancedBy a t := by
  obtain ⟨-, ⟨hnone, -⟩ | ⟨b, hb, hcase⟩⟩ := step_cases h
  · cases hm.symm.trans hnone
  · obtain rfl := Option.some.inj (hm.symm.trans hb)
    obtain rfl | ⟨i, _, -, rfl, hi⟩ := hcase
    · cases ht
    · exact exec_advancedBy hi ht

/-- The agent that moves has a command left. -/
theorem State.left_pos_of_mover {s : State} {a : Agent} (hm : s.mover = some a) : 0 < s.left a :=
  Nat.sub_pos_of_lt ((State.ahead_ne_nil_iff a s).mp (State.ahead_of_mover hm))

theorem State.left_le_commandsLeft (a : Agent) (s : State) : s.left a ≤ s.commandsLeft := by
  cases a
  · exact Nat.le_add_right ..
  · exact Nat.le_add_left ..

/-- A completed command uses up one of those left. -/
theorem State.AdvancedBy.commandsLeft {s t : State} {a : Agent} (h : s.AdvancedBy a t)
    (hpos : 0 < s.left a) : t.commandsLeft + 1 = s.commandsLeft := by
  have hleft : ∀ b, t.left b = s.left b - if b = a then 1 else 0 := fun b => by
    rw [State.left, (h b).1, (h b).2, ← Nat.sub_sub, ← State.left]
  simp only [State.commandsLeft, hleft]
  cases a <;> simp only [if_true, if_false, reduceCtorEq] <;> omega

/-- An agent with a command left may complete it without leaving its list. -/
theorem State.AdvancedBy.withinLists {s t : State} {a : Agent} (h : s.AdvancedBy a t)
    (hpos : 0 < s.left a) (hs : s.withinLists) : t.withinLists := by
  intro b
  rw [(h b).1, (h b).2]
  split
  case isTrue hb => exact hb ▸ Nat.lt_of_sub_pos hpos
  case isFalse => exact hs b

/-- A run in which no agent can move has come to its end. -/
theorem State.ended_of_mover_none {s : State} (hr : s.refused = none) (hs : s.withinLists)
    (hm : s.mover = none) : s.ended := by
  obtain ⟨hrt, hhost⟩ := s.mover_eq_none_iff_counters.mp hm
  exact ⟨(hs .rt).antisymm hrt, (hs .host).antisymm hhost, hr⟩

theorem run_succ_of_step {s t : State} (h : step s = .next t) (k : Nat) :
    core.run (k + 1) s = core.run k t := by
  simp only [Host.Core.run, show core.step s = .next t from h]

/-- By induction on the commands left: a step either refuses the run or uses one of them up. -/
theorem run_comes_to_its_end (s : State) (hr : s.refused = none) (hs : s.withinLists) :
    ∃ k t, k ≤ s.commandsLeft ∧ core.run k s = .next t ∧ (t.ended ∨ t.refused ≠ none) := by
  cases hm : s.mover with
  | none => exact ⟨0, s, Nat.zero_le _, rfl, .inl (State.ended_of_mover_none hr hs hm)⟩
  | some a =>
    have hpos := State.left_pos_of_mover hm
    obtain ⟨t, hst⟩ := step_next hr
    by_cases ht : t.refused = none
    case neg =>
      exact ⟨1, t, hpos.trans_le (State.left_le_commandsLeft a s), run_succ_of_step hst 0, .inr ht⟩
    case pos =>
      have hadv := step_advancedBy hst hm ht
      have hless := hadv.commandsLeft hpos
      obtain ⟨k, u, hk, hrun, hu⟩ := run_comes_to_its_end t ht (hadv.withinLists hpos hs)
      exact ⟨k + 1, u, by omega, (run_succ_of_step hst k).trans hrun, hu⟩
termination_by s.commandsLeft
decreasing_by omega

/-- Settles O11: the commands left are the steps allowed, and each step that does not refuse the run
uses one up. -/
theorem everyRunComesToItsEnd : Obligations.EveryRunComesToItsEnd :=
  fun s hr hrt hhost => run_comes_to_its_end s hr fun
    | .rt => hrt
    | .host => hhost

end Sys2Proof.Machine
end
